-- ==== Sys2Proof/Word.lean ====
section
/-! DEFINITION. The machine's word types (20_memory.md R70, 10_state.md R35, R47). -/

namespace Sys2Proof

/-- A byte: the unit of memory and of instruction encodings (R76). -/
abbrev Byte := BitVec 8

/-- A 16-bit word (R70). -/
abbrev Word := BitVec 16

/-- A 32-bit doubleword: integer registers, addresses, immediates (R47, R48, R70). -/
abbrev DWord := BitVec 32

/-- A 64-bit quantity: what an MMX register shows (R7, R32). -/
abbrev QWord := BitVec 64

/-- An 80-bit floating-point register: significand 63:0, exponent 78:64, sign 79 (R35). -/
abbrev FpReg := BitVec 80

end Sys2Proof
end

