-- ==== Sys2Proof/Machine/Lanes.lean ====
section
/-! DEFINITION. Elements of a packed value, saturation, and lane-by-lane application (00_scope.md R19, R20; 20_memory.md
R70, R71). -/

namespace Sys2Proof.Machine

/-- `byte(v, i)` (R19). -/
def byteOf (v : QWord) (i : Nat) : Byte := v.extractLsb' (8 * i) 8

/-- `word(v, i)` (R19). -/
def wordOf (v : QWord) (i : Nat) : Word := v.extractLsb' (16 * i) 16

/-- `dword(v, i)` (R19). -/
def dwordOf (v : QWord) (i : Nat) : DWord := v.extractLsb' (32 * i) 32

/-- `packb` (R19): the 64-bit value whose byte `i` is `f i`. -/
def packBytes (f : Nat → Byte) : QWord := f 7 ++ f 6 ++ f 5 ++ f 4 ++ f 3 ++ f 2 ++ f 1 ++ f 0

/-- `packw` (R19): the 64-bit value whose word `i` is `f i`. -/
def packWords (f : Nat → Word) : QWord := f 3 ++ f 2 ++ f 1 ++ f 0

/-- `packd` (R19): the 64-bit value whose doubleword `i` is `f i`. -/
def packDwords (f : Nat → DWord) : QWord := f 1 ++ f 0

/-- An integer clamped to a range. -/
def clamp (lo hi x : Int) : Int := if x < lo then lo else if hi < x then hi else x

/-- `sat_s8`, `sat_s16` (R20): clamped to the signed range of `n` bits. -/
def satSigned (n : Nat) (x : Int) : BitVec n := BitVec.ofInt n (clamp (-2 ^ (n - 1)) (2 ^ (n - 1) - 1) x)

/-- `sat_u8`, `sat_u16` (R20): clamped to the unsigned range of `n` bits. -/
def satUnsigned (n : Nat) (x : Int) : BitVec n := BitVec.ofInt n (clamp 0 (2 ^ n - 1) x)

/-- The mask of a packed compare: all ones or all zeros (R260). -/
def mask (n : Nat) (holds : Bool) : BitVec n := if holds then BitVec.allOnes n else 0

/-- Byte by byte, from the old destination and the source. -/
def byBytes (f : Byte → Byte → Byte) (d s : QWord) : QWord := packBytes fun i => f (byteOf d i) (byteOf s i)

/-- Word by word. -/
def byWords (f : Word → Word → Word) (d s : QWord) : QWord := packWords fun i => f (wordOf d i) (wordOf s i)

/-- Doubleword by doubleword. -/
def byDwords (f : DWord → DWord → DWord) (d s : QWord) : QWord := packDwords fun i => f (dwordOf d i) (dwordOf s i)

/-- Sum, wrap-around (R230). -/
def addWrap {n : Nat} (a b : BitVec n) : BitVec n := a + b

/-- Sum, signed saturation (R230). -/
def addSatSigned {n : Nat} (a b : BitVec n) : BitVec n := satSigned n (a.toInt + b.toInt)

/-- Sum, unsigned saturation (R230). -/
def addSatUnsigned {n : Nat} (a b : BitVec n) : BitVec n := satUnsigned n (a.toNat + b.toNat)

/-- Destination minus source, wrap-around (R230). -/
def subWrap {n : Nat} (a b : BitVec n) : BitVec n := a - b

/-- Destination minus source, signed saturation (R230). -/
def subSatSigned {n : Nat} (a b : BitVec n) : BitVec n := satSigned n (a.toInt - b.toInt)

/-- Destination minus source, unsigned saturation (R230). -/
def subSatUnsigned {n : Nat} (a b : BitVec n) : BitVec n := satUnsigned n ((a.toNat : Int) - b.toNat)

/-- The exact signed product of two words, which fits 32 bits (R245). -/
def product (a b : Word) : DWord := BitVec.ofInt 32 (a.toInt * b.toInt)

/-- The mask of an equal compare (R260). -/
def equalMask {n : Nat} (a b : BitVec n) : BitVec n := mask n (a == b)

/-- The mask of a signed greater-than compare, destination greater than source (R260). -/
def greaterMask {n : Nat} (a b : BitVec n) : BitVec n := mask n (decide (b.toInt < a.toInt))

/-- A lane shifted left; a count above `n - 1` gives zero (R281). -/
def shiftLeft {n : Nat} (c : Nat) (a : BitVec n) : BitVec n := if n - 1 < c then 0 else a <<< c

/-- A lane shifted right with zeros; a count above `n - 1` gives zero (R281). -/
def shiftRight {n : Nat} (c : Nat) (a : BitVec n) : BitVec n := if n - 1 < c then 0 else a >>> c

/-- A lane shifted right with its sign; a count above `n - 1` acts as `n - 1` (R281, R288). -/
def shiftArith {n : Nat} (c : Nat) (a : BitVec n) : BitVec n := a.sshiftRight (min c (n - 1))

/-- One count for every word (R280). -/
def shiftWords (f : Nat → Word → Word) (d : QWord) (c : Nat) : QWord := packWords fun i => f c (wordOf d i)

/-- One count for every doubleword (R280). -/
def shiftDwords (f : Nat → DWord → DWord) (d : QWord) (c : Nat) : QWord := packDwords fun i => f c (dwordOf d i)

end Sys2Proof.Machine
end

