-- ==== Sys2Proof/Config.lean ====
section
/-! DEFINITION. What an implementation or a platform fixes (00_scope.md R7 to R16), as plain data, and the values the
spec leaves free (R24), as constants without a body. -/

namespace Sys2Proof

/-- The six segment registers (10_state.md R50). -/
inductive SegReg
  | cs | ss | ds | es | fs | gs
  deriving DecidableEq, Repr

/-- The two address sizes (R11). -/
inductive AddrSize
  | a16 | a32
  deriving DecidableEq, Repr

/-- `NumericErrorMode` (R13, 60_exceptions.md R306). -/
inductive NumericErrorMode
  | int16 | ferr
  deriving DecidableEq, Repr

/-- `OSKind` (R14). -/
inductive OsKind
  | cooperative | preemptive
  deriving DecidableEq, Repr

/-- The access kind `Translate` is given (R12). -/
inductive AccessKind
  | read | write
  deriving DecidableEq, Repr

/-- The addresses `lo` to `hi - 1`. -/
structure AddrRange where
  lo : Nat
  hi : Nat
  deriving DecidableEq, Repr

/-- What segmentation makes of a byte offset: a linear address, or one of the exceptions of 60_exceptions.md R304. -/
inductive SegOutcome
  /-- The linear address is `base + offset` modulo 2^32. -/
  | linear (base : DWord)
  /-- Segment not present. -/
  | notPresent
  /-- Limit violation. -/
  | limit
  /-- Any other memory-access exception of the base architecture (R304, "Some examples"). -/
  | other (vector : Nat) (errorCode : Option DWord)
  deriving DecidableEq, Repr

/-- One line of the segmentation stage of `Translate`: it speaks of the accesses that match every field given. -/
structure SegRule where
  /-- The segment register, or any. -/
  seg : Option SegReg
  /-- The contents of that segment register, or any (R50: "opaque inputs of `Translate`"). -/
  selector : Option Word
  kind : Option AccessKind
  offsets : AddrRange
  out : SegOutcome
  deriving DecidableEq, Repr

/-- What paging makes of a linear byte address. -/
inductive PageOutcome
  /-- The physical address is `base` plus the distance from the start of the line's range. -/
  | frame (base : Nat)
  /-- Page fault, with the error code R304 says there is. -/
  | pageFault (errorCode : DWord)
  | other (vector : Nat) (errorCode : Option DWord)
  deriving DecidableEq, Repr

/-- One line of the paging stage of `Translate`. -/
structure PageRule where
  kind : Option AccessKind
  linear : AddrRange
  out : PageOutcome
  deriving DecidableEq, Repr

/-- What stands at a physical address: memory, or a device the spec gives no behaviour (20_memory.md R81). -/
inductive RegionKind
  | ram | device
  deriving DecidableEq, Repr

/-- One region of the memory map (R76, R82). -/
structure Region where
  addrs : AddrRange
  kind : RegionKind
  deriving DecidableEq, Repr

/-- The parameters of 00_scope.md R7 to R16 and of the launch (R357). They are constants of a run: no step changes
them. `Translate` (R12) is `segRules` and `pageRules`: the first matching line decides, and where none matches the map
is the identity (D14's flat default). DESIGN CHOICE (log 2, log 6), safe: a statement about every state holds for
every value of every parameter. -/
structure Params where
  /-- R10. -/
  hasMmx : Bool
  /-- R11. -/
  defaultAddrSize : AddrSize
  /-- R16, 10_state.md R46. -/
  cr0TsModelled : Bool
  /-- R16, 20_memory.md R79. -/
  alignmentCheck : Bool
  /-- R13. -/
  numericErrorMode : NumericErrorMode
  /-- R14. -/
  osKind : OsKind
  /-- R12, segmentation. -/
  segRules : List SegRule
  /-- R12, paging. -/
  pageRules : List PageRule
  /-- R76, R82: the memory map; a physical address in no region is unmapped. -/
  regions : List Region
  /-- R87, R48: the physical bytes of the program text. -/
  text : List AddrRange
  /-- R357: `EndAddr`, a value of the program counter. -/
  endAddr : Option DWord
  deriving DecidableEq, Repr

/-- R7. -/
def Config.mmxWidth : Nat := 64

/-- R8, R31. -/
def Config.numMmx : Nat := 8

/-- The four registers CPUID writes (42_cpuid_detection.md R180). -/
inductive CpuidReg
  | eax | ebx | ecx | edx
  deriving DecidableEq, Repr

/-- `CpuidDraw` (R16, R180): what CPUID returns in a register for a value of EAX, a constant of the processor. No body:
nothing can be proved of its values (log 12), safe. -/
opaque Config.cpuidDraw (r : CpuidReg) (eax : DWord) : DWord

/-- `draw` (R24): the `n`-th drawn value, of `w` bits. No body: nothing can be proved of its values (log 13), safe. -/
opaque Config.draw (w n : Nat) : BitVec w

end Sys2Proof
end

