-- ==== Sys2Proof/Syntax.lean ====
section
/-! DEFINITION. The instructions, whole: one constructor of `Instr` per row of spec/opcode_table.json (30_encoding.md
R118), with the operand forms of R112, R113 and R116. -/

namespace Sys2Proof

/-- The integer registers (10_state.md R47). -/
inductive Reg32
  | eax | ecx | edx | ebx | esp | ebp | esi | edi
  deriving DecidableEq, Repr

/-- The MMX registers (10_state.md R31). -/
inductive MmReg
  | mm0 | mm1 | mm2 | mm3 | mm4 | mm5 | mm6 | mm7
  deriving DecidableEq, Repr

/-- The prefixes of R102. -/
inductive Prefix
  /-- 67H. -/
  | addrSize
  /-- 66H. -/
  | opSize
  /-- F0H. -/
  | lock
  /-- F3H. -/
  | rep
  /-- F2H. -/
  | repne
  /-- 2EH, 36H, 3EH, 26H, 64H, 65H. -/
  | segment (seg : SegReg)
  deriving DecidableEq, Repr

/-- The displacement of a 32-bit memory operand: ModRM.mod 00, 01, 10 (R113). -/
inductive Disp32
  | absent
  | d8 (d : Byte)
  | d32 (d : DWord)
  deriving DecidableEq, Repr

/-- The displacement of a 16-bit memory operand: ModRM.mod 00, 01, 10 (R113). -/
inductive Disp16
  | absent
  | d8 (d : Byte)
  | d16 (d : Word)
  deriving DecidableEq, Repr

/-- The 16-bit base forms, ModRM.rm 000 to 111 (R113). -/
inductive Rm16
  | bxsi | bxdi | bpsi | bpdi | si | di | bp | bx
  deriving DecidableEq, Repr

/-- A memory operand as ModRM, SIB and displacement spell it (R113). -/
inductive MemRef
  /-- A base register and a displacement; ESP is no such base, and EBP is none without a displacement. -/
  | base (b : Reg32) (d : Disp32)
  /-- mod 00, rm 101: a displacement alone. -/
  | abs32 (d : DWord)
  /-- SIB with a base register; index ESP means no index; base EBP needs a displacement. -/
  | sib (scale : BitVec 2) (index base : Reg32) (d : Disp32)
  /-- mod 00, SIB base 101: no base register, a disp32. -/
  | sibAbs (scale : BitVec 2) (index : Reg32) (d : DWord)
  /-- A 16-bit form; BP alone needs a displacement. -/
  | base16 (rm : Rm16) (d : Disp16)
  /-- mod 00, rm 110 with address size 16: disp16 alone. -/
  | abs16 (d : Word)
  deriving DecidableEq, Repr

/-- `mm/m64` and `mm/m32` (R118): ModRM.mod 11 or not. -/
inductive MmRm
  | reg (r : MmReg)
  | mem (m : MemRef)
  deriving DecidableEq, Repr

/-- `r/m32` (R118): ModRM.mod 11 or not. -/
inductive GpRm
  | reg (r : Reg32)
  | mem (m : MemRef)
  deriving DecidableEq, Repr

/-- The instructions, in the order of the opcode table. An MMX instruction carries the prefix bytes in front of it, in
their order (R108); CPUID, MOV, TEST and JNZ are admitted only without any (R109). -/
inductive Instr
  /-- 0F 60 /r: PUNPCKLBW mm, mm/m32 (R218). -/
  | punpcklbw (pfx : List Prefix) (dst : MmReg) (src : MmRm)
  /-- 0F 61 /r: PUNPCKLWD mm, mm/m32 (R219). -/
  | punpcklwd (pfx : List Prefix) (dst : MmReg) (src : MmRm)
  /-- 0F 62 /r: PUNPCKLDQ mm, mm/m32 (R220). -/
  | punpckldq (pfx : List Prefix) (dst : MmReg) (src : MmRm)
  /-- 0F 63 /r: PACKSSWB mm, mm/m64 (R211). -/
  | packsswb (pfx : List Prefix) (dst : MmReg) (src : MmRm)
  /-- 0F 64 /r: PCMPGTB mm, mm/m64 (R264). -/
  | pcmpgtb (pfx : List Prefix) (dst : MmReg) (src : MmRm)
  /-- 0F 65 /r: PCMPGTW mm, mm/m64 (R265). -/
  | pcmpgtw (pfx : List Prefix) (dst : MmReg) (src : MmRm)
  /-- 0F 66 /r: PCMPGTD mm, mm/m64 (R266). -/
  | pcmpgtd (pfx : List Prefix) (dst : MmReg) (src : MmRm)
  /-- 0F 67 /r: PACKUSWB mm, mm/m64 (R213). -/
  | packuswb (pfx : List Prefix) (dst : MmReg) (src : MmRm)
  /-- 0F 68 /r: PUNPCKHBW mm, mm/m64 (R215). -/
  | punpckhbw (pfx : List Prefix) (dst : MmReg) (src : MmRm)
  /-- 0F 69 /r: PUNPCKHWD mm, mm/m64 (R216). -/
  | punpckhwd (pfx : List Prefix) (dst : MmReg) (src : MmRm)
  /-- 0F 6A /r: PUNPCKHDQ mm, mm/m64 (R217). -/
  | punpckhdq (pfx : List Prefix) (dst : MmReg) (src : MmRm)
  /-- 0F 6B /r: PACKSSDW mm, mm/m64 (R212). -/
  | packssdw (pfx : List Prefix) (dst : MmReg) (src : MmRm)
  /-- 0F 6E /r: MOVD mm, r/m32 (R201). -/
  | movdLoad (pfx : List Prefix) (dst : MmReg) (src : GpRm)
  /-- 0F 6F /r: MOVQ mm, mm/m64 (R203). -/
  | movqLoad (pfx : List Prefix) (dst : MmReg) (src : MmRm)
  /-- 0F 71 /2 ib: PSRLW mmrm, imm8 (R285). -/
  | psrlwImm (pfx : List Prefix) (dst : MmReg) (imm : Byte)
  /-- 0F 71 /4 ib: PSRAW mmrm, imm8 (R288). -/
  | psrawImm (pfx : List Prefix) (dst : MmReg) (imm : Byte)
  /-- 0F 71 /6 ib: PSLLW mmrm, imm8 (R282). -/
  | psllwImm (pfx : List Prefix) (dst : MmReg) (imm : Byte)
  /-- 0F 72 /2 ib: PSRLD mmrm, imm8 (R286). -/
  | psrldImm (pfx : List Prefix) (dst : MmReg) (imm : Byte)
  /-- 0F 72 /4 ib: PSRAD mmrm, imm8 (R289). -/
  | psradImm (pfx : List Prefix) (dst : MmReg) (imm : Byte)
  /-- 0F 72 /6 ib: PSLLD mmrm, imm8 (R283). -/
  | pslldImm (pfx : List Prefix) (dst : MmReg) (imm : Byte)
  /-- 0F 73 /2 ib: PSRLQ mmrm, imm8 (R287). -/
  | psrlqImm (pfx : List Prefix) (dst : MmReg) (imm : Byte)
  /-- 0F 73 /6 ib: PSLLQ mmrm, imm8 (R284). -/
  | psllqImm (pfx : List Prefix) (dst : MmReg) (imm : Byte)
  /-- 0F 74 /r: PCMPEQB mm, mm/m64 (R261). -/
  | pcmpeqb (pfx : List Prefix) (dst : MmReg) (src : MmRm)
  /-- 0F 75 /r: PCMPEQW mm, mm/m64 (R262). -/
  | pcmpeqw (pfx : List Prefix) (dst : MmReg) (src : MmRm)
  /-- 0F 76 /r: PCMPEQD mm, mm/m64 (R263). -/
  | pcmpeqd (pfx : List Prefix) (dst : MmReg) (src : MmRm)
  /-- 0F 77: EMMS (R171). -/
  | emms (pfx : List Prefix)
  /-- 0F 7E /r: MOVD r/m32, mm (R202). -/
  | movdStore (pfx : List Prefix) (dst : GpRm) (src : MmReg)
  /-- 0F 7F /r: MOVQ mm/m64, mm (R204). -/
  | movqStore (pfx : List Prefix) (dst : MmRm) (src : MmReg)
  /-- 0F A2: CPUID (R180). -/
  | cpuid
  /-- 0F D1 /r: PSRLW mm, mm/m64 (R285). -/
  | psrlw (pfx : List Prefix) (dst : MmReg) (src : MmRm)
  /-- 0F D2 /r: PSRLD mm, mm/m64 (R286). -/
  | psrld (pfx : List Prefix) (dst : MmReg) (src : MmRm)
  /-- 0F D3 /r: PSRLQ mm, mm/m64 (R287). -/
  | psrlq (pfx : List Prefix) (dst : MmReg) (src : MmRm)
  /-- 0F D5 /r: PMULLW mm, mm/m64 (R246). -/
  | pmullw (pfx : List Prefix) (dst : MmReg) (src : MmRm)
  /-- 0F D8 /r: PSUBUSB mm, mm/m64 (R243). -/
  | psubusb (pfx : List Prefix) (dst : MmReg) (src : MmRm)
  /-- 0F D9 /r: PSUBUSW mm, mm/m64 (R244). -/
  | psubusw (pfx : List Prefix) (dst : MmReg) (src : MmRm)
  /-- 0F DB /r: PAND mm, mm/m64 (R267). -/
  | pand (pfx : List Prefix) (dst : MmReg) (src : MmRm)
  /-- 0F DC /r: PADDUSB mm, mm/m64 (R236). -/
  | paddusb (pfx : List Prefix) (dst : MmReg) (src : MmRm)
  /-- 0F DD /r: PADDUSW mm, mm/m64 (R237). -/
  | paddusw (pfx : List Prefix) (dst : MmReg) (src : MmRm)
  /-- 0F DF /r: PANDN mm, mm/m64 (R268). -/
  | pandn (pfx : List Prefix) (dst : MmReg) (src : MmRm)
  /-- 0F E1 /r: PSRAW mm, mm/m64 (R288). -/
  | psraw (pfx : List Prefix) (dst : MmReg) (src : MmRm)
  /-- 0F E2 /r: PSRAD mm, mm/m64 (R289). -/
  | psrad (pfx : List Prefix) (dst : MmReg) (src : MmRm)
  /-- 0F E5 /r: PMULHW mm, mm/m64 (R245). -/
  | pmulhw (pfx : List Prefix) (dst : MmReg) (src : MmRm)
  /-- 0F E8 /r: PSUBSB mm, mm/m64 (R241). -/
  | psubsb (pfx : List Prefix) (dst : MmReg) (src : MmRm)
  /-- 0F E9 /r: PSUBSW mm, mm/m64 (R242). -/
  | psubsw (pfx : List Prefix) (dst : MmReg) (src : MmRm)
  /-- 0F EB /r: POR mm, mm/m64 (R269). -/
  | por (pfx : List Prefix) (dst : MmReg) (src : MmRm)
  /-- 0F EC /r: PADDSB mm, mm/m64 (R234). -/
  | paddsb (pfx : List Prefix) (dst : MmReg) (src : MmRm)
  /-- 0F ED /r: PADDSW mm, mm/m64 (R235). -/
  | paddsw (pfx : List Prefix) (dst : MmReg) (src : MmRm)
  /-- 0F EF /r: PXOR mm, mm/m64 (R270). -/
  | pxor (pfx : List Prefix) (dst : MmReg) (src : MmRm)
  /-- 0F F1 /r: PSLLW mm, mm/m64 (R282). -/
  | psllw (pfx : List Prefix) (dst : MmReg) (src : MmRm)
  /-- 0F F2 /r: PSLLD mm, mm/m64 (R283). -/
  | pslld (pfx : List Prefix) (dst : MmReg) (src : MmRm)
  /-- 0F F3 /r: PSLLQ mm, mm/m64 (R284). -/
  | psllq (pfx : List Prefix) (dst : MmReg) (src : MmRm)
  /-- 0F F5 /r: PMADDWD mm, mm/m64 (R247). -/
  | pmaddwd (pfx : List Prefix) (dst : MmReg) (src : MmRm)
  /-- 0F F8 /r: PSUBB mm, mm/m64 (R238). -/
  | psubb (pfx : List Prefix) (dst : MmReg) (src : MmRm)
  /-- 0F F9 /r: PSUBW mm, mm/m64 (R239). -/
  | psubw (pfx : List Prefix) (dst : MmReg) (src : MmRm)
  /-- 0F FA /r: PSUBD mm, mm/m64 (R240). -/
  | psubd (pfx : List Prefix) (dst : MmReg) (src : MmRm)
  /-- 0F FC /r: PADDB mm, mm/m64 (R231). -/
  | paddb (pfx : List Prefix) (dst : MmReg) (src : MmRm)
  /-- 0F FD /r: PADDW mm, mm/m64 (R232). -/
  | paddw (pfx : List Prefix) (dst : MmReg) (src : MmRm)
  /-- 0F FE /r: PADDD mm, mm/m64 (R233). -/
  | paddd (pfx : List Prefix) (dst : MmReg) (src : MmRm)
  /-- B8+rd id: MOV r32, imm32 (R183). -/
  | mov (dst : Reg32) (imm : DWord)
  /-- F7 /0 id: TEST r32, imm32 (R184). -/
  | test (src : Reg32) (imm : DWord)
  /-- 75 cb: JNZ rel8 (R185). -/
  | jnz (rel : Byte)
  deriving DecidableEq, Repr

end Sys2Proof
end

