-- ==== Sys2Proof/Machine/Form.lean ====
section
/-! DEFINITION. What the rules common to all instructions read of one: its prefixes (30_encoding.md R102 to R108), its
memory operand, its length (R117), and whether it is an MMX instruction (00_scope.md R9). -/

namespace Sys2Proof

/-- The format of an instruction (R111) with what fixes its length. -/
inductive Shape
  /-- `RM` with an MMX register or memory as the other operand. -/
  | rmMm (pfx : List Prefix) (rm : MmRm)
  /-- `RM` with an integer register or memory as the other operand. -/
  | rmGp (pfx : List Prefix) (rm : GpRm)
  /-- `SHI`. -/
  | shi (pfx : List Prefix)
  /-- `ZO2` of an MMX instruction. -/
  | zo2 (pfx : List Prefix)
  /-- One of the four base instructions, of this many bytes. -/
  | plain (length : Nat)
  deriving DecidableEq, Repr

/-- The format of each row of R118. -/
def Instr.shape : Instr → Shape
  | .punpcklbw pfx _ src => .rmMm pfx src
  | .punpcklwd pfx _ src => .rmMm pfx src
  | .punpckldq pfx _ src => .rmMm pfx src
  | .packsswb pfx _ src => .rmMm pfx src
  | .pcmpgtb pfx _ src => .rmMm pfx src
  | .pcmpgtw pfx _ src => .rmMm pfx src
  | .pcmpgtd pfx _ src => .rmMm pfx src
  | .packuswb pfx _ src => .rmMm pfx src
  | .punpckhbw pfx _ src => .rmMm pfx src
  | .punpckhwd pfx _ src => .rmMm pfx src
  | .punpckhdq pfx _ src => .rmMm pfx src
  | .packssdw pfx _ src => .rmMm pfx src
  | .movdLoad pfx _ src => .rmGp pfx src
  | .movqLoad pfx _ src => .rmMm pfx src
  | .psrlwImm pfx _ _ => .shi pfx
  | .psrawImm pfx _ _ => .shi pfx
  | .psllwImm pfx _ _ => .shi pfx
  | .psrldImm pfx _ _ => .shi pfx
  | .psradImm pfx _ _ => .shi pfx
  | .pslldImm pfx _ _ => .shi pfx
  | .psrlqImm pfx _ _ => .shi pfx
  | .psllqImm pfx _ _ => .shi pfx
  | .pcmpeqb pfx _ src => .rmMm pfx src
  | .pcmpeqw pfx _ src => .rmMm pfx src
  | .pcmpeqd pfx _ src => .rmMm pfx src
  | .emms pfx => .zo2 pfx
  | .movdStore pfx dst _ => .rmGp pfx dst
  | .movqStore pfx dst _ => .rmMm pfx dst
  | .cpuid => .plain 2
  | .psrlw pfx _ src => .rmMm pfx src
  | .psrld pfx _ src => .rmMm pfx src
  | .psrlq pfx _ src => .rmMm pfx src
  | .pmullw pfx _ src => .rmMm pfx src
  | .psubusb pfx _ src => .rmMm pfx src
  | .psubusw pfx _ src => .rmMm pfx src
  | .pand pfx _ src => .rmMm pfx src
  | .paddusb pfx _ src => .rmMm pfx src
  | .paddusw pfx _ src => .rmMm pfx src
  | .pandn pfx _ src => .rmMm pfx src
  | .psraw pfx _ src => .rmMm pfx src
  | .psrad pfx _ src => .rmMm pfx src
  | .pmulhw pfx _ src => .rmMm pfx src
  | .psubsb pfx _ src => .rmMm pfx src
  | .psubsw pfx _ src => .rmMm pfx src
  | .por pfx _ src => .rmMm pfx src
  | .paddsb pfx _ src => .rmMm pfx src
  | .paddsw pfx _ src => .rmMm pfx src
  | .pxor pfx _ src => .rmMm pfx src
  | .psllw pfx _ src => .rmMm pfx src
  | .pslld pfx _ src => .rmMm pfx src
  | .psllq pfx _ src => .rmMm pfx src
  | .pmaddwd pfx _ src => .rmMm pfx src
  | .psubb pfx _ src => .rmMm pfx src
  | .psubw pfx _ src => .rmMm pfx src
  | .psubd pfx _ src => .rmMm pfx src
  | .paddb pfx _ src => .rmMm pfx src
  | .paddw pfx _ src => .rmMm pfx src
  | .paddd pfx _ src => .rmMm pfx src
  | .mov _ _ => .plain 5
  | .test _ _ => .plain 6
  | .jnz _ => .plain 2

/-- The memory operand of an `mm/m` operand, if it is one. -/
def MmRm.memRef : MmRm → Option MemRef
  | .reg _ => none
  | .mem m => some m

/-- The memory operand of an `r/m32` operand, if it is one. -/
def GpRm.memRef : GpRm → Option MemRef
  | .reg _ => none
  | .mem m => some m

/-- The prefixes in front of an instruction. -/
def Shape.prefixes : Shape → List Prefix
  | .rmMm pfx _ => pfx
  | .rmGp pfx _ => pfx
  | .shi pfx => pfx
  | .zo2 pfx => pfx
  | .plain _ => []

/-- The memory operand, if there is one (R77). -/
def Shape.memRef : Shape → Option MemRef
  | .rmMm _ rm => rm.memRef
  | .rmGp _ rm => rm.memRef
  | .shi _ => none
  | .zo2 _ => none
  | .plain _ => none

/-- `IsMMX` (R9). -/
def Shape.isMmx : Shape → Bool
  | .plain _ => false
  | _ => true

/-- Bytes of a displacement. -/
def Disp32.size : Disp32 → Nat
  | .absent => 0
  | .d8 _ => 1
  | .d32 _ => 4

/-- Bytes of a displacement. -/
def Disp16.size : Disp16 → Nat
  | .absent => 0
  | .d8 _ => 1
  | .d16 _ => 2

/-- SIB and displacement bytes after ModRM (R113, last column). -/
def MemRef.extra : MemRef → Nat
  | .base _ d => d.size
  | .abs32 _ => 4
  | .sib _ _ _ d => 1 + d.size
  | .sibAbs _ _ _ => 5
  | .base16 _ d => d.size
  | .abs16 _ => 2

/-- SIB and displacement bytes after ModRM. -/
def MmRm.extra : MmRm → Nat
  | .reg _ => 0
  | .mem m => m.extra

/-- SIB and displacement bytes after ModRM. -/
def GpRm.extra : GpRm → Nat
  | .reg _ => 0
  | .mem m => m.extra

/-- Length of an `RM` instruction with `extra` bytes after ModRM (R117). -/
def rmLength (pfx : List Prefix) (extra : Nat) : Nat := pfx.length + 3 + extra

/-- Length of a `SHI` instruction (R117). -/
def shiLength (pfx : List Prefix) : Nat := pfx.length + 4

/-- Length of a `ZO2` instruction (R117). -/
def zo2Length (pfx : List Prefix) : Nat := pfx.length + 2

/-- Instruction length (R117). -/
def Shape.length : Shape → Nat
  | .rmMm pfx rm => rmLength pfx rm.extra
  | .rmGp pfx rm => rmLength pfx rm.extra
  | .shi pfx => shiLength pfx
  | .zo2 pfx => zo2Length pfx
  | .plain n => n

/-- The prefixes in front of an instruction. -/
def Instr.prefixes (i : Instr) : List Prefix := i.shape.prefixes

/-- The memory operand, if there is one. -/
def Instr.memRef (i : Instr) : Option MemRef := i.shape.memRef

/-- `IsMMX` (R9): the 57 rows of files 41 and 43 to 47. -/
def Instr.isMmx (i : Instr) : Bool := i.shape.isMmx

/-- Instruction length in bytes (R117). -/
def Instr.length (i : Instr) : Nat := i.shape.length

/-- The MMX register an instruction writes (R118, column dst; R148). -/
def Instr.mmDst : Instr → Option MmReg
  | .punpcklbw _ dst _ | .punpcklwd _ dst _ | .punpckldq _ dst _ | .packsswb _ dst _ | .pcmpgtb _ dst _
  | .pcmpgtw _ dst _ | .pcmpgtd _ dst _ | .packuswb _ dst _ | .punpckhbw _ dst _ | .punpckhwd _ dst _
  | .punpckhdq _ dst _ | .packssdw _ dst _ | .movdLoad _ dst _ | .movqLoad _ dst _ | .psrlwImm _ dst _
  | .psrawImm _ dst _ | .psllwImm _ dst _ | .psrldImm _ dst _ | .psradImm _ dst _ | .pslldImm _ dst _
  | .psrlqImm _ dst _ | .psllqImm _ dst _ | .pcmpeqb _ dst _ | .pcmpeqw _ dst _ | .pcmpeqd _ dst _
  | .psrlw _ dst _ | .psrld _ dst _ | .psrlq _ dst _ | .pmullw _ dst _ | .psubusb _ dst _ | .psubusw _ dst _
  | .pand _ dst _ | .paddusb _ dst _ | .paddusw _ dst _ | .pandn _ dst _ | .psraw _ dst _ | .psrad _ dst _
  | .pmulhw _ dst _ | .psubsb _ dst _ | .psubsw _ dst _ | .por _ dst _ | .paddsb _ dst _ | .paddsw _ dst _
  | .pxor _ dst _ | .psllw _ dst _ | .pslld _ dst _ | .psllq _ dst _ | .pmaddwd _ dst _ | .psubb _ dst _
  | .psubw _ dst _ | .psubd _ dst _ | .paddb _ dst _ | .paddw _ dst _ | .paddd _ dst _
  | .movqStore _ (.reg dst) _ => some dst
  | .movqStore _ (.mem _) _ | .movdStore _ _ _ | .emms _ | .cpuid | .mov _ _ | .test _ _ | .jnz _ => none

/-- The integer register an MMX instruction writes (R202). -/
def Instr.gpDst : Instr → Option Reg32
  | .movdStore _ (.reg r) _ => some r
  | _ => none

/-- The memory operand an instruction stores to, and how many bytes (R202, R204). -/
def Instr.storeDst : Instr → Option (MemRef × Nat)
  | .movdStore _ (.mem m) _ => some (m, 4)
  | .movqStore _ (.mem m) _ => some (m, 8)
  | _ => none

/-- The other address size. -/
def AddrSize.other : AddrSize → AddrSize
  | .a16 => .a32
  | .a32 => .a16

/-- The address size in force: 67H, however often, selects the size that is not the default (R103, R108). -/
def effAddrSize (dflt : AddrSize) (pfx : List Prefix) : AddrSize :=
  if Prefix.addrSize ∈ pfx then dflt.other else dflt

/-- The segment override in force: the last one read (R105, R108). -/
def segOverride : List Prefix → Option SegReg
  | [] => none
  | .segment g :: rest => (segOverride rest).or (some g)
  | _ :: rest => segOverride rest

/-- The address size a memory operand is spelt in. -/
def MemRef.addrSize : MemRef → AddrSize
  | .base _ _ => .a32
  | .abs32 _ => .a32
  | .sib _ _ _ _ => .a32
  | .sibAbs _ _ _ => .a32
  | .base16 _ _ => .a16
  | .abs16 _ => .a16

/-- The bounds R113 sets on a memory operand: no ESP base without SIB (rm 100 means SIB), and no EBP or BP base without
a displacement (that spelling is the displacement-only form). -/
def MemRef.spellable : MemRef → Bool
  | .base b d => b != .esp && !(b == .ebp && d == .absent)
  | .abs32 _ => true
  | .sib _ _ b d => !(b == .ebp && d == .absent)
  | .sibAbs _ _ _ => true
  | .base16 rm d => !(rm == .bp && d == .absent)
  | .abs16 _ => true

/-- R108: the longest instruction, in bytes. -/
def maxLength : Nat := 15

end Sys2Proof
end

