-- ==== Sys2Proof/WellFormed.lean ====
section
/-! DEFINITION. The instructions that have an encoding (30_encoding.md R108, R110, R113). Operand fields of a fixed range
are bounded by their types; the checks here are the rest. -/

namespace Sys2Proof

/-- A memory operand can be spelt, in the address size in force (R103, R113). -/
def MemRef.wellFormed (size : AddrSize) (m : MemRef) : Bool :=
  m.spellable && m.addrSize == size

/-- An instruction has an encoding where the default address size is `dflt`: its memory operand, if any, can be spelt
under its prefixes, and it is at most 15 bytes long (R108). -/
def Instr.wellFormed (dflt : AddrSize) (i : Instr) : Bool :=
  i.memRef.all (MemRef.wellFormed (effAddrSize dflt i.prefixes)) && decide (i.length ≤ maxLength)

end Sys2Proof
end

