-- ==== Sys2Proof/Decode.lean ====
section
/-! DEFINITION. The decoder, total on any bytes, and after it the encoder (30_encoding.md). -/

namespace Sys2Proof

/-! ### Numbers of registers and bytes of prefixes -/

/-- The number of an integer register (R47). -/
def Reg32.num : Reg32 → BitVec 3
  | .eax => 0 | .ecx => 1 | .edx => 2 | .ebx => 3 | .esp => 4 | .ebp => 5 | .esi => 6 | .edi => 7

/-- The integer register of a number (R47). -/
def Reg32.ofNum (n : BitVec 3) : Reg32 :=
  match n.toNat with
  | 0 => .eax | 1 => .ecx | 2 => .edx | 3 => .ebx | 4 => .esp | 5 => .ebp | 6 => .esi | _ => .edi

/-- The number of an MMX register (R31). -/
def MmReg.num : MmReg → BitVec 3
  | .mm0 => 0 | .mm1 => 1 | .mm2 => 2 | .mm3 => 3 | .mm4 => 4 | .mm5 => 5 | .mm6 => 6 | .mm7 => 7

/-- The MMX register of a number (R31). -/
def MmReg.ofNum (n : BitVec 3) : MmReg :=
  match n.toNat with
  | 0 => .mm0 | 1 => .mm1 | 2 => .mm2 | 3 => .mm3 | 4 => .mm4 | 5 => .mm5 | 6 => .mm6 | _ => .mm7

/-- The rm field of a 16-bit form (R113). -/
def Rm16.num : Rm16 → BitVec 3
  | .bxsi => 0 | .bxdi => 1 | .bpsi => 2 | .bpdi => 3 | .si => 4 | .di => 5 | .bp => 6 | .bx => 7

/-- The 16-bit form of an rm field (R113). -/
def Rm16.ofNum (n : BitVec 3) : Rm16 :=
  match n.toNat with
  | 0 => .bxsi | 1 => .bxdi | 2 => .bpsi | 3 => .bpdi | 4 => .si | 5 => .di | 6 => .bp | _ => .bx

/-- The byte of a prefix (R102). -/
def Prefix.byte : Prefix → Byte
  | .addrSize => 0x67
  | .opSize => 0x66
  | .lock => 0xF0
  | .rep => 0xF3
  | .repne => 0xF2
  | .segment .cs => 0x2E
  | .segment .ss => 0x36
  | .segment .ds => 0x3E
  | .segment .es => 0x26
  | .segment .fs => 0x64
  | .segment .gs => 0x65

/-- The prefix of a byte, if it is one of the eleven of R108. -/
def Prefix.ofByte (b : Byte) : Option Prefix :=
  [Prefix.addrSize, .opSize, .lock, .rep, .repne, .segment .cs, .segment .ss, .segment .ds, .segment .es, .segment .fs,
    .segment .gs].find? fun p => p.byte == b

/-! ### Fields -/

/-- ModRM.mod, SIB.scale (R112, R113). -/
def modOf (b : Byte) : BitVec 2 := b.extractLsb' 6 2

/-- ModRM.reg, SIB.index. -/
def regOf (b : Byte) : BitVec 3 := b.extractLsb' 3 3

/-- ModRM.rm, SIB.base. -/
def rmOf (b : Byte) : BitVec 3 := b.extractLsb' 0 3

/-- A ModRM or SIB byte of its three fields. -/
def modRm (mod : BitVec 2) (reg rm : BitVec 3) : Byte := mod ++ reg ++ rm

/-- The bytes of a 16-bit field, low byte first (R73). -/
def le16 (v : Word) : List Byte := [v.extractLsb' 0 8, v.extractLsb' 8 8]

/-- The bytes of a 32-bit field, low byte first (R73). -/
def le32 (v : DWord) : List Byte := [v.extractLsb' 0 8, v.extractLsb' 8 8, v.extractLsb' 16 8, v.extractLsb' 24 8]

/-- An 8-bit field off the front of the bytes. -/
def take8 : List Byte → Option (Byte × List Byte)
  | b :: rest => some (b, rest)
  | [] => none

/-- A 16-bit field off the front of the bytes (R73). -/
def take16 : List Byte → Option (Word × List Byte)
  | b0 :: b1 :: rest => some (b1 ++ b0, rest)
  | _ => none

/-- A 32-bit field off the front of the bytes (R73). -/
def take32 : List Byte → Option (DWord × List Byte)
  | b0 :: b1 :: b2 :: b3 :: rest => some (b3 ++ b2 ++ b1 ++ b0, rest)
  | _ => none

/-! ### Operands -/

/-- The operand that ModRM.mod and ModRM.rm name (R112). -/
inductive RmField
  | reg (n : BitVec 3)
  | mem (m : MemRef)
  deriving DecidableEq, Repr

/-- The displacement that mod asks for with address size 32 (R113). -/
def takeDisp32 (mod : BitVec 2) (bs : List Byte) : Option (Disp32 × List Byte) :=
  if mod = 0 then some (.absent, bs)
  else if mod = 1 then (take8 bs).map fun x => (.d8 x.1, x.2)
  else (take32 bs).map fun x => (.d32 x.1, x.2)

/-- The displacement that mod asks for with address size 16 (R113). -/
def takeDisp16 (mod : BitVec 2) (bs : List Byte) : Option (Disp16 × List Byte) :=
  if mod = 0 then some (.absent, bs)
  else if mod = 1 then (take8 bs).map fun x => (.d8 x.1, x.2)
  else (take16 bs).map fun x => (.d16 x.1, x.2)

/-- A memory operand with a SIB byte (R113). -/
def takeSib (mod : BitVec 2) : List Byte → Option (MemRef × List Byte)
  | [] => none
  | sib :: rest =>
    if mod = 0 ∧ rmOf sib = 5 then
      (take32 rest).map fun x => (.sibAbs (modOf sib) (Reg32.ofNum (regOf sib)) x.1, x.2)
    else
      (takeDisp32 mod rest).map fun x =>
        (.sib (modOf sib) (Reg32.ofNum (regOf sib)) (Reg32.ofNum (rmOf sib)) x.1, x.2)

/-- A memory operand with address size 32 (R113). -/
def takeMem32 (mod : BitVec 2) (rm : BitVec 3) (bs : List Byte) : Option (MemRef × List Byte) :=
  if rm = 4 then takeSib mod bs
  else if mod = 0 ∧ rm = 5 then (take32 bs).map fun x => (.abs32 x.1, x.2)
  else (takeDisp32 mod bs).map fun x => (.base (Reg32.ofNum rm) x.1, x.2)

/-- A memory operand with address size 16 (R113). -/
def takeMem16 (mod : BitVec 2) (rm : BitVec 3) (bs : List Byte) : Option (MemRef × List Byte) :=
  if mod = 0 ∧ rm = 6 then (take16 bs).map fun x => (.abs16 x.1, x.2)
  else (takeDisp16 mod bs).map fun x => (.base16 (Rm16.ofNum rm) x.1, x.2)

/-- A ModRM byte and what follows it: the reg field and the other operand (R112). -/
def takeModRm (size : AddrSize) : List Byte → Option (BitVec 3 × RmField × List Byte)
  | [] => none
  | b :: rest =>
    if modOf b = 3 then some (regOf b, .reg (rmOf b), rest)
    else
      match size with
      | .a32 => (takeMem32 (modOf b) (rmOf b) rest).map fun x => (regOf b, .mem x.1, x.2)
      | .a16 => (takeMem16 (modOf b) (rmOf b) rest).map fun x => (regOf b, .mem x.1, x.2)

/-- The other operand read as an MMX register or memory (R112). -/
def RmField.mm : RmField → MmRm
  | .reg n => .reg (MmReg.ofNum n)
  | .mem m => .mem m

/-- The other operand read as an integer register or memory (R112). -/
def RmField.gp : RmField → GpRm
  | .reg n => .reg (Reg32.ofNum n)
  | .mem m => .mem m

/-- The field of an `mm/m` operand. -/
def MmRm.field : MmRm → RmField
  | .reg r => .reg r.num
  | .mem m => .mem m

/-- The field of an `r/m32` operand. -/
def GpRm.field : GpRm → RmField
  | .reg r => .reg r.num
  | .mem m => .mem m

/-! ### The opcode map (R118) -/

/-- Rows of format `RM` whose other operand is an MMX register or memory, by second opcode byte. -/
def mmRows : List (Byte × (List Prefix → MmReg → MmRm → Instr)) :=
  [(0x60, .punpcklbw),
   (0x61, .punpcklwd),
   (0x62, .punpckldq),
   (0x63, .packsswb),
   (0x64, .pcmpgtb),
   (0x65, .pcmpgtw),
   (0x66, .pcmpgtd),
   (0x67, .packuswb),
   (0x68, .punpckhbw),
   (0x69, .punpckhwd),
   (0x6A, .punpckhdq),
   (0x6B, .packssdw),
   (0x6F, .movqLoad),
   (0x74, .pcmpeqb),
   (0x75, .pcmpeqw),
   (0x76, .pcmpeqd),
   (0x7F, fun pfx r rm => .movqStore pfx rm r),
   (0xD1, .psrlw),
   (0xD2, .psrld),
   (0xD3, .psrlq),
   (0xD5, .pmullw),
   (0xD8, .psubusb),
   (0xD9, .psubusw),
   (0xDB, .pand),
   (0xDC, .paddusb),
   (0xDD, .paddusw),
   (0xDF, .pandn),
   (0xE1, .psraw),
   (0xE2, .psrad),
   (0xE5, .pmulhw),
   (0xE8, .psubsb),
   (0xE9, .psubsw),
   (0xEB, .por),
   (0xEC, .paddsb),
   (0xED, .paddsw),
   (0xEF, .pxor),
   (0xF1, .psllw),
   (0xF2, .pslld),
   (0xF3, .psllq),
   (0xF5, .pmaddwd),
   (0xF8, .psubb),
   (0xF9, .psubw),
   (0xFA, .psubd),
   (0xFC, .paddb),
   (0xFD, .paddw),
   (0xFE, .paddd)]

/-- Rows of format `RM` whose other operand is an integer register or memory, by second opcode byte. -/
def gpRows : List (Byte × (List Prefix → MmReg → GpRm → Instr)) :=
  [(0x6E, .movdLoad),
   (0x7E, fun pfx r rm => .movdStore pfx rm r)]

/-- Rows of format `SHI`, by second opcode byte and opcode extension. -/
def shiRows : List ((Byte × BitVec 3) × (List Prefix → MmReg → Byte → Instr)) :=
  [((0x71, 2), .psrlwImm),
   ((0x71, 4), .psrawImm),
   ((0x71, 6), .psllwImm),
   ((0x72, 2), .psrldImm),
   ((0x72, 4), .psradImm),
   ((0x72, 6), .pslldImm),
   ((0x73, 2), .psrlqImm),
   ((0x73, 6), .psllqImm)]

/-- Second opcode bytes of the shifts by an immediate count. -/
def shiBytes : List Byte := [0x71, 0x72, 0x73]

/-- Second opcode bytes near the MMX opcodes that select nothing (R120). -/
def holeBytes : List Byte :=
  [0x6C, 0x6D, 0x70, 0x78, 0x79, 0x7A, 0x7B, 0x7C, 0x7D, 0xD0, 0xD4, 0xD6, 0xD7, 0xDA, 0xDE, 0xE0, 0xE3, 0xE4, 0xE6,
    0xE7, 0xEA, 0xEE, 0xF0, 0xF4, 0xF6, 0xF7, 0xFB, 0xFF]

/-! ### The decoder -/

/-- What the decoder makes of the bytes at the program counter. -/
inductive Decoded
  /-- An instruction of R118 and the bytes after it. -/
  | instr (i : Instr) (rest : List Byte)
  /-- A hole of R120: `InvalidOpcode`. -/
  | hole
  /-- An MMX instruction longer than 15 bytes (R108). -/
  | tooLong
  /-- The instruction goes on past the bytes given, which do not refuse it or make it a hole yet. -/
  | truncated
  /-- CPUID, MOV, TEST or JNZ with a prefix in front (R109). -/
  | prefixedBase
  /-- A floating-point instruction (R6 (a)). -/
  | floatingPoint
  /-- Not in the opcode table (R120, last sentence). -/
  | notInTable
  deriving DecidableEq, Repr

/-- An instruction made of the next bytes, or none as they end too soon. -/
def Decoded.ofOption {α : Type} (x : Option (α × List Byte)) (mk : α → Instr) : Decoded :=
  match x with
  | some y => .instr (mk y.1) y.2
  | none => .truncated

/-- A base instruction is admitted only without a prefix (R109). -/
def noPrefix (pfx : List Prefix) (d : Decoded) : Decoded :=
  match pfx with
  | [] => d
  | _ :: _ => .prefixedBase

/-- Format `RM` (R111, R112). -/
def decodeRm (size : AddrSize) (mk : MmReg → RmField → Instr) (bs : List Byte) : Decoded :=
  match takeModRm size bs with
  | some x => .instr (mk (MmReg.ofNum x.1) x.2.1) x.2.2
  | none => .truncated

/-- Format `SHI`: mod 11 and one of the extensions of R118, else a hole (R120, R290). -/
def decodeShi (op : Byte) (pfx : List Prefix) : List Byte → Decoded
  | [] => .truncated
  | m :: rest =>
    if modOf m = 3 then
      match shiRows.lookup (op, regOf m) with
      | some mk => .ofOption (take8 rest) (mk pfx (MmReg.ofNum (rmOf m)))
      | none => .hole
    else .hole

/-- The bytes after 0FH (R110). -/
def decodeTwoByte (size : AddrSize) (pfx : List Prefix) : List Byte → Decoded
  | [] => .truncated
  | op :: rest =>
    if op = 0x77 then .instr (.emms pfx) rest
    else if op = 0xA2 then noPrefix pfx (.instr .cpuid rest)
    else
      match mmRows.lookup op with
      | some mk => decodeRm size (fun r f => mk pfx r f.mm) rest
      | none =>
        match gpRows.lookup op with
        | some mk => decodeRm size (fun r f => mk pfx r f.gp) rest
        | none =>
          if op ∈ shiBytes then decodeShi op pfx rest
          else if op ∈ holeBytes then .hole
          else .notInTable

/-- TEST r32, imm32 (R111): F7 with mod 11 and reg 000; the other forms of F7 are not covered (R184). -/
def decodeTest (pfx : List Prefix) : List Byte → Decoded
  | [] => .truncated
  | m :: rest =>
    if modOf m = 3 ∧ regOf m = 0 then noPrefix pfx (.ofOption (take32 rest) (.test (Reg32.ofNum (rmOf m))))
    else .notInTable

/-- The bytes after the prefixes (R110, R118). The first bytes D8 to DF are the floating-point instructions'
(PRESUMED, log 22). -/
def decodeOpcode (size : AddrSize) (pfx : List Prefix) : List Byte → Decoded
  | [] => .truncated
  | b :: rest =>
    if b = 0x0F then decodeTwoByte size pfx rest
    else if b.extractLsb' 3 5 = 0b10111#5 then noPrefix pfx (.ofOption (take32 rest) (.mov (Reg32.ofNum (rmOf b))))
    else if b = 0xF7 then decodeTest pfx rest
    else if b = 0x75 then noPrefix pfx (.ofOption (take8 rest) .jnz)
    else if b.extractLsb' 3 5 = 0b11011#5 then .floatingPoint
    else .notInTable

/-- The prefixes off the front of the bytes (R108). -/
def takePrefixes : List Byte → List Prefix × List Byte
  | [] => ([], [])
  | b :: rest =>
    match Prefix.ofByte b with
    | some p => (p :: (takePrefixes rest).1, (takePrefixes rest).2)
    | none => ([], b :: rest)

/-- Decoding with no bound on the length. -/
def decodeBytes (dflt : AddrSize) (bs : List Byte) : Decoded :=
  decodeOpcode (effAddrSize dflt (takePrefixes bs).1) (takePrefixes bs).1 (takePrefixes bs).2

/-- The decoder. Only an MMX instruction can be too long: the bound of 15 bytes (R108) is that of "MMX instructions" (D19
of 92_eei_decisions.md). A base instruction with a prefix (R109), a hole, and bytes that are not in the table (R120) are
what they are at any length. -/
def decode (dflt : AddrSize) (bs : List Byte) : Decoded :=
  match decodeBytes dflt bs with
  | .instr i rest => if maxLength < i.length then .tooLong else .instr i rest
  | d => d

/-! ### The encoder -/

/-- The displacement's bytes. -/
def Disp32.bytes : Disp32 → List Byte
  | .absent => []
  | .d8 d => [d]
  | .d32 d => le32 d

/-- The displacement's ModRM.mod. -/
def Disp32.mod : Disp32 → BitVec 2
  | .absent => 0
  | .d8 _ => 1
  | .d32 _ => 2

/-- The displacement's bytes. -/
def Disp16.bytes : Disp16 → List Byte
  | .absent => []
  | .d8 d => [d]
  | .d16 d => le16 d

/-- The displacement's ModRM.mod. -/
def Disp16.mod : Disp16 → BitVec 2
  | .absent => 0
  | .d8 _ => 1
  | .d16 _ => 2

/-- ModRM, SIB and displacement of a memory operand (R113). -/
def MemRef.bytes (reg : BitVec 3) : MemRef → List Byte
  | .base b d => modRm d.mod reg b.num :: d.bytes
  | .abs32 d => modRm 0 reg 5 :: le32 d
  | .sib s x b d => modRm d.mod reg 4 :: modRm s x.num b.num :: d.bytes
  | .sibAbs s x d => modRm 0 reg 4 :: modRm s x.num 5 :: le32 d
  | .base16 rm d => modRm d.mod reg rm.num :: d.bytes
  | .abs16 d => modRm 0 reg 6 :: le16 d

/-- ModRM and what follows it (R112). -/
def RmField.bytes (reg : BitVec 3) : RmField → List Byte
  | .reg n => [modRm 3 reg n]
  | .mem m => m.bytes reg

/-- Format `RM`. -/
def encodeRm (pfx : List Prefix) (op : Byte) (reg : BitVec 3) (rm : RmField) : List Byte :=
  pfx.map Prefix.byte ++ 0x0F :: op :: rm.bytes reg

/-- Format `SHI`. -/
def encodeShi (pfx : List Prefix) (op : Byte) (ext rm : BitVec 3) (imm : Byte) : List Byte :=
  pfx.map Prefix.byte ++ [0x0F, op, modRm 3 ext rm, imm]

/-- The bytes of an instruction (R118), at ascending addresses. -/
def encode : Instr → List Byte
  | .punpcklbw pfx dst src => encodeRm pfx 0x60 dst.num src.field
  | .punpcklwd pfx dst src => encodeRm pfx 0x61 dst.num src.field
  | .punpckldq pfx dst src => encodeRm pfx 0x62 dst.num src.field
  | .packsswb pfx dst src => encodeRm pfx 0x63 dst.num src.field
  | .pcmpgtb pfx dst src => encodeRm pfx 0x64 dst.num src.field
  | .pcmpgtw pfx dst src => encodeRm pfx 0x65 dst.num src.field
  | .pcmpgtd pfx dst src => encodeRm pfx 0x66 dst.num src.field
  | .packuswb pfx dst src => encodeRm pfx 0x67 dst.num src.field
  | .punpckhbw pfx dst src => encodeRm pfx 0x68 dst.num src.field
  | .punpckhwd pfx dst src => encodeRm pfx 0x69 dst.num src.field
  | .punpckhdq pfx dst src => encodeRm pfx 0x6A dst.num src.field
  | .packssdw pfx dst src => encodeRm pfx 0x6B dst.num src.field
  | .movdLoad pfx dst src => encodeRm pfx 0x6E dst.num src.field
  | .movqLoad pfx dst src => encodeRm pfx 0x6F dst.num src.field
  | .psrlwImm pfx dst imm => encodeShi pfx 0x71 2 dst.num imm
  | .psrawImm pfx dst imm => encodeShi pfx 0x71 4 dst.num imm
  | .psllwImm pfx dst imm => encodeShi pfx 0x71 6 dst.num imm
  | .psrldImm pfx dst imm => encodeShi pfx 0x72 2 dst.num imm
  | .psradImm pfx dst imm => encodeShi pfx 0x72 4 dst.num imm
  | .pslldImm pfx dst imm => encodeShi pfx 0x72 6 dst.num imm
  | .psrlqImm pfx dst imm => encodeShi pfx 0x73 2 dst.num imm
  | .psllqImm pfx dst imm => encodeShi pfx 0x73 6 dst.num imm
  | .pcmpeqb pfx dst src => encodeRm pfx 0x74 dst.num src.field
  | .pcmpeqw pfx dst src => encodeRm pfx 0x75 dst.num src.field
  | .pcmpeqd pfx dst src => encodeRm pfx 0x76 dst.num src.field
  | .emms pfx => pfx.map Prefix.byte ++ [0x0F, 0x77]
  | .movdStore pfx dst src => encodeRm pfx 0x7E src.num dst.field
  | .movqStore pfx dst src => encodeRm pfx 0x7F src.num dst.field
  | .cpuid => [0x0F, 0xA2]
  | .psrlw pfx dst src => encodeRm pfx 0xD1 dst.num src.field
  | .psrld pfx dst src => encodeRm pfx 0xD2 dst.num src.field
  | .psrlq pfx dst src => encodeRm pfx 0xD3 dst.num src.field
  | .pmullw pfx dst src => encodeRm pfx 0xD5 dst.num src.field
  | .psubusb pfx dst src => encodeRm pfx 0xD8 dst.num src.field
  | .psubusw pfx dst src => encodeRm pfx 0xD9 dst.num src.field
  | .pand pfx dst src => encodeRm pfx 0xDB dst.num src.field
  | .paddusb pfx dst src => encodeRm pfx 0xDC dst.num src.field
  | .paddusw pfx dst src => encodeRm pfx 0xDD dst.num src.field
  | .pandn pfx dst src => encodeRm pfx 0xDF dst.num src.field
  | .psraw pfx dst src => encodeRm pfx 0xE1 dst.num src.field
  | .psrad pfx dst src => encodeRm pfx 0xE2 dst.num src.field
  | .pmulhw pfx dst src => encodeRm pfx 0xE5 dst.num src.field
  | .psubsb pfx dst src => encodeRm pfx 0xE8 dst.num src.field
  | .psubsw pfx dst src => encodeRm pfx 0xE9 dst.num src.field
  | .por pfx dst src => encodeRm pfx 0xEB dst.num src.field
  | .paddsb pfx dst src => encodeRm pfx 0xEC dst.num src.field
  | .paddsw pfx dst src => encodeRm pfx 0xED dst.num src.field
  | .pxor pfx dst src => encodeRm pfx 0xEF dst.num src.field
  | .psllw pfx dst src => encodeRm pfx 0xF1 dst.num src.field
  | .pslld pfx dst src => encodeRm pfx 0xF2 dst.num src.field
  | .psllq pfx dst src => encodeRm pfx 0xF3 dst.num src.field
  | .pmaddwd pfx dst src => encodeRm pfx 0xF5 dst.num src.field
  | .psubb pfx dst src => encodeRm pfx 0xF8 dst.num src.field
  | .psubw pfx dst src => encodeRm pfx 0xF9 dst.num src.field
  | .psubd pfx dst src => encodeRm pfx 0xFA dst.num src.field
  | .paddb pfx dst src => encodeRm pfx 0xFC dst.num src.field
  | .paddw pfx dst src => encodeRm pfx 0xFD dst.num src.field
  | .paddd pfx dst src => encodeRm pfx 0xFE dst.num src.field
  | .mov dst imm => (0b10111#5 ++ dst.num) :: le32 imm
  | .test src imm => 0xF7 :: modRm 3 0 src.num :: le32 imm
  | .jnz rel => [0x75, rel]

/-! ### The opcode table's words -/

/-- The bytes of a table word: bit 0 is the least significant bit of the first byte; every bit from `nbits` up is 0. -/
def tableBytes (nbits w : Nat) : List Byte :=
  (List.range maxLength).map fun k => BitVec.ofNat 8 ((w % 2 ^ nbits) >>> (8 * k))

/-- The instruction the decoder reads from a table word, with the default address size 32 (R11). -/
def decodeTableWord (nbits w : Nat) : Option Instr :=
  match decode .a32 (tableBytes nbits w) with
  | .instr i _ => some i
  | _ => none

end Sys2Proof
end

