-- ==== Sys2Proof/Machine/State.lean ====
section
/-! DEFINITION. The state of the machine (10_state.md), the reasons a step can stop (60_exceptions.md R305, 00_scope.md
R25), and the state after reset. -/

namespace Sys2Proof.Machine

/-- The flags that R49 names. Their places in EFLAGS, and what else EFLAGS holds, the spec does not name (log 17). -/
structure Flags where
  cf : Bool
  pf : Bool
  af : Bool
  zf : Bool
  sf : Bool
  of : Bool
  deriving DecidableEq, Repr

/-- The machine: every piece of state of R30 and R60 (INVENTORY.md lists them), the run's parameters, and the model's
own draw counter. -/
structure State where
  /-- The parameters: constants of the run (log 2). -/
  params : Params
  /-- EAX, ECX, EDX, EBX, ESP, EBP, ESI, EDI (R47). -/
  gpr : Vector DWord 8
  /-- The program counter EIP (R48). -/
  eip : DWord
  /-- The flags of EFLAGS (R49). -/
  flags : Flags
  /-- CS, SS, DS, ES, FS, GS (R50). -/
  seg : Vector Word 6
  /-- The physical floating-point registers, and in their bits 63:0 the MMX registers (R34, R35). -/
  fpr : Vector FpReg 8
  /-- The floating-point tag word (R38). -/
  tagWord : Word
  /-- The floating-point status word; TOS is bits 13:11 (R40). -/
  statusWord : Word
  /-- The floating-point control word (R41). -/
  controlWord : Word
  /-- The floating-point instruction pointer, which describes the cause of a pending exception (R303); opaque (log 18). -/
  fpInstrPointer : BitVec 48
  /-- CR0; EM is bit 2, TS is bit 3 (R45, R46). -/
  cr0 : DWord
  /-- CR2: the faulting linear address of a page fault (R304). -/
  cr2 : DWord
  /-- A floating-point exception is pending (R54). -/
  fpExcPending : Bool
  /-- The FERR# pin is asserted (R55). -/
  ferr : Bool
  /-- Memory (R58, R76): address and byte pairs, addresses rising, only bytes other than 00h. -/
  mem : List Host.Cell
  /-- The number of the next draw (R24): the model's own (log 13). -/
  drawCount : Nat
  deriving DecidableEq, Repr

/-- `MemFault(e)` (R23, R304). -/
inductive MemExc
  /-- Alignment check (R79), vector 17, error code 0. -/
  | alignmentCheck
  /-- An instruction longer than 15 bytes (R108): a general-protection fault. -/
  | instructionTooLong
  /-- What else `Translate` returns (R304, "Some examples"). -/
  | other (vector : Nat) (errorCode : Option DWord)
  deriving DecidableEq, Repr

/-- The exceptions (R23, R305). A step that raises one ends in it, with nothing written (R312, R313). Each of them is
what the spec says the machine does: safe. -/
inductive Fault
  /-- R301: a LOCK prefix on an MMX instruction, CR0.EM = 1, or a hole of the opcode map; raised by every MMX
  instruction and by the fetch. Safe. -/
  | invalidOpcode
  /-- R302: CR0.TS = 1 where CR0.TS is modelled; raised by every MMX instruction. Safe. -/
  | deviceNotAvailable
  /-- R303, R306: a floating-point exception is pending; raised by every MMX instruction, as a vector or on FERR#. Safe. -/
  | numericError (mode : NumericErrorMode)
  /-- R304: raised by a fetch or a memory operand, with the linear address and the error code. Safe. -/
  | pageFault (linear errorCode : DWord)
  /-- R304: raised by a fetch or a memory operand, with the segment register's contents. Safe. -/
  | segmentNotPresent (selector : Word)
  /-- R304: raised by a memory operand, through this segment register (a fetch is refused there, R48). Safe. -/
  | limitViolation (seg : SegReg)
  /-- R304, R79, R108: raised by a fetch or a memory operand. Safe. -/
  | memFault (e : MemExc)
  deriving DecidableEq, Repr

/-- Where the spec gives no meaning (R25). A refusal says nothing of the hardware: safe. -/
inductive Refusal
  /-- An instruction without a meaning yet: raised by `exec`. Safe. -/
  | notModelled (mnemonic : String)
  /-- Bytes that are no row of the opcode table and no hole (R120): raised by the fetch. Safe. -/
  | notInOpcodeTable
  /-- A floating-point instruction (R6 (a), D25): raised by the fetch. Safe. -/
  | floatingPointInstruction
  /-- CPUID, MOV, TEST or JNZ with a prefix (R109, D19): raised by the fetch. Safe. -/
  | prefixOnBaseInstruction
  /-- An MMX instruction where `HasMMX` is false (R10, D28): raised by every MMX instruction. Safe. -/
  | noMmxTechnology
  /-- An operand byte past offset 2^32 that no line of `Translate` speaks of: it has no 32-bit linear address (R76, log 7).
  Raised by a memory operand. Safe. -/
  | beyondLinearSpace (offset : Nat)
  /-- A physical address outside the memory map (R76, D14): raised by a fetch or a memory operand. Safe. -/
  | unmappedAddress (addr : Nat)
  /-- A physical address of a device (R81, D14): raised by a fetch or a memory operand. Safe. -/
  | deviceAddress (addr : Nat)
  /-- A store into the program text (R87, D13): raised by a memory destination. Safe. -/
  | storeIntoText (addr : Nat)
  /-- A fetch outside the program text (R48, R185, D18). Safe. -/
  | fetchOutsideText (addr : Nat)
  /-- A fetch across 2^32 (R48, D18). Safe. -/
  | fetchAcross4G
  /-- A fetch across the code-segment limit (R48, D18). Safe. -/
  | fetchBeyondSegmentLimit
  /-- The run has ended: the program counter is `EndAddr` (R357, D27). Safe. -/
  | endOfRun
  deriving DecidableEq, Repr

/-- The parameters at reset: the values 92_eei_decisions.md takes, the flat identity map but for the reset code segment's
base (R60), the whole 32-bit space as memory (DESIGN CHOICE, log 5, unsafe), no program text and no end address
(DESIGN CHOICE, log 8 and log 9, safe), a preemptive operating system (DESIGN CHOICE, log 28, safe). -/
def resetParams : Params where
  hasMmx := true
  defaultAddrSize := .a32
  cr0TsModelled := false
  alignmentCheck := false
  numericErrorMode := .int16
  osKind := .preemptive
  segRules := [⟨some .cs, some 0xF000, none, ⟨0, 2 ^ 32⟩, .linear 0xFFFF0000⟩]
  pageRules := []
  regions := [⟨⟨0, 2 ^ 32⟩, .ram⟩]
  text := []
  endAddr := none

/-- The machine right after reset. The spec gives no reset value (R60, R340); these are the generally known values of
R60's third column and, where it has none, the Pentium family's (PRESUMED, log 3, unsafe). -/
def State.reset : State where
  params := resetParams
  gpr := #v[0, 0, 0x00000543, 0, 0, 0, 0, 0]
  eip := 0x0000FFF0
  flags := ⟨false, false, false, false, false, false⟩
  seg := #v[0xF000, 0, 0, 0, 0, 0]
  fpr := #v[0, 0, 0, 0, 0, 0, 0, 0]
  tagWord := 0x5555
  statusWord := 0
  controlWord := 0x0040
  fpInstrPointer := 0
  cr0 := 0x60000010
  cr2 := 0
  fpExcPending := false
  ferr := false
  mem := []
  drawCount := 0

end Sys2Proof.Machine
end

