-- ==== Sys2Proof/Machine/Ops.lean ====
section
/-! DEFINITION. The named operations over registers and memory, taking an exception and returning from one, and the
checks and the commit that every MMX instruction shares. -/

namespace Sys2Proof

/-- The address lies in the range. -/
def AddrRange.has (r : AddrRange) (a : Nat) : Bool := decide (r.lo ≤ a) && decide (a < r.hi)

/-- The index of an integer register in the register file (R47). -/
def Reg32.index : Reg32 → Fin 8
  | .eax => 0 | .ecx => 1 | .edx => 2 | .ebx => 3 | .esp => 4 | .ebp => 5 | .esi => 6 | .edi => 7

/-- The physical floating-point register an MMX register is: MMn is FPR[n], whatever TOS is (R35). -/
def MmReg.index : MmReg → Fin 8
  | .mm0 => 0 | .mm1 => 1 | .mm2 => 2 | .mm3 => 3 | .mm4 => 4 | .mm5 => 5 | .mm6 => 6 | .mm7 => 7

/-- The index of a segment register (R50). -/
def SegReg.index : SegReg → Fin 6
  | .cs => 0 | .ss => 1 | .ds => 2 | .es => 3 | .fs => 4 | .gs => 5

end Sys2Proof

namespace Sys2Proof.Machine

/-! ### Results -/

/-- What a part of a step answers: a value, an exception, or a refusal (R25). -/
abbrev Result (α : Type) : Type := Host.Outcome α Fault Refusal

/-- Go on with the value; an exception or a refusal ends the step. -/
def andThen {α β : Type} (x : Result α) (f : α → Result β) : Result β :=
  match x with
  | .next a => f a
  | .fault e => .fault e
  | .refused r => .refused r

/-- One answer for each element, in order; the first exception or refusal ends it. -/
def forEach {α β : Type} (f : α → Result β) : List α → Result (List β)
  | [] => .next []
  | x :: xs => andThen (f x) fun y => andThen (forEach f xs) fun ys => .next (y :: ys)

/-! ### Registers -/

/-- `x[i]` (R21). -/
def State.x (s : State) (r : Reg32) : DWord := s.gpr[r.index]

/-- `x[i] <- v` (R21). -/
def State.setX (s : State) (r : Reg32) (v : DWord) : State := { s with gpr := s.gpr.set r.index v }

/-- The contents of a segment register (R50). -/
def State.selector (s : State) (g : SegReg) : Word := s.seg[g.index]

/-- `FPR[n]` for the register that MMX register n is (R35). -/
def State.fp (s : State) (r : MmReg) : FpReg := s.fpr[r.index]

/-- `MM[n]`: bits 63:0 of `FPR[n]`, whatever its tag (R35, R37). -/
def State.mm (s : State) (r : MmReg) : QWord := (s.fp r).extractLsb' 0 64

/-- The exponent part of `FPR[n]`: bits 79:64, sign included (R36). -/
def State.exponentPart (s : State) (r : MmReg) : Word := (s.fp r).extractLsb' 64 16

/-- `MM[n] <- v`: the significand and ones in the exponent part (R36). -/
def State.setMm (s : State) (r : MmReg) (v : QWord) : State :=
  { s with fpr := s.fpr.set r.index (0xFFFF#16 ++ v) }

/-- `TAG[n]` (R38, R39). -/
def State.tag (s : State) (r : MmReg) : BitVec 2 := s.tagWord.extractLsb' (2 * r.index.val) 2

/-- TOS: status word bits 13:11 (R40). -/
def State.tos (s : State) : BitVec 3 := s.statusWord.extractLsb' 11 3

/-- CR0.EM: bit 2 (R45). -/
def State.em (s : State) : Bool := s.cr0.getLsbD 2

/-- CR0.TS: bit 3 (R46). -/
def State.ts (s : State) : Bool := s.cr0.getLsbD 3

/-- The feature flags: bit 23 is `HasMMX`, the other bits are `CpuidDraw` values (R52, R181). -/
def State.featureFlags (s : State) : DWord :=
  if s.params.hasMmx then Config.cpuidDraw .edx 1 ||| 0x00800000 else Config.cpuidDraw .edx 1 &&& 0xFF7FFFFF

/-- `pc <- pc + length` (R48), modulo 2^32 (log 25). -/
def State.advance (s : State) (length : Nat) : State := { s with eip := s.eip + BitVec.ofNat 32 length }

/-! ### Exceptions -/

/-- `raise` (R23, R313): the instruction ends without any of its writes, and the step's outcome is the exception. -/
def raise {α : Type} (f : Fault) : Result α := .fault f

/-- The vector of an exception (R305); a numeric error on FERR# has none (R306). R108's general-protection fault has
LimitViolation's vector 13 (PRESUMED, log 30). -/
def vectorOf : Fault → Option Nat
  | .invalidOpcode => some 6
  | .deviceNotAvailable => some 7
  | .numericError .int16 => some 16
  | .numericError .ferr => none
  | .pageFault _ _ => some 14
  | .segmentNotPresent _ => some 11
  | .limitViolation .ss => some 12
  | .limitViolation _ => some 13
  | .memFault .alignmentCheck => some 17
  | .memFault .instructionTooLong => some 13
  | .memFault (.other v _) => some v

/-- The error code of an exception (R301 to R305; log 27, log 30). -/
def errorCodeOf : Fault → Option DWord
  | .invalidOpcode => none
  | .deviceNotAvailable => none
  | .numericError _ => none
  | .pageFault _ c => some c
  | .segmentNotPresent sel => some (sel.setWidth 32)
  | .limitViolation _ => some 0
  | .memFault .alignmentCheck => some 0
  | .memFault .instructionTooLong => some 0
  | .memFault (.other _ c) => c

/-- Taking an exception: the state a handler finds. Nothing is written, the pc stays at the instruction (R151, R310,
R312); a page fault's linear address is in CR2 (R304), and a numeric error in `FERR` mode asserts FERR# (R306). The
vector and the error code are `vectorOf` and `errorCodeOf`; the spec describes no other part of the entry (R313). -/
def takeException (f : Fault) (s : State) : State :=
  match f with
  | .pageFault linear _ => { s with cr2 := linear }
  | .numericError .ferr => { s with ferr := true }
  | _ => s

/-- Return from an exception (R313, R314): what the handler made of the faulted state, with the pc at the faulting
instruction, which is executed again. -/
def returnFromException (handler : State → State) (f : Fault) (s : State) : State :=
  { handler (takeException f s) with eip := s.eip }

/-! ### Memory -/

/-- What an address that is not listed reads as. DESIGN CHOICE (log 4), unsafe: the spec leaves memory at launch open. -/
def Memory.unlisted : Byte := 0

/-- Memory is in canonical form: addresses strictly rising, no entry equal to what an unlisted address reads as. -/
def Memory.wf : List Host.Cell → Bool
  | [] => true
  | c :: rest => c.2 != Memory.unlisted && rest.all (fun d => decide (c.1 < d.1)) && Memory.wf rest

/-- The byte at a physical address (R58). -/
def Memory.read : List Host.Cell → Nat → Byte
  | [], _ => Memory.unlisted
  | c :: rest, a => if c.1 = a then c.2 else Memory.read rest a

/-- Memory with one byte written, in canonical form again. -/
def Memory.write : List Host.Cell → Nat → Byte → List Host.Cell
  | [], a, b => if b = Memory.unlisted then [] else [(a, b)]
  | c :: rest, a, b =>
    if a < c.1 then (if b = Memory.unlisted then c :: rest else (a, b) :: c :: rest)
    else if a = c.1 then (if b = Memory.unlisted then rest else (a, b) :: rest)
    else c :: Memory.write rest a b

/-- Memory with bytes written at addresses, in order. -/
def Memory.writeAll (m : List Host.Cell) : List Nat → List Byte → List Host.Cell
  | a :: as, b :: bs => Memory.writeAll (Memory.write m a b) as bs
  | _, _ => m

/-- The number whose bytes these are, the first the least significant (R72). -/
def fromLe : List Byte → Nat
  | [] => 0
  | b :: rest => b.toNat + 256 * fromLe rest

/-- The `n` low bytes of a number, the least significant first (R73). -/
def toLe : Nat → Nat → List Byte
  | 0, _ => []
  | n + 1, v => BitVec.ofNat 8 v :: toLe n (v / 256)

/-- A line of the segmentation stage speaks of this access. -/
def segRuleApplies (s : State) (g : SegReg) (k : AccessKind) (offset : Nat) (r : SegRule) : Bool :=
  r.seg.all (· == g) && r.selector.all (· == s.selector g) && r.kind.all (· == k) && r.offsets.has offset

/-- A line of the paging stage speaks of this access. -/
def pageRuleApplies (k : AccessKind) (linear : Nat) (r : PageRule) : Bool :=
  r.kind.all (· == k) && r.linear.has linear

/-- Segmentation of one byte (R12, R76, R83): the linear address of an offset in a segment. Where no line speaks of the
offset the map is the identity; what it gives beyond 2^32 is no 32-bit linear address, and `physicalOf` refuses it. -/
def linearOf (s : State) (g : SegReg) (k : AccessKind) (offset : Nat) : Result Nat :=
  match s.params.segRules.find? (segRuleApplies s g k offset) with
  | none => .next offset
  | some r =>
    match r.out with
    | .linear base => .next ((base.toNat + offset) % 2 ^ 32)
    | .notPresent => raise (.segmentNotPresent (s.selector g))
    | .limit => raise (.limitViolation g)
    | .other v c => raise (.memFault (.other v c))

/-- Paging of one byte (R12, R83): the physical address of a linear address. A linear address has 32 bits (R76): beyond
2^32 the byte is refused, after the alignment check of R79 (log 7, log 10). -/
def physicalOf (s : State) (k : AccessKind) (linear : Nat) : Result Nat :=
  if 2 ^ 32 ≤ linear then .refused (.beyondLinearSpace linear)
  else
  match s.params.pageRules.find? (pageRuleApplies k linear) with
  | none => .next linear
  | some r =>
    match r.out with
    | .frame base => .next (base + (linear - r.linear.lo))
    | .pageFault c => raise (.pageFault (BitVec.ofNat 32 linear) c)
    | .other v c => raise (.memFault (.other v c))

/-- The memory map (R76, R81): an address in no region, or in a device's, is refused. -/
def checkMapped (s : State) (a : Nat) : Result Nat :=
  match s.params.regions.find? (fun r => r.addrs.has a) with
  | none => .refused (.unmappedAddress a)
  | some r =>
    match r.kind with
    | .ram => .next a
    | .device => .refused (.deviceAddress a)

/-- R79: with `AlignmentCheck` on, an access whose (linear) address is no multiple of its size faults (log 11). -/
def checkAligned (s : State) (linears : List Nat) : Result Unit :=
  if s.params.alignmentCheck ∧ linears.headD 0 % linears.length ≠ 0 then raise (.memFault .alignmentCheck)
  else .next ()

/-- `Translate(seg, ea, n, kind)` (R12): the physical addresses of the `n` bytes from `ea` on. Segment checks come
before paging, and of each the lower-addressed byte first (R309); then the memory map (log 10). -/
def translateBytes (s : State) (g : SegReg) (ea : DWord) (n : Nat) (k : AccessKind) : Result (List Nat) :=
  andThen (forEach (linearOf s g k) ((List.range n).map (ea.toNat + ·))) fun linears =>
  andThen (checkAligned s linears) fun _ =>
  andThen (forEach (physicalOf s k) linears) fun phys =>
  forEach (checkMapped s) phys

/-- `MemRead(addr, n)` (R22, R72): the bytes at ascending addresses. -/
def memRead (s : State) (g : SegReg) (ea : DWord) (n : Nat) : Result (List Byte) :=
  andThen (translateBytes s g ea n .read) fun addrs => .next (addrs.map (Memory.read s.mem))

/-- The physical address is part of the program text (R87). -/
def inText (s : State) (a : Nat) : Bool := s.params.text.any (·.has a)

/-- R87: a store into the program text is refused. -/
def checkStore (s : State) (addrs : List Nat) : Result Unit :=
  match addrs.find? (inText s) with
  | some a => .refused (.storeIntoText a)
  | none => .next ()

/-- `MemWrite(addr, n, v)` (R22, R73): all of the bytes, or none (R151). -/
def memWrite (s : State) (g : SegReg) (ea : DWord) (bytes : List Byte) : Result State :=
  andThen (translateBytes s g ea bytes.length .write) fun addrs =>
  andThen (checkStore s addrs) fun _ =>
  .next { s with mem := Memory.writeAll s.mem addrs bytes }

/-! ### What every MMX instruction does -/

/-- The checks before an MMX instruction, in their order (R150, R309); `HasMMX` comes first (R10, log 24). -/
def mmxChecks (pfx : List Prefix) (s : State) : Result Unit :=
  if s.params.hasMmx = false then .refused .noMmxTechnology
  else if Prefix.lock ∈ pfx then raise .invalidOpcode
  else if s.em then raise .invalidOpcode
  else if s.params.cr0TsModelled && s.ts then raise .deviceNotAvailable
  else if s.fpExcPending then raise (.numericError s.params.numericErrorMode)
  else .next ()

/-- TOS <- 0, the rest of the status word kept (R147, R149). -/
def clearTos (statusWord : Word) : Word := statusWord &&& 0xC7FF

/-- The commit of every MMX instruction: the whole tag word, TOS <- 0, and the pc past the instruction (R146, R147, R48). -/
def commit (tags : Word) (length : Nat) (s : State) : State :=
  State.advance { s with tagWord := tags, statusWord := clearTos s.statusWord } length

/-- Every tag Valid (R146). -/
def tagsValid : Word := 0x0000

/-- Every tag Empty (R171). -/
def tagsEmpty : Word := 0xFFFF

end Sys2Proof.Machine
end

