-- ==== Sys2Proof/Machine/Operands.lean ====
section
/-! DEFINITION. Operands: effective addresses and their segments (30_encoding.md R113, R115), the sources and
destinations of R118, and the steps of R150 that are one for every instruction of a form. -/

namespace Sys2Proof

open Machine (State)

/-- The displacement, sign-extended to 32 bits (R113). -/
def Disp32.value : Disp32 → DWord
  | .absent => 0
  | .d8 d => d.signExtend 32
  | .d32 d => d

/-- The displacement, sign-extended to 16 bits (R113). -/
def Disp16.value : Disp16 → Word
  | .absent => 0
  | .d8 d => d.signExtend 16
  | .d16 d => d

/-- The low half of an integer register (R113). -/
def lowHalf (s : State) (r : Reg32) : Word := (s.x r).extractLsb' 0 16

/-- The base of a 16-bit form (R113). -/
def Rm16.value (s : State) : Rm16 → Word
  | .bxsi => lowHalf s .ebx + lowHalf s .esi
  | .bxdi => lowHalf s .ebx + lowHalf s .edi
  | .bpsi => lowHalf s .ebp + lowHalf s .esi
  | .bpdi => lowHalf s .ebp + lowHalf s .edi
  | .si => lowHalf s .esi
  | .di => lowHalf s .edi
  | .bp => lowHalf s .ebp
  | .bx => lowHalf s .ebx

/-- The scaled index of a SIB byte; index 100 is none (R113). -/
def sibIndex (s : State) (scale : BitVec 2) (index : Reg32) : DWord :=
  if index = .esp then 0 else s.x index <<< scale.toNat

/-- The effective address (R113): modulo 2^32, or modulo 2^16 and zero-extended. -/
def MemRef.ea (s : State) : MemRef → DWord
  | .base b d => s.x b + d.value
  | .abs32 d => d
  | .sib scale index b d => s.x b + sibIndex s scale index + d.value
  | .sibAbs scale index d => d + sibIndex s scale index
  | .base16 rm d => (rm.value s + d.value).setWidth 32
  | .abs16 d => d.setWidth 32

/-- A base register that addresses through SS (R115). -/
def Reg32.stackBase : Reg32 → Bool
  | .esp => true
  | .ebp => true
  | _ => false

/-- The default segment (R115). -/
def MemRef.defaultSeg : MemRef → SegReg
  | .base b _ => if b.stackBase then .ss else .ds
  | .abs32 _ => .ds
  | .sib _ _ b _ => if b.stackBase then .ss else .ds
  | .sibAbs _ _ _ => .ds
  | .base16 .bpsi _ => .ss
  | .base16 .bpdi _ => .ss
  | .base16 .bp _ => .ss
  | .base16 _ _ => .ds
  | .abs16 _ => .ds

/-- The segment of a memory operand: the default, or the override in force (R105, R115). -/
def operandSeg (pfx : List Prefix) (m : MemRef) : SegReg := (segOverride pfx).getD m.defaultSeg

end Sys2Proof

namespace Sys2Proof.Machine

/-- A 64-bit memory source (R145). -/
def load64 (pfx : List Prefix) (m : MemRef) (s : State) : Result QWord :=
  andThen (memRead s (operandSeg pfx m) (m.ea s) 8) fun bs => .next (BitVec.ofNat 64 (fromLe bs))

/-- A 32-bit memory source (R145). -/
def load32 (pfx : List Prefix) (m : MemRef) (s : State) : Result DWord :=
  andThen (memRead s (operandSeg pfx m) (m.ea s) 4) fun bs => .next (BitVec.ofNat 32 (fromLe bs))

/-- The source `mm/m64`, in 64-bit access mode (R33, R118). -/
def readMm64 (pfx : List Prefix) (src : MmRm) (s : State) : Result QWord :=
  match src with
  | .reg r => .next (s.mm r)
  | .mem m => load64 pfx m s

/-- The source `mm/m32`, in 32-bit access mode: bits 31:0 of the register (R33, R118). -/
def readMm32 (pfx : List Prefix) (src : MmRm) (s : State) : Result DWord :=
  match src with
  | .reg r => .next ((s.mm r).extractLsb' 0 32)
  | .mem m => load32 pfx m s

/-- The source `r/m32` (R118). -/
def readGp32 (pfx : List Prefix) (src : GpRm) (s : State) : Result DWord :=
  match src with
  | .reg r => .next (s.x r)
  | .mem m => load32 pfx m s

/-- The step of R150 for an MMX instruction whose destination is an MMX register: the checks, the source, the result
from the old destination and the source, the commit. -/
def mmxToReg {α : Type} (pfx : List Prefix) (length : Nat) (dst : MmReg) (read : State → Result α)
    (compute : QWord → α → QWord) (s : State) : Result State :=
  andThen (mmxChecks pfx s) fun _ =>
  andThen (read s) fun v =>
  .next (commit tagsValid length (s.setMm dst (compute (s.mm dst) v)))

/-- The step of R150 for an MMX instruction whose destination is an integer register. -/
def mmxToGp (pfx : List Prefix) (length : Nat) (dst : Reg32) (value : State → DWord) (s : State) : Result State :=
  andThen (mmxChecks pfx s) fun _ => .next (commit tagsValid length (s.setX dst (value s)))

/-- The step of R150 for an MMX instruction whose destination is memory: exactly these bytes are stored, or the
instruction writes nothing (R151, R152). -/
def mmxToMem (pfx : List Prefix) (length : Nat) (dst : MemRef) (bytes : State → List Byte) (s : State) : Result State :=
  andThen (mmxChecks pfx s) fun _ =>
  andThen (memWrite s (operandSeg pfx dst) (dst.ea s) (bytes s)) fun t =>
  .next (commit tagsValid length t)

/-- Form `mm, mm/m64`. -/
def mmxRm64 (pfx : List Prefix) (dst : MmReg) (src : MmRm) (compute : QWord → QWord → QWord) (s : State) :
    Result State :=
  mmxToReg pfx (rmLength pfx src.extra) dst (readMm64 pfx src) compute s

/-- Form `mm, mm/m32`. -/
def mmxRm32 (pfx : List Prefix) (dst : MmReg) (src : MmRm) (compute : QWord → DWord → QWord) (s : State) :
    Result State :=
  mmxToReg pfx (rmLength pfx src.extra) dst (readMm32 pfx src) compute s

/-- Form `mm, imm8`: the count is the immediate, unsigned (R116, R281). -/
def mmxImm (pfx : List Prefix) (dst : MmReg) (imm : Byte) (compute : QWord → Nat → QWord) (s : State) : Result State :=
  mmxToReg pfx (shiLength pfx) dst (fun _ => .next imm.toNat) compute s

end Sys2Proof.Machine
end

