-- ==== Sys2Proof/Machine/Arith.lean ====
section
/-! DEFINITION. The packed arithmetic instructions (45_arithmetic.md). -/

namespace Sys2Proof.Machine

/-- PADDB mm, mm/m64 (R231). -/
def execPaddb (pfx : List Prefix) (dst : MmReg) (src : MmRm) (s : State) : Result State :=
  mmxRm64 pfx dst src (byBytes addWrap) s

/-- PADDW mm, mm/m64 (R232). -/
def execPaddw (pfx : List Prefix) (dst : MmReg) (src : MmRm) (s : State) : Result State :=
  mmxRm64 pfx dst src (byWords addWrap) s

/-- PADDD mm, mm/m64 (R233). -/
def execPaddd (pfx : List Prefix) (dst : MmReg) (src : MmRm) (s : State) : Result State :=
  mmxRm64 pfx dst src (byDwords addWrap) s

/-- PADDSB mm, mm/m64 (R234). -/
def execPaddsb (pfx : List Prefix) (dst : MmReg) (src : MmRm) (s : State) : Result State :=
  mmxRm64 pfx dst src (byBytes addSatSigned) s

/-- PADDSW mm, mm/m64 (R235). -/
def execPaddsw (pfx : List Prefix) (dst : MmReg) (src : MmRm) (s : State) : Result State :=
  mmxRm64 pfx dst src (byWords addSatSigned) s

/-- PADDUSB mm, mm/m64 (R236). -/
def execPaddusb (pfx : List Prefix) (dst : MmReg) (src : MmRm) (s : State) : Result State :=
  mmxRm64 pfx dst src (byBytes addSatUnsigned) s

/-- PADDUSW mm, mm/m64 (R237). -/
def execPaddusw (pfx : List Prefix) (dst : MmReg) (src : MmRm) (s : State) : Result State :=
  mmxRm64 pfx dst src (byWords addSatUnsigned) s

/-- PSUBB mm, mm/m64 (R238). -/
def execPsubb (pfx : List Prefix) (dst : MmReg) (src : MmRm) (s : State) : Result State :=
  mmxRm64 pfx dst src (byBytes subWrap) s

/-- PSUBW mm, mm/m64 (R239). -/
def execPsubw (pfx : List Prefix) (dst : MmReg) (src : MmRm) (s : State) : Result State :=
  mmxRm64 pfx dst src (byWords subWrap) s

/-- PSUBD mm, mm/m64 (R240). -/
def execPsubd (pfx : List Prefix) (dst : MmReg) (src : MmRm) (s : State) : Result State :=
  mmxRm64 pfx dst src (byDwords subWrap) s

/-- PSUBSB mm, mm/m64 (R241). -/
def execPsubsb (pfx : List Prefix) (dst : MmReg) (src : MmRm) (s : State) : Result State :=
  mmxRm64 pfx dst src (byBytes subSatSigned) s

/-- PSUBSW mm, mm/m64 (R242). -/
def execPsubsw (pfx : List Prefix) (dst : MmReg) (src : MmRm) (s : State) : Result State :=
  mmxRm64 pfx dst src (byWords subSatSigned) s

/-- PSUBUSB mm, mm/m64 (R243). -/
def execPsubusb (pfx : List Prefix) (dst : MmReg) (src : MmRm) (s : State) : Result State :=
  mmxRm64 pfx dst src (byBytes subSatUnsigned) s

/-- PSUBUSW mm, mm/m64 (R244). -/
def execPsubusw (pfx : List Prefix) (dst : MmReg) (src : MmRm) (s : State) : Result State :=
  mmxRm64 pfx dst src (byWords subSatUnsigned) s

/-- The high halves of the four products (R245). -/
def mulHigh (d s : QWord) : QWord := byWords (fun a b => (product a b).extractLsb' 16 16) d s

/-- The low halves of the four products (R246). -/
def mulLow (d s : QWord) : QWord := byWords (fun a b => (product a b).extractLsb' 0 16) d s

/-- Adjacent products added, wrap-around (R247). -/
def mulAdd (d s : QWord) : QWord :=
  packDwords fun i =>
    product (wordOf d (2 * i)) (wordOf s (2 * i)) + product (wordOf d (2 * i + 1)) (wordOf s (2 * i + 1))

/-- PMULHW mm, mm/m64 (R245). -/
def execPmulhw (pfx : List Prefix) (dst : MmReg) (src : MmRm) (s : State) : Result State :=
  mmxRm64 pfx dst src mulHigh s

/-- PMULLW mm, mm/m64 (R246). -/
def execPmullw (pfx : List Prefix) (dst : MmReg) (src : MmRm) (s : State) : Result State :=
  mmxRm64 pfx dst src mulLow s

/-- PMADDWD mm, mm/m64 (R247). -/
def execPmaddwd (pfx : List Prefix) (dst : MmReg) (src : MmRm) (s : State) : Result State :=
  mmxRm64 pfx dst src mulAdd s

end Sys2Proof.Machine
end

