-- ==== Sys2Proof/Machine/Flags.lean ====
section
/-! DEFINITION. The flags TEST writes (10_state.md R49, 42_cpuid_detection.md R184). -/

namespace Sys2Proof.Machine

/-- PF: the number of 1 bits in the low byte is even (R184). -/
def evenParity (t : DWord) : Bool := ((List.range 8).filter fun i => t.getLsbD i).length % 2 == 0

/-- The flags after TEST of the 32-bit `t`, with AF as drawn (R184). -/
def testFlags (t : DWord) (af : Bool) : Flags where
  cf := false
  pf := evenParity t
  af := af
  zf := t == 0
  sf := t.getLsbD 31
  of := false

end Sys2Proof.Machine
end

