-- ==== Sys2Proof/Machine/Base.lean ====
section
/-! DEFINITION. EMMS (41_emms.md), and CPUID, MOV, TEST and JNZ (42_cpuid_detection.md). -/

namespace Sys2Proof.Machine

/-- EMMS (R171): every tag Empty, TOS <- 0; no register's contents change. -/
def execEmms (pfx : List Prefix) (s : State) : Result State :=
  andThen (mmxChecks pfx s) fun _ => .next (commit tagsEmpty (zo2Length pfx) s)

/-- What CPUID puts in EDX: the feature flags where EAX is 1, else a draw (R180, R181). -/
def cpuidEdx (s : State) : DWord :=
  if s.x .eax = 1 then s.featureFlags else Config.cpuidDraw .edx (s.x .eax)

/-- CPUID (R180): writes EAX, EBX, ECX and EDX; CR0.EM does not affect it (R187). -/
def execCpuid (s : State) : Result State :=
  .next <| State.advance
    ((((s.setX .eax (Config.cpuidDraw .eax (s.x .eax))).setX .ebx (Config.cpuidDraw .ebx (s.x .eax))).setX .ecx
      (Config.cpuidDraw .ecx (s.x .eax))).setX .edx (cpuidEdx s)) 2

/-- MOV r32, imm32 (R183). -/
def execMov (dst : Reg32) (imm : DWord) (s : State) : Result State :=
  .next ((s.setX dst imm).advance 5)

/-- TEST r32, imm32 (R184): the flags of the AND; AF is drawn afresh (log 13). -/
def execTest (src : Reg32) (imm : DWord) (s : State) : Result State :=
  .next <| State.advance
    { s with
      flags := testFlags (s.x src &&& imm) ((Config.draw 1 s.drawCount).getLsbD 0)
      drawCount := s.drawCount + 1 } 6

/-- JNZ rel8 (R185): relative to the next instruction, modulo 2^32. -/
def execJnz (rel : Byte) (s : State) : Result State :=
  if s.flags.zf then .next (s.advance 2)
  else .next { s with eip := s.eip + 2 + rel.signExtend 32 }

end Sys2Proof.Machine
end

