-- ==== Sys2Proof/Machine/Logic.lean ====
section
/-! DEFINITION. The packed compare and logical instructions (46_compare_logical.md). -/

namespace Sys2Proof.Machine

/-- PCMPEQB mm, mm/m64 (R261). -/
def execPcmpeqb (pfx : List Prefix) (dst : MmReg) (src : MmRm) (s : State) : Result State :=
  mmxRm64 pfx dst src (byBytes equalMask) s

/-- PCMPEQW mm, mm/m64 (R262). -/
def execPcmpeqw (pfx : List Prefix) (dst : MmReg) (src : MmRm) (s : State) : Result State :=
  mmxRm64 pfx dst src (byWords equalMask) s

/-- PCMPEQD mm, mm/m64 (R263). -/
def execPcmpeqd (pfx : List Prefix) (dst : MmReg) (src : MmRm) (s : State) : Result State :=
  mmxRm64 pfx dst src (byDwords equalMask) s

/-- PCMPGTB mm, mm/m64 (R264). -/
def execPcmpgtb (pfx : List Prefix) (dst : MmReg) (src : MmRm) (s : State) : Result State :=
  mmxRm64 pfx dst src (byBytes greaterMask) s

/-- PCMPGTW mm, mm/m64 (R265). -/
def execPcmpgtw (pfx : List Prefix) (dst : MmReg) (src : MmRm) (s : State) : Result State :=
  mmxRm64 pfx dst src (byWords greaterMask) s

/-- PCMPGTD mm, mm/m64 (R266). -/
def execPcmpgtd (pfx : List Prefix) (dst : MmReg) (src : MmRm) (s : State) : Result State :=
  mmxRm64 pfx dst src (byDwords greaterMask) s

/-- PAND mm, mm/m64 (R267). -/
def execPand (pfx : List Prefix) (dst : MmReg) (src : MmRm) (s : State) : Result State :=
  mmxRm64 pfx dst src (fun d v => d &&& v) s

/-- PANDN mm, mm/m64 (R268): the destination is inverted. -/
def execPandn (pfx : List Prefix) (dst : MmReg) (src : MmRm) (s : State) : Result State :=
  mmxRm64 pfx dst src (fun d v => ~~~d &&& v) s

/-- POR mm, mm/m64 (R269). -/
def execPor (pfx : List Prefix) (dst : MmReg) (src : MmRm) (s : State) : Result State :=
  mmxRm64 pfx dst src (fun d v => d ||| v) s

/-- PXOR mm, mm/m64 (R270). -/
def execPxor (pfx : List Prefix) (dst : MmReg) (src : MmRm) (s : State) : Result State :=
  mmxRm64 pfx dst src (fun d v => d ^^^ v) s

end Sys2Proof.Machine
end

