-- ==== Sys2Proof/Machine/Pack.lean ====
section
/-! DEFINITION. The pack and unpack instructions (44_pack_unpack.md). -/

namespace Sys2Proof.Machine

/-- Words narrowed to bytes: the destination's to the low half, the source's to the high half (R210). -/
def narrowWords (sat : Int → Byte) (d s : QWord) : QWord :=
  packBytes fun i => if i < 4 then sat (wordOf d i).toInt else sat (wordOf s (i - 4)).toInt

/-- Doublewords narrowed to words (R210). -/
def narrowDwords (sat : Int → Word) (d s : QWord) : QWord :=
  packWords fun i => if i < 2 then sat (dwordOf d i).toInt else sat (dwordOf s (i - 2)).toInt

/-- Bytes interleaved from element `start` on, the destination's first (R214). -/
def interleaveBytes (start : Nat) (d s : QWord) : QWord :=
  packBytes fun i => if i % 2 = 0 then byteOf d (start + i / 2) else byteOf s (start + i / 2)

/-- Words interleaved from element `start` on (R214). -/
def interleaveWords (start : Nat) (d s : QWord) : QWord :=
  packWords fun i => if i % 2 = 0 then wordOf d (start + i / 2) else wordOf s (start + i / 2)

/-- Doublewords interleaved from element `start` on (R214). -/
def interleaveDwords (start : Nat) (d s : QWord) : QWord :=
  packDwords fun i => if i % 2 = 0 then dwordOf d (start + i / 2) else dwordOf s (start + i / 2)

/-- PACKSSWB mm, mm/m64 (R211). -/
def execPacksswb (pfx : List Prefix) (dst : MmReg) (src : MmRm) (s : State) : Result State :=
  mmxRm64 pfx dst src (narrowWords (satSigned 8)) s

/-- PACKSSDW mm, mm/m64 (R212). -/
def execPackssdw (pfx : List Prefix) (dst : MmReg) (src : MmRm) (s : State) : Result State :=
  mmxRm64 pfx dst src (narrowDwords (satSigned 16)) s

/-- PACKUSWB mm, mm/m64 (R213). -/
def execPackuswb (pfx : List Prefix) (dst : MmReg) (src : MmRm) (s : State) : Result State :=
  mmxRm64 pfx dst src (narrowWords (satUnsigned 8)) s

/-- PUNPCKHBW mm, mm/m64 (R215). -/
def execPunpckhbw (pfx : List Prefix) (dst : MmReg) (src : MmRm) (s : State) : Result State :=
  mmxRm64 pfx dst src (interleaveBytes 4) s

/-- PUNPCKHWD mm, mm/m64 (R216). -/
def execPunpckhwd (pfx : List Prefix) (dst : MmReg) (src : MmRm) (s : State) : Result State :=
  mmxRm64 pfx dst src (interleaveWords 2) s

/-- PUNPCKHDQ mm, mm/m64 (R217). -/
def execPunpckhdq (pfx : List Prefix) (dst : MmReg) (src : MmRm) (s : State) : Result State :=
  mmxRm64 pfx dst src (interleaveDwords 1) s

/-- PUNPCKLBW mm, mm/m32 (R218): only 32 bits of the source are read. -/
def execPunpcklbw (pfx : List Prefix) (dst : MmReg) (src : MmRm) (s : State) : Result State :=
  mmxRm32 pfx dst src (fun d v => interleaveBytes 0 d (v.setWidth 64)) s

/-- PUNPCKLWD mm, mm/m32 (R219): only 32 bits of the source are read. -/
def execPunpcklwd (pfx : List Prefix) (dst : MmReg) (src : MmRm) (s : State) : Result State :=
  mmxRm32 pfx dst src (fun d v => interleaveWords 0 d (v.setWidth 64)) s

/-- PUNPCKLDQ mm, mm/m32 (R220): only 32 bits of the source are read. -/
def execPunpckldq (pfx : List Prefix) (dst : MmReg) (src : MmRm) (s : State) : Result State :=
  mmxRm32 pfx dst src (fun d v => interleaveDwords 0 d (v.setWidth 64)) s

end Sys2Proof.Machine
end

