-- ==== Sys2Proof/Machine/Shift.lean ====
section
/-! DEFINITION. The packed shift instructions (47_shift.md). -/

namespace Sys2Proof.Machine

/-- PSLLW mm, mm/m64 (R282): the count is the whole 64-bit source (R281). -/
def execPsllw (pfx : List Prefix) (dst : MmReg) (src : MmRm) (s : State) : Result State :=
  mmxRm64 pfx dst src (fun d v => shiftWords shiftLeft d v.toNat) s

/-- PSLLW mmrm, imm8 (R282). -/
def execPsllwImm (pfx : List Prefix) (dst : MmReg) (imm : Byte) (s : State) : Result State :=
  mmxImm pfx dst imm (shiftWords shiftLeft) s

/-- PSLLD mm, mm/m64 (R283): the count is the whole 64-bit source (R281). -/
def execPslld (pfx : List Prefix) (dst : MmReg) (src : MmRm) (s : State) : Result State :=
  mmxRm64 pfx dst src (fun d v => shiftDwords shiftLeft d v.toNat) s

/-- PSLLD mmrm, imm8 (R283). -/
def execPslldImm (pfx : List Prefix) (dst : MmReg) (imm : Byte) (s : State) : Result State :=
  mmxImm pfx dst imm (shiftDwords shiftLeft) s

/-- PSLLQ mm, mm/m64 (R284): the count is the whole 64-bit source (R281). -/
def execPsllq (pfx : List Prefix) (dst : MmReg) (src : MmRm) (s : State) : Result State :=
  mmxRm64 pfx dst src (fun d v => shiftLeft v.toNat d) s

/-- PSLLQ mmrm, imm8 (R284). -/
def execPsllqImm (pfx : List Prefix) (dst : MmReg) (imm : Byte) (s : State) : Result State :=
  mmxImm pfx dst imm (fun d c => shiftLeft c d) s

/-- PSRLW mm, mm/m64 (R285): the count is the whole 64-bit source (R281). -/
def execPsrlw (pfx : List Prefix) (dst : MmReg) (src : MmRm) (s : State) : Result State :=
  mmxRm64 pfx dst src (fun d v => shiftWords shiftRight d v.toNat) s

/-- PSRLW mmrm, imm8 (R285). -/
def execPsrlwImm (pfx : List Prefix) (dst : MmReg) (imm : Byte) (s : State) : Result State :=
  mmxImm pfx dst imm (shiftWords shiftRight) s

/-- PSRLD mm, mm/m64 (R286): the count is the whole 64-bit source (R281). -/
def execPsrld (pfx : List Prefix) (dst : MmReg) (src : MmRm) (s : State) : Result State :=
  mmxRm64 pfx dst src (fun d v => shiftDwords shiftRight d v.toNat) s

/-- PSRLD mmrm, imm8 (R286). -/
def execPsrldImm (pfx : List Prefix) (dst : MmReg) (imm : Byte) (s : State) : Result State :=
  mmxImm pfx dst imm (shiftDwords shiftRight) s

/-- PSRLQ mm, mm/m64 (R287): the count is the whole 64-bit source (R281). -/
def execPsrlq (pfx : List Prefix) (dst : MmReg) (src : MmRm) (s : State) : Result State :=
  mmxRm64 pfx dst src (fun d v => shiftRight v.toNat d) s

/-- PSRLQ mmrm, imm8 (R287). -/
def execPsrlqImm (pfx : List Prefix) (dst : MmReg) (imm : Byte) (s : State) : Result State :=
  mmxImm pfx dst imm (fun d c => shiftRight c d) s

/-- PSRAW mm, mm/m64 (R288): the count is the whole 64-bit source (R281). -/
def execPsraw (pfx : List Prefix) (dst : MmReg) (src : MmRm) (s : State) : Result State :=
  mmxRm64 pfx dst src (fun d v => shiftWords shiftArith d v.toNat) s

/-- PSRAW mmrm, imm8 (R288). -/
def execPsrawImm (pfx : List Prefix) (dst : MmReg) (imm : Byte) (s : State) : Result State :=
  mmxImm pfx dst imm (shiftWords shiftArith) s

/-- PSRAD mm, mm/m64 (R289): the count is the whole 64-bit source (R281). -/
def execPsrad (pfx : List Prefix) (dst : MmReg) (src : MmRm) (s : State) : Result State :=
  mmxRm64 pfx dst src (fun d v => shiftDwords shiftArith d v.toNat) s

/-- PSRAD mmrm, imm8 (R289). -/
def execPsradImm (pfx : List Prefix) (dst : MmReg) (imm : Byte) (s : State) : Result State :=
  mmxImm pfx dst imm (shiftDwords shiftArith) s

end Sys2Proof.Machine
end

