-- ==== Sys2Proof/Machine/Transfer.lean ====
section
/-! DEFINITION. MOVD and MOVQ (43_data_transfer.md). -/

namespace Sys2Proof.Machine

/-- MOVD mm, r/m32 (R201): bits 63:32 of the register become 0. -/
def execMovdLoad (pfx : List Prefix) (dst : MmReg) (src : GpRm) (s : State) : Result State :=
  mmxToReg pfx (rmLength pfx src.extra) dst (readGp32 pfx src) (fun _ v => v.setWidth 64) s

/-- MOVD r/m32, mm (R202): bits 31:0, to an integer register or to exactly 4 bytes of memory. -/
def execMovdStore (pfx : List Prefix) (dst : GpRm) (src : MmReg) (s : State) : Result State :=
  match dst with
  | .reg r => mmxToGp pfx (rmLength pfx 0) r (fun s => (s.mm src).extractLsb' 0 32) s
  | .mem m => mmxToMem pfx (rmLength pfx m.extra) m (fun s => toLe 4 (s.mm src).toNat) s

/-- MOVQ mm, mm/m64 (R203). -/
def execMovqLoad (pfx : List Prefix) (dst : MmReg) (src : MmRm) (s : State) : Result State :=
  mmxRm64 pfx dst src (fun _ v => v) s

/-- MOVQ mm/m64, mm (R204). -/
def execMovqStore (pfx : List Prefix) (dst : MmRm) (src : MmReg) (s : State) : Result State :=
  match dst with
  | .reg r => mmxToReg pfx (rmLength pfx 0) r (fun s => .next (s.mm src)) (fun _ v => v) s
  | .mem m => mmxToMem pfx (rmLength pfx m.extra) m (fun s => toLe 8 (s.mm src).toNat) s

end Sys2Proof.Machine
end

