-- ==== Sys2Proof/Machine/Dispatch.lean ====
section
/-! DEFINITION. The instructions' meanings, one arm each. -/

namespace Sys2Proof.Machine

def exec (i : Instr) (s : State) : Host.Outcome State Fault Refusal :=
  match i with
  | .punpcklbw pfx dst src => Sys2Proof.Machine.execPunpcklbw pfx dst src s
  | .punpcklwd pfx dst src => Sys2Proof.Machine.execPunpcklwd pfx dst src s
  | .punpckldq pfx dst src => Sys2Proof.Machine.execPunpckldq pfx dst src s
  | .packsswb pfx dst src => Sys2Proof.Machine.execPacksswb pfx dst src s
  | .pcmpgtb pfx dst src => Sys2Proof.Machine.execPcmpgtb pfx dst src s
  | .pcmpgtw pfx dst src => Sys2Proof.Machine.execPcmpgtw pfx dst src s
  | .pcmpgtd pfx dst src => Sys2Proof.Machine.execPcmpgtd pfx dst src s
  | .packuswb pfx dst src => Sys2Proof.Machine.execPackuswb pfx dst src s
  | .punpckhbw pfx dst src => Sys2Proof.Machine.execPunpckhbw pfx dst src s
  | .punpckhwd pfx dst src => Sys2Proof.Machine.execPunpckhwd pfx dst src s
  | .punpckhdq pfx dst src => Sys2Proof.Machine.execPunpckhdq pfx dst src s
  | .packssdw pfx dst src => Sys2Proof.Machine.execPackssdw pfx dst src s
  | .movdLoad pfx dst src => Sys2Proof.Machine.execMovdLoad pfx dst src s
  | .movqLoad pfx dst src => Sys2Proof.Machine.execMovqLoad pfx dst src s
  | .psrlwImm pfx dst imm => Sys2Proof.Machine.execPsrlwImm pfx dst imm s
  | .psrawImm pfx dst imm => Sys2Proof.Machine.execPsrawImm pfx dst imm s
  | .psllwImm pfx dst imm => Sys2Proof.Machine.execPsllwImm pfx dst imm s
  | .psrldImm pfx dst imm => Sys2Proof.Machine.execPsrldImm pfx dst imm s
  | .psradImm pfx dst imm => Sys2Proof.Machine.execPsradImm pfx dst imm s
  | .pslldImm pfx dst imm => Sys2Proof.Machine.execPslldImm pfx dst imm s
  | .psrlqImm pfx dst imm => Sys2Proof.Machine.execPsrlqImm pfx dst imm s
  | .psllqImm pfx dst imm => Sys2Proof.Machine.execPsllqImm pfx dst imm s
  | .pcmpeqb pfx dst src => Sys2Proof.Machine.execPcmpeqb pfx dst src s
  | .pcmpeqw pfx dst src => Sys2Proof.Machine.execPcmpeqw pfx dst src s
  | .pcmpeqd pfx dst src => Sys2Proof.Machine.execPcmpeqd pfx dst src s
  | .emms pfx => Sys2Proof.Machine.execEmms pfx s
  | .movdStore pfx dst src => Sys2Proof.Machine.execMovdStore pfx dst src s
  | .movqStore pfx dst src => Sys2Proof.Machine.execMovqStore pfx dst src s
  | .cpuid => Sys2Proof.Machine.execCpuid s
  | .psrlw pfx dst src => Sys2Proof.Machine.execPsrlw pfx dst src s
  | .psrld pfx dst src => Sys2Proof.Machine.execPsrld pfx dst src s
  | .psrlq pfx dst src => Sys2Proof.Machine.execPsrlq pfx dst src s
  | .pmullw pfx dst src => Sys2Proof.Machine.execPmullw pfx dst src s
  | .psubusb pfx dst src => Sys2Proof.Machine.execPsubusb pfx dst src s
  | .psubusw pfx dst src => Sys2Proof.Machine.execPsubusw pfx dst src s
  | .pand pfx dst src => Sys2Proof.Machine.execPand pfx dst src s
  | .paddusb pfx dst src => Sys2Proof.Machine.execPaddusb pfx dst src s
  | .paddusw pfx dst src => Sys2Proof.Machine.execPaddusw pfx dst src s
  | .pandn pfx dst src => Sys2Proof.Machine.execPandn pfx dst src s
  | .psraw pfx dst src => Sys2Proof.Machine.execPsraw pfx dst src s
  | .psrad pfx dst src => Sys2Proof.Machine.execPsrad pfx dst src s
  | .pmulhw pfx dst src => Sys2Proof.Machine.execPmulhw pfx dst src s
  | .psubsb pfx dst src => Sys2Proof.Machine.execPsubsb pfx dst src s
  | .psubsw pfx dst src => Sys2Proof.Machine.execPsubsw pfx dst src s
  | .por pfx dst src => Sys2Proof.Machine.execPor pfx dst src s
  | .paddsb pfx dst src => Sys2Proof.Machine.execPaddsb pfx dst src s
  | .paddsw pfx dst src => Sys2Proof.Machine.execPaddsw pfx dst src s
  | .pxor pfx dst src => Sys2Proof.Machine.execPxor pfx dst src s
  | .psllw pfx dst src => Sys2Proof.Machine.execPsllw pfx dst src s
  | .pslld pfx dst src => Sys2Proof.Machine.execPslld pfx dst src s
  | .psllq pfx dst src => Sys2Proof.Machine.execPsllq pfx dst src s
  | .pmaddwd pfx dst src => Sys2Proof.Machine.execPmaddwd pfx dst src s
  | .psubb pfx dst src => Sys2Proof.Machine.execPsubb pfx dst src s
  | .psubw pfx dst src => Sys2Proof.Machine.execPsubw pfx dst src s
  | .psubd pfx dst src => Sys2Proof.Machine.execPsubd pfx dst src s
  | .paddb pfx dst src => Sys2Proof.Machine.execPaddb pfx dst src s
  | .paddw pfx dst src => Sys2Proof.Machine.execPaddw pfx dst src s
  | .paddd pfx dst src => Sys2Proof.Machine.execPaddd pfx dst src s
  | .mov dst imm => Sys2Proof.Machine.execMov dst imm s
  | .test src imm => Sys2Proof.Machine.execTest src imm s
  | .jnz rel => Sys2Proof.Machine.execJnz rel s

end Sys2Proof.Machine
end

