-- ==== Sys2Proof/Machine/Fetch.lean ====
section
/-! DEFINITION. Fetching an instruction (10_state.md R48, 20_memory.md R73, R76, R87; 60_exceptions.md R309), and loading
a program from outside the machine. -/

namespace Sys2Proof.Machine

/-- A limit violation of a fetch is a refusal: a fetch that would cross the code-segment limit is refused (R48, D18). -/
def refuseAtLimit {α : Type} (x : Result α) : Result α :=
  match x with
  | .next a => .next a
  | .fault (.limitViolation _) => .refused .fetchBeyondSegmentLimit
  | .fault f => .fault f
  | .refused r => .refused r

/-- The physical address of the `k`-th byte from the pc on: through CS, below 2^32 and within the limit, as a read of one
byte. -/
def fetchAddr (s : State) (k : Nat) : Result Nat :=
  if 2 ^ 32 ≤ s.eip.toNat + k then .refused .fetchAcross4G
  else
    andThen (refuseAtLimit (translateBytes s .cs (s.eip + BitVec.ofNat 32 k) 1 .read)) fun addrs =>
    .next (addrs.headD 0)

/-- The `k`-th instruction byte: in the program text, or the fetch is refused (R48, R185). The text is physical addresses
(log 8), so an exception of `Translate` comes first, and whether the byte is text is not asked where one is raised. DESIGN
CHOICE (log 35), unsafe: R185 refuses a target outside the text, and R309 orders a fetch's exceptions against other
exceptions only. -/
def fetchByte (s : State) (k : Nat) : Result Byte :=
  andThen (fetchAddr s k) fun a =>
  if inText s a then .next (Memory.read s.mem a) else .refused (.fetchOutsideText a)

/-- The bytes from the `k`-th on, at most `n`, as far as they can be fetched, and what stopped the fetch. -/
def fetchBytes (s : State) : Nat → Nat → List Byte × Option (Fault ⊕ Refusal)
  | 0, _ => ([], none)
  | n + 1, k =>
    match fetchByte s k with
    | .next b => (b :: (fetchBytes s n (k + 1)).1, (fetchBytes s n (k + 1)).2)
    | .fault f => ([], some (.inl f))
    | .refused r => ([], some (.inr r))

/-- Every byte that can be fetched from the pc on. The fetch stops at 2^32 at the latest (`fetchAll_stops`). -/
def fetchAll (s : State) : List Byte × Option (Fault ⊕ Refusal) := fetchBytes s (2 ^ 32 + 1) 0

/-- The bytes at the pc: as many as the longest instruction has (R108), and where these do not show yet what stands there,
all there are. -/
def fetchWindow (s : State) : List Byte × Option (Fault ⊕ Refusal) :=
  match decode s.params.defaultAddrSize (fetchBytes s maxLength 0).1, (fetchBytes s maxLength 0).2 with
  | .truncated, none => fetchAll s
  | _, _ => fetchBytes s maxLength 0

/-- The instruction at the pc. Only the bytes it needs are asked for: a fetch that fails beyond them is not seen, and one
that fails among them comes before every other exception (R309). DESIGN CHOICE (log 20), unsafe: an MMX instruction of
more than 15 bytes (R108) is reported here, once its bytes are fetched, and so before its LOCK prefix, CR0.EM, CR0.TS or a
pending exception, against which R309 gives it no place, and before R10's refusal where `HasMMX` is false, against which
R108 gives it none. -/
def fetchInstr (s : State) : Result Instr :=
  match decode s.params.defaultAddrSize (fetchWindow s).1 with
  | .instr i _ => .next i
  | .hole => raise .invalidOpcode
  | .tooLong => raise (.memFault .instructionTooLong)
  | .prefixedBase => .refused .prefixOnBaseInstruction
  | .floatingPoint => .refused .floatingPointInstruction
  | .notInTable => .refused .notInOpcodeTable
  | .truncated =>
    match (fetchWindow s).2 with
    | some (.inl f) => raise f
    | some (.inr r) => .refused r
    -- not reached: `fetchAll` always stops
    | none => .refused .fetchAcross4G

/-- The run has ended (R357). -/
def atEnd (s : State) : Bool := s.params.endAddr == some s.eip

/-- The program that these bytes are, loaded from outside the machine where the next fetch reads: they stand at CS:EIP,
they are the program text, and the run ends after them (R357). Where CS:EIP cannot be fetched from, nothing changes. -/
def State.withProgram (s : State) (bytes : List Byte) : State :=
  match forEach (fetchAddr s) (List.range bytes.length) with
  | .next addrs =>
    { s with
      mem := Memory.writeAll s.mem addrs bytes
      params := { s.params with
        text := addrs.map fun a => ⟨a, a + 1⟩
        endAddr := some (s.eip + BitVec.ofNat 32 bytes.length) } }
  | _ => s

end Sys2Proof.Machine
end

