-- ==== Sys2Proof/Machine/Step.lean ====
section
/-! DEFINITION. One step: the instruction at the pc, fetched and executed (00_scope.md R25, 60_exceptions.md R309). -/

namespace Sys2Proof.Machine

/-- One step. At `EndAddr` the run has ended (R357). An instruction's own meaning moves the pc (R48). -/
def step (s : State) : Host.Outcome State Fault Refusal :=
  if atEnd s then .refused .endOfRun else andThen (fetchInstr s) fun i => exec i s

/-- The state with the instruction of a table word stored where the next fetch reads (log 8). -/
def State.withFetchWord (s : State) (nbits w : Nat) : State := s.withProgram (tableBytes nbits w)

end Sys2Proof.Machine
end

