-- ==== Sys2Proof/Machine/Host.lean ====
section
/-! DEFINITION. What the operating system, the host of 60_exceptions.md R320 to R324, does to the machine between steps,
and what floating-point code finds after MMX code (70_reset_and_hazards.md R350 to R354). None of it is part of `step`. -/

namespace Sys2Proof.Machine

/-! ### Task switches -/

/-- The context of a task (R56, R320, R322): the integer registers with the pc and the flags, and the floating-point
state, which is the MMX state (R323). That the pc, the flags, the floating-point instruction pointer and the pending
exception, which R56 does not name, belong to it is a DESIGN CHOICE (log 28). -/
structure Context where
  gpr : Vector DWord 8
  eip : DWord
  flags : Flags
  fpr : Vector FpReg 8
  tagWord : Word
  statusWord : Word
  controlWord : Word
  fpInstrPointer : BitVec 48
  fpExcPending : Bool
  deriving DecidableEq, Repr

/-- Saving a task's context (R56, R323). -/
def saveContext (s : State) : Context where
  gpr := s.gpr
  eip := s.eip
  flags := s.flags
  fpr := s.fpr
  tagWord := s.tagWord
  statusWord := s.statusWord
  controlWord := s.controlWord
  fpInstrPointer := s.fpInstrPointer
  fpExcPending := s.fpExcPending

/-- Restoring a task's context. -/
def restoreContext (c : Context) (s : State) : State :=
  { s with
    gpr := c.gpr, eip := c.eip, flags := c.flags, fpr := c.fpr, tagWord := c.tagWord, statusWord := c.statusWord
    controlWord := c.controlWord, fpInstrPointer := c.fpInstrPointer, fpExcPending := c.fpExcPending }

/-- A task switch of a preemptive operating system (R322): whatever the other tasks did to the context is undone. What is
no part of the context is as `others` leaves it, the parameters too, which R30 calls no state (another page of `Translate`,
say), and the model's `drawCount`: DESIGN CHOICE (log 28), safe. -/
def preemptiveSwitch (others : State → State) (s : State) : State := restoreContext (saveContext s) (others s)

/-- What a yield under a cooperative operating system may leave (R321): every floating-point and MMX register, the tag
word, the status word with TOS and the control word are draws. The floating-point instruction pointer and the pending
exception, which R321 does not name, are draws too: DESIGN CHOICE (log 28), safe. -/
def cooperativeYield (s : State) : State :=
  { s with
    fpr := Vector.ofFn fun i => Config.draw 80 (s.drawCount + i.val)
    tagWord := Config.draw 16 (s.drawCount + 8)
    statusWord := Config.draw 16 (s.drawCount + 9)
    controlWord := Config.draw 16 (s.drawCount + 10)
    fpInstrPointer := Config.draw 48 (s.drawCount + 11)
    fpExcPending := (Config.draw 1 (s.drawCount + 12)).getLsbD 0
    drawCount := s.drawCount + 13 }

/-- The task yields (R321, R322), as `OSKind` says (R14). -/
def yieldTask (others : State → State) (s : State) : State :=
  match s.params.osKind with
  | .preemptive => preemptiveSwitch others s
  | .cooperative => cooperativeYield s

/-! ### Exception handlers -/

/-- A step with the `Handler` parameter of R313: after an exception the handler runs on the faulted state, and the pc is
again at the faulting instruction (R314, R324). -/
def stepHandled (handler : Fault → State → State) (s : State) : Result State :=
  match step s with
  | .fault f => .next (returnFromException (handler f) f s)
  | o => o

/-! ### What floating-point code finds -/

/-- `ST(i)`: the physical register `(TOS + i) mod 8` (R35). -/
def State.st (s : State) (i : BitVec 3) : FpReg := s.fpr[(s.tos + i).toFin]

/-- Every tag is Valid: the floating-point stack seems full (R350). -/
def stackSeemsFull (s : State) : Bool := s.tagWord == tagsValid

/-- The exponent field, bits 78:64, is all ones: an infinity, a NaN or an unsupported encoding (R353). -/
def exponentAllOnes (v : FpReg) : Bool := v.extractLsb' 64 15 == BitVec.allOnes 15

/-- What the internal handler of a masked exception loads (R352): a draw with the exponent field all ones. -/
def softExceptionNan (n : Nat) : FpReg := Config.draw 80 n ||| (0x7FFF#80 <<< 64)

end Sys2Proof.Machine
end

