-- ==== Sys2Proof/Safety.lean ====
section
/-! DEFINITION. What counts as safe, in the terms claims use: when MMX instructions can run (70_reset_and_hazards.md R348),
when a state is fit for floating-point code (R341, R357), and the EMMS discipline of software (R341 to R344), which the
machine does not enforce. -/

namespace Sys2Proof.Machine

/-- MMX instructions are not turned away (R141 to R144 without the prefixes; R348): the technology is there, CR0.EM is
clear, CR0.TS is clear where it is modelled, and no floating-point exception is pending. -/
def mmxReady (s : State) : Bool :=
  s.params.hasMmx && !s.em && !(s.params.cr0TsModelled && s.ts) && !s.fpExcPending

/-- Floating-point code may follow: every tag is Empty (R324, R357). -/
def fitForFp (s : State) : Bool := s.tagWord == tagsEmpty

/-- EMMS, with any prefixes. -/
def isEmms : Instr → Bool
  | .emms _ => true
  | _ => false

/-- The EMMS discipline of a routine (R341): after its last MMX instruction other than EMMS there is an EMMS. -/
def endsWithEmms (code : List Instr) : Bool :=
  match (code.filter Instr.isMmx).getLast? with
  | none => true
  | some i => isEmms i

/-- The step answers a next state. -/
def Completes (s : State) : Prop := ∃ t, step s = .next t

end Sys2Proof.Machine
end

