-- ==== Sys2Proof/Certificates/Slice0/Obligations.lean ====
section
/-! DEFINITION. The statements. A state equation `t = s with …` says the frame too: every field it does not name is
unchanged, memory whole among them. -/

namespace Sys2Proof.Claims

open Sys2Proof.Machine

/-! ### The terms of the statements -/

/-- The state after an MMX instruction that writes neither a register nor memory, with this tag word: TOS is 0, the other
bits of the status word are kept, the pc is past the instruction (R146, R147, R149, R48). The sum is modulo 2^32: where it
wraps, that is the model's (log 25), and the step has refused the fetch unless the instruction ends exactly at 2^32. -/
def afterMmx (tags : Word) (i : Instr) (s : State) : State :=
  { s with
    tagWord := tags
    statusWord := s.statusWord &&& 0b1100011111111111
    eip := s.eip + BitVec.ofNat 32 (encode i).length }

/-- ... and `MM[dst] <- r`, with ones in the exponent part (R36, R148). -/
def mmWritten (dst : MmReg) (r : QWord) (i : Instr) (s : State) : State :=
  { afterMmx 0 i s with fpr := s.fpr.set dst.index (0xFFFF#16 ++ r) }

/-- ... and an integer register is written (R148). -/
def gpWritten (dst : Reg32) (v : DWord) (i : Instr) (s : State) : State :=
  { afterMmx 0 i s with gpr := s.gpr.set dst.index v }

/-- A 64-bit value is the eight bytes at the addresses, little endian (R72). -/
def bytesAt64 (s : State) (addrs : List Nat) (v : QWord) : Prop :=
  ∀ k, k < 8 → v.extractLsb' (8 * k) 8 = Memory.read s.mem (addrs.getD k 0)

/-- A 32-bit value is the four bytes at the addresses, little endian (R72). -/
def bytesAt32 (s : State) (addrs : List Nat) (v : DWord) : Prop :=
  ∀ k, k < 4 → v.extractLsb' (8 * k) 8 = Memory.read s.mem (addrs.getD k 0)

/-- `v` is the source `mm/m64`: the register, or the 8 bytes of memory that the operand is translated to (R118, R145). -/
def isSource64 (pfx : List Prefix) (src : MmRm) (s : State) (v : QWord) : Prop :=
  match src with
  | .reg r => v = (s.fpr[r.index]).extractLsb' 0 64
  | .mem m => ∃ addrs, translateBytes s (operandSeg pfx m) (m.ea s) 8 .read = .next addrs ∧ bytesAt64 s addrs v

/-- `v` is the source `mm/m32`: bits 31:0 of the register, or 4 bytes of memory (R118, R145). -/
def isSource32 (pfx : List Prefix) (src : MmRm) (s : State) (v : DWord) : Prop :=
  match src with
  | .reg r => v = (s.fpr[r.index]).extractLsb' 0 32
  | .mem m => ∃ addrs, translateBytes s (operandSeg pfx m) (m.ea s) 4 .read = .next addrs ∧ bytesAt32 s addrs v

/-- `v` is the source `r/m32`: the integer register, or 4 bytes of memory (R118, R145). -/
def isSourceGp (pfx : List Prefix) (src : GpRm) (s : State) (v : DWord) : Prop :=
  match src with
  | .reg r => v = s.gpr[r.index]
  | .mem m => ∃ addrs, translateBytes s (operandSeg pfx m) (m.ea s) 4 .read = .next addrs ∧ bytesAt32 s addrs v

/-- The common exceptions (R150, first four lines; R145 for a memory operand of `n` bytes): each one where its condition
holds and no earlier one does. -/
def commonExceptions (i : Instr) (n : Nat) (kind : AccessKind) : Prop :=
  ∀ s : State, s.params.hasMmx = true →
    (Prefix.lock ∈ i.prefixes ∨ s.em = true → exec i s = .fault .invalidOpcode) ∧
    (Prefix.lock ∉ i.prefixes → s.em = false → s.params.cr0TsModelled = true → s.ts = true →
      exec i s = .fault .deviceNotAvailable) ∧
    (Prefix.lock ∉ i.prefixes → s.em = false → (s.params.cr0TsModelled && s.ts) = false → s.fpExcPending = true →
      exec i s = .fault (.numericError s.params.numericErrorMode)) ∧
    (Prefix.lock ∉ i.prefixes → mmxReady s = true → ∀ m f, i.memRef = some m →
      translateBytes s (operandSeg i.prefixes m) (m.ea s) n kind = .fault f → exec i s = .fault f)

/-- The rule of an instruction `mm, mm/m64` of opcode `0F op /r`: its encoding, its exceptions, and that otherwise it
completes with a result `r` in its destination that stands in the relation `R d v r` to the old destination `d` and the
source `v`, and changes nothing else. -/
def rule64 (op : Byte) (mk : List Prefix → MmReg → MmRm → Instr) (R : QWord → QWord → QWord → Prop) : Prop :=
  ∀ (pfx : List Prefix) (dst : MmReg) (src : MmRm),
    encode (mk pfx dst src) = pfx.map Prefix.byte ++ 0x0F :: op :: src.field.bytes dst.num ∧
    commonExceptions (mk pfx dst src) 8 .read ∧
    ∀ (s : State) (v : QWord), mmxReady s = true → Prefix.lock ∉ pfx → isSource64 pfx src s v →
      ∃ r, exec (mk pfx dst src) s = .next (mmWritten dst r (mk pfx dst src) s) ∧
        R ((s.fpr[dst.index]).extractLsb' 0 64) v r

/-- The rule of an instruction `mm, mm/m32` of opcode `0F op /r`. -/
def rule32 (op : Byte) (mk : List Prefix → MmReg → MmRm → Instr) (R : QWord → DWord → QWord → Prop) : Prop :=
  ∀ (pfx : List Prefix) (dst : MmReg) (src : MmRm),
    encode (mk pfx dst src) = pfx.map Prefix.byte ++ 0x0F :: op :: src.field.bytes dst.num ∧
    commonExceptions (mk pfx dst src) 4 .read ∧
    ∀ (s : State) (v : DWord), mmxReady s = true → Prefix.lock ∉ pfx → isSource32 pfx src s v →
      ∃ r, exec (mk pfx dst src) s = .next (mmWritten dst r (mk pfx dst src) s) ∧
        R ((s.fpr[dst.index]).extractLsb' 0 64) v r

/-- The rule of an instruction `mm, imm8` of opcode `0F op /ext ib` (R281). -/
def ruleImm (op : Byte) (ext : BitVec 3) (mk : List Prefix → MmReg → Byte → Instr) (R : QWord → Nat → QWord → Prop) :
    Prop :=
  ∀ (pfx : List Prefix) (dst : MmReg) (imm : Byte),
    encode (mk pfx dst imm) = pfx.map Prefix.byte ++ [0x0F, op, 0b11#2 ++ ext ++ dst.num, imm] ∧
    commonExceptions (mk pfx dst imm) 0 .read ∧
    ∀ s : State, mmxReady s = true → Prefix.lock ∉ pfx →
      ∃ r, exec (mk pfx dst imm) s = .next (mmWritten dst r (mk pfx dst imm) s) ∧
        R ((s.fpr[dst.index]).extractLsb' 0 64) imm.toNat r

/-- Both forms of a shift, with one relation of the old destination, the count and the result (R281). -/
def ruleShift (op opImm : Byte) (ext : BitVec 3) (mk : List Prefix → MmReg → MmRm → Instr)
    (mkImm : List Prefix → MmReg → Byte → Instr) (R : QWord → Nat → QWord → Prop) : Prop :=
  rule64 op mk (fun d v r => R d v.toNat r) ∧ ruleImm opImm ext mkImm R

/-- A relation lane by lane, bytes. -/
def eachByte (R : Byte → Byte → Byte → Prop) (d v r : QWord) : Prop :=
  ∀ i, i < 8 → R (byteOf d i) (byteOf v i) (byteOf r i)

/-- A relation lane by lane, words. -/
def eachWord (R : Word → Word → Word → Prop) (d v r : QWord) : Prop :=
  ∀ i, i < 4 → R (wordOf d i) (wordOf v i) (wordOf r i)

/-- A relation lane by lane, doublewords. -/
def eachDword (R : DWord → DWord → DWord → Prop) (d v r : QWord) : Prop :=
  ∀ i, i < 2 → R (dwordOf d i) (dwordOf v i) (dwordOf r i)

/-- Clamped to the signed range of `n` bits (R20, `sat_s8` and `sat_s16`). -/
def isSatSigned {n : Nat} (x : Int) (r : BitVec n) : Prop := r.toInt = max (-2 ^ (n - 1)) (min (2 ^ (n - 1) - 1) x)

/-- Clamped to the unsigned range of `n` bits (R20, `sat_u8` and `sat_u16`). -/
def isSatUnsigned {n : Nat} (x : Int) (r : BitVec n) : Prop := (r.toNat : Int) = max 0 (min (2 ^ n - 1) x)

/-- The exact integer modulo `2^n` (R20, `trunc`). -/
def isTrunc {n : Nat} (x : Int) (r : BitVec n) : Prop := (r.toNat : Int) = x % 2 ^ n

/-- All ones where the relation holds, else all zeros (R260). -/
def isMask {n : Nat} (holds : Prop) (r : BitVec n) : Prop := (holds → r.toInt = -1) ∧ (¬holds → r.toInt = 0)

/-- A lane shifted left by `c` with zeros (R280, R281). -/
def isShiftLeft {n : Nat} (a : BitVec n) (c : Nat) (r : BitVec n) : Prop := r.toNat = a.toNat * 2 ^ c % 2 ^ n

/-- A lane shifted right by `c` with zeros: the unsigned quotient (R280, R281). -/
def isShiftRight {n : Nat} (a : BitVec n) (c : Nat) (r : BitVec n) : Prop := r.toNat = a.toNat / 2 ^ c

/-- A lane shifted right by `c` with its sign: the floor of the signed quotient (R280, R281). -/
def isShiftArith {n : Nat} (a : BitVec n) (c : Nat) (r : BitVec n) : Prop := r.toInt = a.toInt / 2 ^ c

/-- What a store of the low `n` bytes of `v` at the addresses leaves in memory: every other byte as it was, and at each
address its byte (R73, R151). Where `Translate` gives one address for two bytes of the operand, nothing is said of which
of the two stands there (log 33). -/
def isStored (s : State) (addrs : List Nat) (n : Nat) (v : QWord) (mem : List Host.Cell) : Prop :=
  (∀ a, a ∉ addrs → Memory.read mem a = Memory.read s.mem a) ∧
  (Memory.wf s.mem = true → Memory.wf mem = true ∧ ∀ k, k < n →
    (∀ j, j < n → j ≠ k → addrs.getD j 0 ≠ addrs.getD k 0) → Memory.read mem (addrs.getD k 0) = byteOf v k)

/-- A store of the low `n` bytes of `v` into a memory operand: it completes where every byte is translated and none of
them is program text, and is refused where one is (R87). -/
def storesTo (i : Instr) (m : MemRef) (n : Nat) (value : State → QWord) : Prop :=
  ∀ (s : State) (addrs : List Nat), mmxReady s = true → Prefix.lock ∉ i.prefixes →
    translateBytes s (operandSeg i.prefixes m) (m.ea s) n .write = .next addrs →
      ((∀ a ∈ addrs, inText s a = false) →
        ∃ mem, exec i s = .next { afterMmx 0 i s with mem := mem } ∧ isStored s addrs n (value s) mem) ∧
      ((∃ a ∈ addrs, inText s a = true) →
        ∃ a ∈ addrs, inText s a = true ∧ exec i s = .refused (.storeIntoText a))

/-- One result is the other with the pc of the next state `n` further on. -/
def shiftedBy (n : Nat) (x y : Result State) : Prop :=
  match x with
  | .next t => y = .next { t with eip := t.eip + BitVec.ofNat 32 n }
  | .fault f => y = .fault f
  | .refused r => y = .refused r

/-- An MMX instruction as a function of the prefixes in front of it: a row of the opcode map with its operands (R118). -/
def isMmxBody (mk : List Prefix → Instr) : Prop :=
  (∃ row ∈ mmRows, ∃ r rm, mk = fun pfx => row.2 pfx r rm) ∨
  (∃ row ∈ gpRows, ∃ r rm, mk = fun pfx => row.2 pfx r rm) ∨
  (∃ row ∈ shiRows, ∃ r imm, mk = fun pfx => row.2 pfx r imm) ∨
  mk = Instr.emms

/-- The bytes from the pc on, as far as they are fetched, are these (R48, R73, R76). -/
def fetches (s : State) (bytes : List Byte) : Prop := ∀ k, k < bytes.length → fetchByte s k = .next (bytes.getD k 0)

/-- The displacement of a 32-bit form as a number: 8 bits are read as signed (R113). -/
def disp32 : Disp32 → Int
  | .absent => 0
  | .d8 d => d.toInt
  | .d32 d => d.toNat

/-- The displacement of a 16-bit form as a number: 8 bits are read as signed (R113). -/
def disp16 : Disp16 → Int
  | .absent => 0
  | .d8 d => d.toInt
  | .d16 d => d.toNat

/-- The registers of the 16-bit forms, added as numbers: modulo 2^16 their low halves add to the same (R113). -/
def base16 (s : State) : Rm16 → Int
  | .bxsi => (s.x .ebx).toNat + (s.x .esi).toNat
  | .bxdi => (s.x .ebx).toNat + (s.x .edi).toNat
  | .bpsi => (s.x .ebp).toNat + (s.x .esi).toNat
  | .bpdi => (s.x .ebp).toNat + (s.x .edi).toNat
  | .si => (s.x .esi).toNat
  | .di => (s.x .edi).toNat
  | .bp => (s.x .ebp).toNat
  | .bx => (s.x .ebx).toNat

/-- The bytes after the prefixes are one of the holes that R120 lists. -/
def isHole (h : List Byte) : Prop :=
  (∃ op ∈ ([0x6C, 0x6D, 0x70, 0x78, 0x79, 0x7A, 0x7B, 0x7C, 0x7D, 0xD0, 0xD4, 0xD6, 0xD7, 0xDA, 0xDE, 0xE0, 0xE3, 0xE4,
      0xE6, 0xE7, 0xEA, 0xEE, 0xF0, 0xF4, 0xF6, 0xF7, 0xFB, 0xFF] : List Byte), h = [0x0F, op]) ∨
  (∃ op m : Byte, h = [0x0F, op, m] ∧
    (((op = 0x71 ∨ op = 0x72) ∧ (m.extractLsb' 6 2 ≠ 3 ∨ m.extractLsb' 3 3 ∈ [0#3, 1#3, 3#3, 5#3, 7#3])) ∨
      (op = 0x73 ∧ (m.extractLsb' 6 2 ≠ 3 ∨ m.extractLsb' 3 3 ∈ [0#3, 1#3, 3#3, 4#3, 5#3, 7#3]))))

end Sys2Proof.Claims

open Sys2Proof Sys2Proof.Machine Sys2Proof.Claims


/-! ### Encoding -/

/-- Decoding an encoded instruction gives it back, whatever follows it: no bit of an encoding is dropped (30_encoding.md
R108 to R118). -/
def Obligations.DecodeOfEncode : Prop :=
  ∀ (dflt : AddrSize) (i : Instr) (rest : List Byte), i.wellFormed dflt = true →
    decode dflt (encode i ++ rest) = .instr i rest

/-- What the decoder accepts is an encoding of a well-formed instruction: each byte string has one meaning. -/
def Obligations.EncodeOfDecode : Prop :=
  ∀ (dflt : AddrSize) (bs : List Byte) (i : Instr) (rest : List Byte), decode dflt bs = .instr i rest →
    i.wellFormed dflt = true ∧ bs = encode i ++ rest

/-- The length of R117 is the number of encoded bytes, and a well-formed instruction has between 1 and 15 (R110). -/
def Obligations.EncodedLength : Prop :=
  ∀ i : Instr, (encode i).length = i.length ∧
    (∀ dflt, i.wellFormed dflt = true → 1 ≤ (encode i).length ∧ (encode i).length ≤ 15)

/-- Words written out from the encoding tables decode to the instructions they stand for (R113, R117, R118, and the
examples of the instructions' rules). -/
def Obligations.KnownWordsDecode : Prop :=
  decode .a32 [0x0F, 0x77] = .instr (.emms []) [] ∧
  decode .a32 [0x0F, 0x6F, 0xC1] = .instr (.movqLoad [] .mm0 (.reg .mm1)) [] ∧
  decode .a32 [0x0F, 0x6F, 0x05, 0x00, 0x10, 0x00, 0x00] = .instr (.movqLoad [] .mm0 (.mem (.abs32 0x1000))) [] ∧
  decode .a32 [0x67, 0x0F, 0x6F, 0x06, 0x00, 0x10] = .instr (.movqLoad [.addrSize] .mm0 (.mem (.abs16 0x1000))) [] ∧
  decode .a32 [0x0F, 0x71, 0xD0, 0x04] = .instr (.psrlwImm [] .mm0 4) [] ∧
  decode .a32 [0x0F, 0x6E, 0xC8] = .instr (.movdLoad [] .mm1 (.reg .eax)) [] ∧
  decode .a32 [0x0F, 0x7E, 0xD3] = .instr (.movdStore [] (.reg .ebx) .mm2) [] ∧
  decode .a32 [0x26, 0x0F, 0x7F, 0x54, 0x88, 0xFC] =
    .instr (.movqStore [.segment .es] (.mem (.sib 2 .ecx .eax (.d8 0xFC))) .mm2) [] ∧
  decode .a32 [0x0F, 0xA2] = .instr .cpuid [] ∧
  decode .a32 [0xB8, 0x01, 0x00, 0x00, 0x00] = .instr (.mov .eax 1) [] ∧
  decode .a32 [0xF7, 0xC2, 0x00, 0x00, 0x80, 0x00] = .instr (.test .edx 0x00800000) [] ∧
  decode .a32 [0x75, 0x05] = .instr (.jnz 0x05) []

/-- The holes of R120: `InvalidOpcode` where the pc stands at one. That prefixes in front make no difference, however
many they are, is the model's reading (log 23). -/
def Obligations.HolesRaiseInvalidOpcode : Prop :=
  ∀ (dflt : AddrSize) (pfx : List Prefix) (h rest : List Byte), isHole h →
    decode dflt (pfx.map Prefix.byte ++ h ++ rest) = .hole ∧
    ∀ s : State, s.params.endAddr ≠ some s.eip → s.params.defaultAddrSize = dflt →
      fetches s (pfx.map Prefix.byte ++ h) → step s = .fault .invalidOpcode

/-- An MMX instruction longer than 15 bytes is `MemFault(InstructionTooLong)` (R108), once its bytes are fetched: R108
gives no order against a failure of that fetch, against the instruction's own checks or against R10's refusal where
`HasMMX` is false, and the model's order is its choice (log 20). -/
def Obligations.TooLongInstructionFaults : Prop :=
  ∀ (s : State) (i : Instr), 15 < (encode i).length → i.memRef.all (MemRef.wellFormed
      (effAddrSize s.params.defaultAddrSize i.prefixes)) = true → s.params.endAddr ≠ some s.eip →
    fetches s (encode i) → step s = .fault (.memFault .instructionTooLong)

/-- CPUID, MOV, TEST and JNZ are admitted only without a prefix, however many prefixes there are (R109). -/
def Obligations.PrefixOnBaseInstructionRefused : Prop :=
  ∀ (s : State) (i : Instr) (p : Prefix) (pfx : List Prefix), i.isMmx = false → s.params.endAddr ≠ some s.eip →
    fetches s ((p :: pfx).map Prefix.byte ++ encode i) → step s = .refused .prefixOnBaseInstruction

/-! ### The step -/

/-- The bytes of a well-formed instruction at the pc: the step is that instruction's `exec`, which moves the pc itself
(R25, R48). -/
def Obligations.StepRunsTheInstructionAtThePc : Prop :=
  ∀ (s : State) (i : Instr), i.wellFormed s.params.defaultAddrSize = true → s.params.endAddr ≠ some s.eip →
    fetches s (encode i) → step s = exec i s

/-- One byte is fetched through CS, below 2^32, from the program text (R48, R76, R87). -/
def Obligations.FetchReadsTheProgramText : Prop :=
  ∀ (s : State) (k : Nat) (b : Byte), fetchByte s k = .next b ↔
    s.eip.toNat + k < 2 ^ 32 ∧ ∃ a, translateBytes s .cs (s.eip + BitVec.ofNat 32 k) 1 .read = .next [a] ∧
      inText s a = true ∧ b = Memory.read s.mem a

/-- An exception of the fetch of one of an instruction's own bytes comes before everything else (R309, last sentence). That
it comes before the refusal of a byte outside the program text too (R48, R185) is the model's choice (log 35). -/
def Obligations.FetchFaultComesFirst : Prop :=
  ∀ (s : State) (i : Instr) (k : Nat) (f : Fault), i.wellFormed s.params.defaultAddrSize = true →
    s.params.endAddr ≠ some s.eip → k < (encode i).length → fetches s ((encode i).take k) →
    fetchByte s k = .fault f → step s = .fault f

/-- A fetch that would cross 2^32 or the code-segment limit is refused (R48). -/
def Obligations.FetchAcrossTheEndRefused : Prop :=
  ∀ (s : State) (i : Instr) (k : Nat), i.wellFormed s.params.defaultAddrSize = true →
    s.params.endAddr ≠ some s.eip → k < (encode i).length → fetches s ((encode i).take k) →
    (2 ^ 32 ≤ s.eip.toNat + k → step s = .refused .fetchAcross4G) ∧
    (∀ g, s.eip.toNat + k < 2 ^ 32 → linearOf s .cs .read (s.eip.toNat + k) = .fault (.limitViolation g) →
      step s = .refused .fetchBeyondSegmentLimit)

/-! ### Reset and what every step keeps -/

/-- The state after reset. The spec gives no reset value: these are the model's choice, the family's values (R60, log 3),
with no program text and memory in its canonical form (log 4, log 8). -/
def Obligations.ResetState : Prop :=
  State.reset.eip = 0xFFF0 ∧ State.reset.selector .cs = 0xF000 ∧ (∀ r, r ≠ .edx → State.reset.x r = 0) ∧
  (∀ r, State.reset.fp r = 0) ∧ (∀ r, State.reset.tag r = 0b01) ∧ State.reset.tos = 0 ∧
  State.reset.controlWord = 0x0040 ∧ State.reset.fpInstrPointer = 0 ∧ State.reset.em = false ∧ State.reset.ts = false ∧
  State.reset.fpExcPending = false ∧ State.reset.ferr = false ∧ (∀ a, inText State.reset a = false) ∧
  mmxReady State.reset = true

/-- Memory is in its canonical form after reset. -/
def Obligations.ResetMemoryCanonical : Prop := Memory.wf State.reset.mem = true

/-- Every step keeps memory in its canonical form. -/
def Obligations.StepKeepsMemoryCanonical : Prop :=
  ∀ s t : State, Memory.wf s.mem = true → step s = .next t → Memory.wf t.mem = true

/-- Every step keeps the program: the text is where it was and holds the bytes it held (R87). -/
def Obligations.StepKeepsTheProgram : Prop :=
  ∀ s t : State, step s = .next t → t.params = s.params ∧
    ∀ a, inText s a = true → inText t a = true ∧ Memory.read t.mem a = Memory.read s.mem a

/-- No instruction writes what belongs to the operating system or to the platform: the parameters, CR0, CR2, the segment
registers, the control word, the floating-point instruction pointer, the pending exception, FERR#, and the status word
but for TOS (R149, R318). -/
def Obligations.StepKeepsHostState : Prop :=
  ∀ s t : State, step s = .next t →
    t.params = s.params ∧ t.cr0 = s.cr0 ∧ t.cr2 = s.cr2 ∧ t.seg = s.seg ∧ t.controlWord = s.controlWord ∧
    t.fpInstrPointer = s.fpInstrPointer ∧ t.fpExcPending = s.fpExcPending ∧ t.ferr = s.ferr ∧
    ∀ k, k < 11 ∨ 13 < k → t.statusWord.getLsbD k = s.statusWord.getLsbD k

/-- What a step does to memory: a byte changes only where the instruction that the pc stands at stores (R77, R84). -/
def Obligations.StepWritesOnlyStoredBytes : Prop :=
  ∀ (s t : State) (i : Instr), fetchInstr s = .next i → step s = .next t → ∀ a,
    Memory.read t.mem a ≠ Memory.read s.mem a →
      ∃ m n addrs, i.storeDst = some (m, n) ∧
        translateBytes s (operandSeg i.prefixes m) (m.ea s) n .write = .next addrs ∧ a ∈ addrs

/-! ### Every MMX instruction -/

/-- Every MMX instruction other than EMMS that completes sets every tag to Valid; EMMS sets every tag to Empty (R146). -/
def Obligations.MmxInstructionsSetTheTagWord : Prop :=
  ∀ (i : Instr) (s t : State), i.isMmx = true → exec i s = .next t →
    (isEmms i = false → t.tagWord = 0x0000 ∧ ∀ r, t.tag r = 0b00) ∧
    (isEmms i = true → t.tagWord = 0xFFFF ∧ ∀ r, t.tag r = 0b11)

/-- Every MMX instruction that completes, EMMS too, sets TOS to 0 and no other field of the status word (R147). -/
def Obligations.MmxInstructionsClearTos : Prop :=
  ∀ (i : Instr) (s t : State), i.isMmx = true → exec i s = .next t →
    t.tos = 0 ∧ ∀ k, k < 11 ∨ 13 < k → t.statusWord.getLsbD k = s.statusWord.getLsbD k

/-- The destination register gets ones in its exponent part, and no other physical register changes; where no MMX
register is written, none changes (R36, R148). -/
def Obligations.ExponentPartsOnlyOfTheDestination : Prop :=
  ∀ (i : Instr) (s t : State), i.isMmx = true → exec i s = .next t → ∀ r,
    (i.mmDst = some r → t.exponentPart r = 0xFFFF) ∧ (i.mmDst ≠ some r → t.fp r = s.fp r)

/-- What an MMX instruction does not write (R149), and where the pc goes (R48): the control word, the status word but for
TOS, the floating-point instruction pointer, CR0, CR2, the pending exception, FERR#, the flags, the segment registers, the integer registers but for the
destination of MOVD, and every byte of memory where it has no memory destination. -/
def Obligations.MmxInstructionsFrame : Prop :=
  ∀ (i : Instr) (s t : State), i.isMmx = true → exec i s = .next t →
    t.controlWord = s.controlWord ∧ (∀ k, k < 11 ∨ 13 < k → t.statusWord.getLsbD k = s.statusWord.getLsbD k) ∧
    t.fpInstrPointer = s.fpInstrPointer ∧ t.cr0 = s.cr0 ∧ t.cr2 = s.cr2 ∧
    t.fpExcPending = s.fpExcPending ∧ t.ferr = s.ferr ∧ t.flags = s.flags ∧
    t.seg = s.seg ∧ (∀ r, i.gpDst ≠ some r → t.x r = s.x r) ∧
    (i.storeDst = none → ∀ a, Memory.read t.mem a = Memory.read s.mem a) ∧
    t.eip = s.eip + BitVec.ofNat 32 (encode i).length

/-- The checks before an MMX instruction, in their order (R141 to R144): LOCK, CR0.EM, CR0.TS, a pending exception. -/
def Obligations.MmxChecksInOrder : Prop :=
  ∀ (i : Instr) (s : State), i.isMmx = true → s.params.hasMmx = true →
    (Prefix.lock ∈ i.prefixes → exec i s = .fault .invalidOpcode) ∧
    (s.em = true → exec i s = .fault .invalidOpcode) ∧
    (Prefix.lock ∉ i.prefixes → s.em = false → s.params.cr0TsModelled = true → s.ts = true →
      exec i s = .fault .deviceNotAvailable) ∧
    (Prefix.lock ∉ i.prefixes → s.em = false → (s.params.cr0TsModelled && s.ts) = false → s.fpExcPending = true →
      exec i s = .fault (.numericError s.params.numericErrorMode))

/-- An MMX instruction raises exactly these exceptions (R300, R153): those of the checks, each only under its own
condition, and those of its memory operand; nothing it computes raises one. -/
def Obligations.MmxExceptionsOnly : Prop :=
  ∀ (i : Instr) (s : State) (f : Fault), i.isMmx = true → exec i s = .fault f →
    (f = .invalidOpcode ∧ (Prefix.lock ∈ i.prefixes ∨ s.em = true)) ∨
    (f = .deviceNotAvailable ∧ s.params.cr0TsModelled = true ∧ s.ts = true ∧ s.em = false) ∨
    (f = .numericError s.params.numericErrorMode ∧ s.fpExcPending = true) ∨
    (∃ m n k, i.memRef = some m ∧ (n = 4 ∨ n = 8) ∧ translateBytes s (operandSeg i.prefixes m) (m.ea s) n k = .fault f)

/-- A processor without the technology: every MMX instruction is refused, and the base instructions run (R10). -/
def Obligations.NoMmxTechnologyRefused : Prop :=
  ∀ (i : Instr) (s : State), s.params.hasMmx = false →
    (i.isMmx = true → exec i s = .refused .noMmxTechnology) ∧ (i.isMmx = false → ∃ t, exec i s = .next t)

/-- The operand-size and repeat prefixes are ignored by every MMX instruction: the same operation, the length one more
(R104, R106). -/
def Obligations.OperandSizeAndRepeatIgnored : Prop :=
  ∀ (mk : List Prefix → Instr) (p q : List Prefix) (x : Prefix) (s : State), isMmxBody mk →
    (x = .opSize ∨ x = .rep ∨ x = .repne) → shiftedBy 1 (exec (mk (p ++ q)) s) (exec (mk (p ++ x :: q)) s)

/-- Where there is no memory operand, the address-size and segment-override prefixes are ignored too (R103, R105). -/
def Obligations.PrefixesIgnoredWithoutMemoryOperand : Prop :=
  ∀ (mk : List Prefix → Instr) (p q : List Prefix) (x : Prefix) (s : State), isMmxBody mk →
    (mk []).memRef = none → x ≠ .lock → shiftedBy 1 (exec (mk (p ++ q)) s) (exec (mk (p ++ x :: q)) s)

/-- The segment of a memory operand is the last override read, else the default (R105, R108), which is SS where the base
register is EBP or ESP, or BP in a 16-bit form, and DS otherwise (R115); and 67H, once or more, selects the address size
that is not the default (R103, R108). -/
def Obligations.PrefixesInForce : Prop :=
  ∀ (p q : List Prefix) (m : MemRef),
    ((∀ g, Prefix.segment g ∉ p) → operandSeg p m = m.defaultSeg) ∧
    (∀ g, (∀ h, Prefix.segment h ∉ q) → operandSeg (p ++ Prefix.segment g :: q) m = g) ∧
    (∀ b d, (MemRef.base b d).defaultSeg = if b = .ebp ∨ b = .esp then .ss else .ds) ∧
    (∀ d, (MemRef.abs32 d).defaultSeg = .ds) ∧
    (∀ sc x b d, (MemRef.sib sc x b d).defaultSeg = if b = .ebp ∨ b = .esp then .ss else .ds) ∧
    (∀ sc x d, (MemRef.sibAbs sc x d).defaultSeg = .ds) ∧
    (∀ rm d, (rm = .bp → d ≠ .absent) → (MemRef.base16 rm d).defaultSeg =
      if rm = .bpsi ∨ rm = .bpdi ∨ rm = .bp then .ss else .ds) ∧
    (∀ d, (MemRef.abs16 d).defaultSeg = .ds) ∧
    (Prefix.addrSize ∉ p → effAddrSize .a32 p = .a32 ∧ effAddrSize .a16 p = .a16) ∧
    (Prefix.addrSize ∈ p → effAddrSize .a32 p = .a16 ∧ effAddrSize .a16 p = .a32)

/-- The effective address (R113), as numbers, of every form: modulo 2^32, or modulo 2^16 with the registers' low halves,
a displacement of 8 bits read as signed; index ESP is none, whatever the scale. -/
def Obligations.EffectiveAddresses : Prop :=
  ∀ (s : State) (b x : Reg32) (sc : BitVec 2) (d : Disp32) (d32 : DWord) (rm : Rm16) (d' : Disp16) (d16 : Word),
    (((MemRef.base b d).ea s).toNat : Int) = ((s.x b).toNat + disp32 d) % 2 ^ 32 ∧
    (MemRef.abs32 d32).ea s = d32 ∧
    (x ≠ .esp → (((MemRef.sib sc x b d).ea s).toNat : Int) =
      ((s.x b).toNat + (s.x x).toNat * 2 ^ sc.toNat + disp32 d) % 2 ^ 32) ∧
    (((MemRef.sib sc .esp b d).ea s).toNat : Int) = ((s.x b).toNat + disp32 d) % 2 ^ 32 ∧
    (x ≠ .esp → ((MemRef.sibAbs sc x d32).ea s).toNat = (d32.toNat + (s.x x).toNat * 2 ^ sc.toNat) % 2 ^ 32) ∧
    (MemRef.sibAbs sc .esp d32).ea s = d32 ∧
    (((MemRef.base16 rm d').ea s).toNat : Int) = (base16 s rm + disp16 d') % 2 ^ 16 ∧
    ((MemRef.abs16 d16).ea s).toNat = d16.toNat

/-- What floating-point code finds after an MMX instruction other than EMMS (R350, R353, R354): no register is empty, a
register that was written has an exponent field of ones, and `ST(i)` is physical register `i`; after EMMS every register
is empty (R324). And what the masked exception of R352 loads has an exponent field of ones. -/
def Obligations.FloatingPointCodeFinds : Prop :=
  (∀ (i : Instr) (s t : State), i.isMmx = true → exec i s = .next t →
    (isEmms i = false → stackSeemsFull t = true ∧ fitForFp t = false) ∧ (isEmms i = true → fitForFp t = true) ∧
    (∀ r, i.mmDst = some r → exponentAllOnes (t.fp r) = true) ∧ ∀ k : BitVec 3, t.st k = t.fpr[k.toFin]) ∧
  ∀ n, exponentAllOnes (softExceptionNan n) = true

/-! ### EMMS -/

/-- EMMS (R171). -/
def Obligations.EmmsEmptiesTheTagWord : Prop :=
  ∀ pfx : List Prefix,
    encode (.emms pfx) = pfx.map Prefix.byte ++ [0x0F, 0x77] ∧ commonExceptions (.emms pfx) 0 .read ∧
    (∀ s f, exec (.emms pfx) s = .fault f →
      f = .invalidOpcode ∨ f = .deviceNotAvailable ∨ f = .numericError s.params.numericErrorMode) ∧
    ∀ s : State, mmxReady s = true → Prefix.lock ∉ pfx →
      exec (.emms pfx) s = .next (afterMmx 0xFFFF (.emms pfx) s) ∧
      (afterMmx 0xFFFF (.emms pfx) s).tos = 0 ∧ (∀ r, (afterMmx 0xFFFF (.emms pfx) s).tag r = 0b11) ∧
      (∀ r, (afterMmx 0xFFFF (.emms pfx) s).fp r = s.fp r)

/-! ### Transfers -/

/-- MOVD to an MMX register (R201). -/
def Obligations.MovdLoad : Prop :=
  ∀ (pfx : List Prefix) (dst : MmReg) (src : GpRm),
    encode (.movdLoad pfx dst src) = pfx.map Prefix.byte ++ 0x0F :: 0x6E :: src.field.bytes dst.num ∧
    commonExceptions (.movdLoad pfx dst src) 4 .read ∧
    ∀ (s : State) (v : DWord), mmxReady s = true → Prefix.lock ∉ pfx → isSourceGp pfx src s v →
      exec (.movdLoad pfx dst src) s = .next (mmWritten dst (0#32 ++ v) (.movdLoad pfx dst src) s)

/-- MOVD from an MMX register (R202). -/
def Obligations.MovdStore : Prop :=
  ∀ (pfx : List Prefix) (dst : GpRm) (src : MmReg),
    encode (.movdStore pfx dst src) = pfx.map Prefix.byte ++ 0x0F :: 0x7E :: dst.field.bytes src.num ∧
    commonExceptions (.movdStore pfx dst src) 4 .write ∧
    (∀ r, dst = .reg r → ∀ s : State, mmxReady s = true → Prefix.lock ∉ pfx →
      exec (.movdStore pfx dst src) s =
        .next (gpWritten r ((s.fpr[src.index]).extractLsb' 0 32) (.movdStore pfx dst src) s)) ∧
    (∀ m, dst = .mem m → storesTo (.movdStore pfx dst src) m 4 fun s => s.mm src)

/-- MOVQ to an MMX register (R203). -/
def Obligations.MovqLoad : Prop := rule64 0x6F .movqLoad fun _ v r => r = v

/-- MOVQ from an MMX register (R204). -/
def Obligations.MovqStore : Prop :=
  ∀ (pfx : List Prefix) (dst : MmRm) (src : MmReg),
    encode (.movqStore pfx dst src) = pfx.map Prefix.byte ++ 0x0F :: 0x7F :: dst.field.bytes src.num ∧
    commonExceptions (.movqStore pfx dst src) 8 .write ∧
    (∀ r, dst = .reg r → ∀ s : State, mmxReady s = true → Prefix.lock ∉ pfx →
      exec (.movqStore pfx dst src) s =
        .next (mmWritten r ((s.fpr[src.index]).extractLsb' 0 64) (.movqStore pfx dst src) s)) ∧
    (∀ m, dst = .mem m → storesTo (.movqStore pfx dst src) m 8 fun s => s.mm src)

/-! ### Pack and unpack -/

/-- PACKSSWB, PACKSSDW and PACKUSWB (R211, R212, R213). -/
def Obligations.PackInstructions : Prop :=
  rule64 0x63 .packsswb (fun d v r => ∀ i, i < 4 →
    isSatSigned (wordOf d i).toInt (byteOf r i) ∧ isSatSigned (wordOf v i).toInt (byteOf r (4 + i))) ∧
  rule64 0x6B .packssdw (fun d v r => ∀ i, i < 2 →
    isSatSigned (dwordOf d i).toInt (wordOf r i) ∧ isSatSigned (dwordOf v i).toInt (wordOf r (2 + i))) ∧
  rule64 0x67 .packuswb (fun d v r => ∀ i, i < 4 →
    isSatUnsigned (wordOf d i).toInt (byteOf r i) ∧ isSatUnsigned (wordOf v i).toInt (byteOf r (4 + i)))

/-- PUNPCKHBW, PUNPCKHWD and PUNPCKHDQ (R215, R216, R217). -/
def Obligations.UnpackHighInstructions : Prop :=
  rule64 0x68 .punpckhbw (fun d v r => ∀ i, i < 4 →
    byteOf r (2 * i) = byteOf d (4 + i) ∧ byteOf r (2 * i + 1) = byteOf v (4 + i)) ∧
  rule64 0x69 .punpckhwd (fun d v r => ∀ i, i < 2 →
    wordOf r (2 * i) = wordOf d (2 + i) ∧ wordOf r (2 * i + 1) = wordOf v (2 + i)) ∧
  rule64 0x6A .punpckhdq (fun d v r => dwordOf r 0 = dwordOf d 1 ∧ dwordOf r 1 = dwordOf v 1)

/-- PUNPCKLBW, PUNPCKLWD and PUNPCKLDQ (R218, R219, R220): 32 bits of the source. -/
def Obligations.UnpackLowInstructions : Prop :=
  rule32 0x60 .punpcklbw (fun d v r => ∀ i, i < 4 →
    byteOf r (2 * i) = byteOf d i ∧ byteOf r (2 * i + 1) = v.extractLsb' (8 * i) 8) ∧
  rule32 0x61 .punpcklwd (fun d v r => ∀ i, i < 2 →
    wordOf r (2 * i) = wordOf d i ∧ wordOf r (2 * i + 1) = v.extractLsb' (16 * i) 16) ∧
  rule32 0x62 .punpckldq (fun d v r => dwordOf r 0 = dwordOf d 0 ∧ dwordOf r 1 = v)

/-! ### Arithmetic -/

/-- PADDB, PADDW, PADDD, PSUBB, PSUBW and PSUBD: wrap-around; destination minus source (R231 to R233, R238 to R240). -/
def Obligations.WrapAroundArithmetic : Prop :=
  rule64 0xFC .paddb (eachByte fun a b r => isTrunc (a.toNat + b.toNat) r) ∧
  rule64 0xFD .paddw (eachWord fun a b r => isTrunc (a.toNat + b.toNat) r) ∧
  rule64 0xFE .paddd (eachDword fun a b r => isTrunc (a.toNat + b.toNat) r) ∧
  rule64 0xF8 .psubb (eachByte fun a b r => isTrunc (a.toNat - b.toNat) r) ∧
  rule64 0xF9 .psubw (eachWord fun a b r => isTrunc (a.toNat - b.toNat) r) ∧
  rule64 0xFA .psubd (eachDword fun a b r => isTrunc (a.toNat - b.toNat) r)

/-- PADDSB, PADDSW, PSUBSB and PSUBSW (R234, R235, R241, R242). -/
def Obligations.SignedSaturatingArithmetic : Prop :=
  rule64 0xEC .paddsb (eachByte fun a b r => isSatSigned (a.toInt + b.toInt) r) ∧
  rule64 0xED .paddsw (eachWord fun a b r => isSatSigned (a.toInt + b.toInt) r) ∧
  rule64 0xE8 .psubsb (eachByte fun a b r => isSatSigned (a.toInt - b.toInt) r) ∧
  rule64 0xE9 .psubsw (eachWord fun a b r => isSatSigned (a.toInt - b.toInt) r)

/-- PADDUSB, PADDUSW, PSUBUSB and PSUBUSW (R236, R237, R243, R244). -/
def Obligations.UnsignedSaturatingArithmetic : Prop :=
  rule64 0xDC .paddusb (eachByte fun a b r => isSatUnsigned (a.toNat + b.toNat) r) ∧
  rule64 0xDD .paddusw (eachWord fun a b r => isSatUnsigned (a.toNat + b.toNat) r) ∧
  rule64 0xD8 .psubusb (eachByte fun a b r => isSatUnsigned (a.toNat - b.toNat) r) ∧
  rule64 0xD9 .psubusw (eachWord fun a b r => isSatUnsigned (a.toNat - b.toNat) r)

/-- PMULHW, PMULLW and PMADDWD (R245, R246, R247). -/
def Obligations.MultiplyInstructions : Prop :=
  rule64 0xE5 .pmulhw (eachWord fun a b r => r.toInt = a.toInt * b.toInt / 2 ^ 16) ∧
  rule64 0xD5 .pmullw (eachWord fun a b r => isTrunc (a.toInt * b.toInt) r) ∧
  rule64 0xF5 .pmaddwd (fun d v r => ∀ i, i < 2 → isTrunc
    ((wordOf d (2 * i)).toInt * (wordOf v (2 * i)).toInt +
      (wordOf d (2 * i + 1)).toInt * (wordOf v (2 * i + 1)).toInt) (dwordOf r i))

/-! ### Compare and logical -/

/-- PCMPEQB, PCMPEQW and PCMPEQD (R261, R262, R263). -/
def Obligations.CompareEqual : Prop :=
  rule64 0x74 .pcmpeqb (eachByte fun a b r => isMask (a = b) r) ∧
  rule64 0x75 .pcmpeqw (eachWord fun a b r => isMask (a = b) r) ∧
  rule64 0x76 .pcmpeqd (eachDword fun a b r => isMask (a = b) r)

/-- PCMPGTB, PCMPGTW and PCMPGTD: signed, destination greater than source (R264, R265, R266). -/
def Obligations.CompareGreater : Prop :=
  rule64 0x64 .pcmpgtb (eachByte fun a b r => isMask (a.toInt > b.toInt) r) ∧
  rule64 0x65 .pcmpgtw (eachWord fun a b r => isMask (a.toInt > b.toInt) r) ∧
  rule64 0x66 .pcmpgtd (eachDword fun a b r => isMask (a.toInt > b.toInt) r)

/-- PAND, PANDN, POR and PXOR, bit by bit (R267 to R270). -/
def Obligations.LogicalInstructions : Prop :=
  rule64 0xDB .pand (fun d v r => ∀ k, k < 64 → r.getLsbD k = (d.getLsbD k && v.getLsbD k)) ∧
  rule64 0xDF .pandn (fun d v r => ∀ k, k < 64 → r.getLsbD k = (!d.getLsbD k && v.getLsbD k)) ∧
  rule64 0xEB .por (fun d v r => ∀ k, k < 64 → r.getLsbD k = (d.getLsbD k || v.getLsbD k)) ∧
  rule64 0xEF .pxor (fun d v r => ∀ k, k < 64 → r.getLsbD k = (d.getLsbD k != v.getLsbD k))

/-! ### Shifts -/

/-- PSLLW, PSLLD and PSLLQ, both forms, for every count (R281 to R284). -/
def Obligations.ShiftLeftLogical : Prop :=
  ruleShift 0xF1 0x71 6 .psllw .psllwImm (fun d c r => ∀ i, i < 4 → isShiftLeft (wordOf d i) c (wordOf r i)) ∧
  ruleShift 0xF2 0x72 6 .pslld .pslldImm (fun d c r => ∀ i, i < 2 → isShiftLeft (dwordOf d i) c (dwordOf r i)) ∧
  ruleShift 0xF3 0x73 6 .psllq .psllqImm (fun d c r => isShiftLeft d c r)

/-- PSRLW, PSRLD and PSRLQ, both forms, for every count (R281, R285 to R287). -/
def Obligations.ShiftRightLogical : Prop :=
  ruleShift 0xD1 0x71 2 .psrlw .psrlwImm (fun d c r => ∀ i, i < 4 → isShiftRight (wordOf d i) c (wordOf r i)) ∧
  ruleShift 0xD2 0x72 2 .psrld .psrldImm (fun d c r => ∀ i, i < 2 → isShiftRight (dwordOf d i) c (dwordOf r i)) ∧
  ruleShift 0xD3 0x73 2 .psrlq .psrlqImm (fun d c r => isShiftRight d c r)

/-- PSRAW and PSRAD, both forms, for every count (R281, R288, R289). -/
def Obligations.ShiftRightArithmetic : Prop :=
  ruleShift 0xE1 0x71 4 .psraw .psrawImm (fun d c r => ∀ i, i < 4 → isShiftArith (wordOf d i) c (wordOf r i)) ∧
  ruleShift 0xE2 0x72 4 .psrad .psradImm (fun d c r => ∀ i, i < 2 → isShiftArith (dwordOf d i) c (dwordOf r i))

/-! ### The base instructions -/

/-- CPUID (R180, R181, R187): it writes EAX, EBX, ECX and EDX and the pc, in every state, so with CR0.EM set too; with
EAX = 1 bit 23 of EDX is `HasMMX`; and what it returns is the same at every execution with the same EAX. -/
def Obligations.CpuidReports : Prop :=
  encode .cpuid = [0x0F, 0xA2] ∧
  (∀ s : State, ∃ a b c d : DWord,
    exec .cpuid s = .next { s with
      gpr := (((s.gpr.set 0 a).set 3 b).set 1 c).set 2 d
      eip := s.eip + 2 } ∧
    (s.gpr[0] = 1 → d.getLsbD 23 = s.params.hasMmx)) ∧
  ∀ s t s' t' : State, s.gpr[0] = t.gpr[0] → s.params.hasMmx = t.params.hasMmx →
    exec .cpuid s = .next s' → exec .cpuid t = .next t' → ∀ r, r = 0 ∨ r = 1 ∨ r = 2 ∨ r = 3 →
      s'.gpr[(r : Fin 8)] = t'.gpr[r]

/-- MOV r32, imm32 (R183). -/
def Obligations.MovWritesTheRegister : Prop :=
  ∀ (dst : Reg32) (imm : DWord),
    encode (.mov dst imm) = (0xB8 + dst.num.setWidth 8) :: toLe 4 imm.toNat ∧
    ∀ s : State, exec (.mov dst imm) s = .next { s with gpr := s.gpr.set dst.index imm, eip := s.eip + 5 }

/-- TEST r32, imm32 (R184): AF is a value that nothing is said of; the memory forms of F7 /0 and the short form A9 are not
covered. -/
def Obligations.TestSetsTheFlags : Prop :=
  (∀ (src : Reg32) (imm : DWord),
    encode (.test src imm) = 0xF7 :: (0b11#2 ++ 0b000#3 ++ src.num) :: toLe 4 imm.toNat ∧
    ∀ s : State, ∃ af : Bool,
      exec (.test src imm) s = .next { s with
        flags := {
          cf := false
          pf := decide (Even ((Finset.range 8).filter fun k => (s.gpr[src.index] &&& imm).getLsbD k = true).card)
          af := af
          zf := decide (s.gpr[src.index] &&& imm = 0)
          sf := (s.gpr[src.index]).getLsbD 31 && imm.getLsbD 31
          of := false }
        drawCount := s.drawCount + 1
        eip := s.eip + 6 }) ∧
  (∀ (dflt : AddrSize) (m : Byte) (rest : List Byte), m.extractLsb' 6 2 ≠ 3 →
    decode dflt (0xF7 :: m :: rest) = .notInTable) ∧
  ∀ (dflt : AddrSize) (rest : List Byte), decode dflt (0xA9 :: rest) = .notInTable

/-- JNZ rel8 (R185), the target as a number modulo 2^32. -/
def Obligations.JnzJumpsIfNotZero : Prop :=
  ∀ (rel : Byte) (s : State), encode (.jnz rel) = [0x75, rel] ∧
    ∃ target : DWord, exec (.jnz rel) s = .next { s with eip := target } ∧
      (s.flags.zf = false → (target.toNat : Int) = ((s.eip.toNat : Int) + 2 + rel.toInt) % 2 ^ 32) ∧
      (s.flags.zf = true → (target.toNat : Int) = ((s.eip.toNat : Int) + 2) % 2 ^ 32)

/-! ### Memory -/

/-- A read is little endian (R72), a write too (R73): byte `k` is at the `k`-th address, and no other byte is written. -/
def Obligations.LittleEndianReadAndWrite : Prop :=
  (∀ (s : State) (g : SegReg) (ea : DWord) (n : Nat) (bs : List Byte), memRead s g ea n = .next bs ↔
    ∃ addrs, translateBytes s g ea n .read = .next addrs ∧ bs.length = n ∧
      ∀ k, k < n → (fromLe bs / 256 ^ k) % 256 = (Memory.read s.mem (addrs.getD k 0)).toNat) ∧
  (∀ (s t : State) (g : SegReg) (ea : DWord) (n v : Nat), Memory.wf s.mem = true →
    memWrite s g ea (toLe n v) = .next t → ∃ addrs, translateBytes s g ea n .write = .next addrs ∧
      (∀ a, a ∉ addrs → Memory.read t.mem a = Memory.read s.mem a) ∧
      (addrs.Nodup → ∀ k, k < n → (Memory.read t.mem (addrs.getD k 0)).toNat = v / 256 ^ k % 256))

/-- What a mixed-width access sees (R75): a stored 64-bit value, read back 32 bits at a time, gives its halves, and read
back whole is unchanged. -/
def Obligations.MixedWidthAccess : Prop :=
  ∀ (s t : State) (g : SegReg) (ea : DWord) (v : QWord) (addrs : List Nat), Memory.wf s.mem = true →
    translateBytes s g ea 8 .write = .next addrs → addrs.Nodup → memWrite s g ea (toLe 8 v.toNat) = .next t →
    (translateBytes s g ea 8 .read = .next addrs →
      ∃ bs, memRead t g ea 8 = .next bs ∧ BitVec.ofNat 64 (fromLe bs) = v) ∧
    (translateBytes s g ea 4 .read = .next (addrs.take 4) →
      ∃ bs, memRead t g ea 4 = .next bs ∧ BitVec.ofNat 32 (fromLe bs) = v.extractLsb' 0 32) ∧
    (translateBytes s g (ea + 4) 4 .read = .next (addrs.drop 4) →
      ∃ bs, memRead t g (ea + 4) 4 = .next bs ∧ BitVec.ofNat 32 (fromLe bs) = v.extractLsb' 32 32)

/-- `Translate` with no segmentation or paging line and all of the space memory is the flat map (R12): consecutive
addresses, at any byte address while `AlignmentCheck` is off, and the alignment fault where it is on and the address is
no multiple of the size (R79), past 2^32 too. Else an operand that goes past 2^32, where there is no 32-bit linear address
(R76), is refused: the spec does not say what it does, and that is the model's choice (log 7). -/
def Obligations.FlatTranslation : Prop :=
  ∀ (s : State) (g : SegReg) (ea : DWord) (n : Nat) (k : AccessKind), s.params.segRules = [] →
    s.params.pageRules = [] → s.params.regions = [⟨⟨0, 2 ^ 32⟩, .ram⟩] → 0 < n →
    (s.params.alignmentCheck = false ∨ ea.toNat % n = 0 →
      (ea.toNat + n ≤ 2 ^ 32 → translateBytes s g ea n k = .next ((List.range n).map (ea.toNat + ·))) ∧
      (2 ^ 32 < ea.toNat + n → translateBytes s g ea n k = .refused (.beyondLinearSpace (2 ^ 32)))) ∧
    (s.params.alignmentCheck = true → ea.toNat % n ≠ 0 →
      translateBytes s g ea n k = .fault (.memFault .alignmentCheck))

/-- Segmentation comes before paging, the lower-addressed byte first (R309): an exception of segmentation is raised
whatever paging says, and one of paging is that of the lowest byte that has one. R309 names neither the alignment check
nor the memory map: that segmentation comes before the alignment check (first clause) and paging of every byte before the
memory map's refusals (second clause) is the model's choice (log 10). -/
def Obligations.SegmentationBeforePaging : Prop :=
  ∀ (s : State) (g : SegReg) (ea : DWord) (n j : Nat) (k : AccessKind) (f : Fault), j < n →
    ((∀ i, i < j → ∃ l, linearOf s g k (ea.toNat + i) = .next l) → linearOf s g k (ea.toNat + j) = .fault f →
      translateBytes s g ea n k = .fault f) ∧
    (∀ lin : Nat → Nat, (∀ i, i < n → linearOf s g k (ea.toNat + i) = .next (lin i)) →
      s.params.alignmentCheck = false → (∀ i, i < j → ∃ a, physicalOf s k (lin i) = .next a) →
      physicalOf s k (lin j) = .fault f → translateBytes s g ea n k = .fault f)

/-! ### Taking an exception and returning -/

/-- Vectors and error codes (R305). R304 gives segment not present "a selector error code": that it is the contents of the
segment register unchanged, the two low bits too, is the model's choice (log 27). -/
def Obligations.VectorsAndErrorCodes : Prop :=
  vectorOf .invalidOpcode = some 6 ∧ errorCodeOf .invalidOpcode = none ∧
  vectorOf .deviceNotAvailable = some 7 ∧ errorCodeOf .deviceNotAvailable = none ∧
  vectorOf (.numericError .int16) = some 16 ∧ errorCodeOf (.numericError .int16) = none ∧
  (∀ l c, vectorOf (.pageFault l c) = some 14 ∧ errorCodeOf (.pageFault l c) = some c) ∧
  (∀ sel, vectorOf (.segmentNotPresent sel) = some 11 ∧ errorCodeOf (.segmentNotPresent sel) = some (sel.setWidth 32)) ∧
  (∀ g, vectorOf (.limitViolation g) = some (if g = .ss then 12 else 13) ∧
    errorCodeOf (.limitViolation g) = some 0) ∧
  vectorOf (.memFault .alignmentCheck) = some 17 ∧ errorCodeOf (.memFault .alignmentCheck) = some 0

/-- Taking an exception writes nothing the instruction would have written (R151, R310, R312): only CR2 for a page fault,
the faulting linear address (R304), and FERR# for a numeric error in that mode (R306). -/
def Obligations.ExceptionsArePrecise : Prop :=
  ∀ (f : Fault) (s : State),
    takeException f s = { s with cr2 := (takeException f s).cr2, ferr := (takeException f s).ferr } ∧
    (∀ l c, f = .pageFault l c → (takeException f s).cr2 = l) ∧
    ((∀ l c, f ≠ .pageFault l c) → (takeException f s).cr2 = s.cr2) ∧
    ((takeException f s).ferr = true ↔ s.ferr = true ∨ f = .numericError .ferr)

/-- After the handler has cleared the pending exception, the same MMX instruction is executed again from its first check,
in either mode of reporting (R144, R306, R314): the pc did not move, FERR# is asserted in that mode, the next step is the
instruction's, and it raises no numeric error. -/
def Obligations.InstructionResumesAfterNumericError : Prop :=
  ∀ (s t : State) (i : Instr), i.isMmx = true → i.wellFormed s.params.defaultAddrSize = true →
    s.params.endAddr ≠ some s.eip → fetches s (encode i) → Prefix.lock ∉ i.prefixes →
    mmxReady { s with fpExcPending := false } = true → s.fpExcPending = true →
    t = { s with
      fpExcPending := false
      ferr := s.ferr || decide (s.params.numericErrorMode = .ferr) } →
      step s = .fault (.numericError s.params.numericErrorMode) ∧
      stepHandled (fun _ u => { u with fpExcPending := false }) s = .next t ∧
      step t = exec i t ∧
      ∀ f, exec i t = .fault f → ∀ mode, f ≠ .numericError mode

/-! ### Task switches -/

/-- A task switch of a preemptive operating system is invisible (R322): whatever other tasks did, the integer registers
and the floating-point and MMX state are as they were. A yield under a cooperative one may change the floating-point and
MMX state (R321); what it is then nothing is said of. That the pc, the flags, the floating-point instruction pointer and
the pending exception are restored too, and that a cooperative yield draws the last two and changes nothing else, is the
model's choice (log 28). -/
def Obligations.TaskSwitches : Prop :=
  ∀ (others : State → State) (s : State),
    (s.params.osKind = .preemptive →
      saveContext (yieldTask others s) = saveContext s ∧ (∀ r, (yieldTask others s).mm r = s.mm r) ∧
      (∀ r, (yieldTask others s).tag r = s.tag r) ∧ (yieldTask others s).tos = s.tos ∧
      (yieldTask others s).fpExcPending = s.fpExcPending) ∧
    (s.params.osKind = .cooperative →
      ∃ fpr tags status control pointer pending, yieldTask others s =
        { s with
          fpr := fpr
          tagWord := tags
          statusWord := status
          controlWord := control
          fpInstrPointer := pointer
          fpExcPending := pending
          drawCount := s.drawCount + 13 })
end

