-- ==== Sys2Proof/Laws/Decode.lean ====
section
/-! SUPPORT. The parts of an encoding: numbers, fields, operands, prefixes, each read back as it was written. -/

namespace Sys2Proof

/-! ### Concatenation -/

theorem extract_append_low {n m : Nat} (a : BitVec n) (b : BitVec m) : (a ++ b).extractLsb' 0 m = b := by
  ext i hi; simp [BitVec.getLsbD_append, hi]

theorem extract_append_high {n m : Nat} (a : BitVec n) (b : BitVec m) : (a ++ b).extractLsb' m n = a := by
  ext i hi; simp [BitVec.getLsbD_append, hi]

/-! ### Numbers and bytes -/

theorem Reg32.ofNum_num (r : Reg32) : Reg32.ofNum r.num = r := by cases r <;> rfl
theorem MmReg.ofNum_num (r : MmReg) : MmReg.ofNum r.num = r := by cases r <;> rfl
theorem Rm16.ofNum_num (r : Rm16) : Rm16.ofNum r.num = r := by cases r <;> rfl
theorem Reg32.num_ofNum (n : BitVec 3) : (Reg32.ofNum n).num = n := by revert n; decide
theorem MmReg.num_ofNum (n : BitVec 3) : (MmReg.ofNum n).num = n := by revert n; decide
theorem Rm16.num_ofNum (n : BitVec 3) : (Rm16.ofNum n).num = n := by revert n; decide

theorem Reg32.num_inj {a b : Reg32} : a.num = b.num ↔ a = b :=
  ⟨fun h => by rw [← ofNum_num a, h, ofNum_num], fun h => h ▸ rfl⟩

theorem Rm16.num_inj {a b : Rm16} : a.num = b.num ↔ a = b :=
  ⟨fun h => by rw [← ofNum_num a, h, ofNum_num], fun h => h ▸ rfl⟩

theorem Prefix.ofByte_byte (p : Prefix) : Prefix.ofByte p.byte = some p := by
  cases p with
  | segment g => cases g <;> decide
  | _ => decide

theorem Prefix.byte_of_ofByte {b : Byte} {p : Prefix} (h : Prefix.ofByte b = some p) : p.byte = b := by
  have := List.find?_some h
  simpa using this

theorem MmRm.mm_field (rm : MmRm) : rm.field.mm = rm := by
  cases rm <;> simp [MmRm.field, RmField.mm, MmReg.ofNum_num]

theorem GpRm.gp_field (rm : GpRm) : rm.field.gp = rm := by
  cases rm <;> simp [GpRm.field, RmField.gp, Reg32.ofNum_num]

theorem RmField.field_mm (f : RmField) : f.mm.field = f := by
  cases f <;> simp [MmRm.field, RmField.mm, MmReg.num_ofNum]

theorem RmField.field_gp (f : RmField) : f.gp.field = f := by
  cases f <;> simp [GpRm.field, RmField.gp, Reg32.num_ofNum]

/-! ### Fields -/

theorem modOf_modRm (m : BitVec 2) (g r : BitVec 3) : modOf (modRm m g r) = m := by
  revert m g r; decide

theorem regOf_modRm (m : BitVec 2) (g r : BitVec 3) : regOf (modRm m g r) = g := by
  revert m g r; decide

theorem rmOf_modRm (m : BitVec 2) (g r : BitVec 3) : rmOf (modRm m g r) = r := by
  revert m g r; decide

theorem modRm_fields (b : Byte) : modRm (modOf b) (regOf b) (rmOf b) = b := by
  revert b; decide

theorem take8_cons (b : Byte) (rest : List Byte) : take8 (b :: rest) = some (b, rest) := rfl

theorem take16_le16 (v : Word) (rest : List Byte) : take16 (le16 v ++ rest) = some (v, rest) := by
  have : (v.extractLsb' 8 8 ++ v.extractLsb' 0 8 : BitVec (8 + 8)) = v := by
    ext i hi
    simp only [BitVec.getElem_append, BitVec.getElem_extractLsb']
    split_ifs with h
    · exact (congrArg _ (by omega)).trans (BitVec.getLsbD_eq_getElem hi)
    · exact (congrArg _ (by omega)).trans (BitVec.getLsbD_eq_getElem hi)
  simp only [le16, take16, List.cons_append, List.nil_append]
  exact congrArg (fun x => some (x, rest)) this

theorem take32_le32 (v : DWord) (rest : List Byte) : take32 (le32 v ++ rest) = some (v, rest) := by
  have : (v.extractLsb' 24 8 ++ v.extractLsb' 16 8 ++ v.extractLsb' 8 8 ++ v.extractLsb' 0 8 : BitVec (8 + 8 + 8 + 8))
      = v := by
    ext i hi
    simp only [BitVec.getElem_append, BitVec.getElem_extractLsb']
    split_ifs <;> exact (congrArg _ (by omega)).trans (BitVec.getLsbD_eq_getElem hi)
  simp only [le32, take32, List.cons_append, List.nil_append]
  exact congrArg (fun x => some (x, rest)) this

theorem take16_eq_some {bs rest : List Byte} {v : Word} (h : take16 bs = some (v, rest)) : bs = le16 v ++ rest := by
  match bs, h with
  | b0 :: b1 :: r, h =>
    simp only [take16, Option.some.injEq, Prod.mk.injEq] at h
    obtain ⟨rfl, rfl⟩ := h
    exact (congrArg₂ (fun x y => x :: y :: r) (extract_append_low b1 b0) (extract_append_high b1 b0)).symm

theorem take32_eq_some {bs rest : List Byte} {v : DWord} (h : take32 bs = some (v, rest)) : bs = le32 v ++ rest := by
  match bs, h with
  | b0 :: b1 :: b2 :: b3 :: r, h =>
    simp only [take32, Option.some.injEq, Prod.mk.injEq] at h
    obtain ⟨rfl, rfl⟩ := h
    have e (k : Nat) (b : Byte) (hb : ∀ i, (hi : i < 8) → (b3 ++ b2 ++ b1 ++ b0 : BitVec (8 + 8 + 8 + 8)).getLsbD (k + i)
        = b[i]) : (b3 ++ b2 ++ b1 ++ b0 : BitVec (8 + 8 + 8 + 8)).extractLsb' k 8 = b := by
      ext i hi; rw [BitVec.getElem_extractLsb']; exact hb i hi
    have h0 := e 0 b0 fun i hi => by
      simp only [BitVec.getLsbD_append]
      split_ifs <;> first | omega | exact (congrArg _ (by omega)).trans (BitVec.getLsbD_eq_getElem hi)
    have h1 := e 8 b1 fun i hi => by
      simp only [BitVec.getLsbD_append]
      split_ifs <;> first | omega | exact (congrArg _ (by omega)).trans (BitVec.getLsbD_eq_getElem hi)
    have h2 := e 16 b2 fun i hi => by
      simp only [BitVec.getLsbD_append]
      split_ifs <;> first | omega | exact (congrArg _ (by omega)).trans (BitVec.getLsbD_eq_getElem hi)
    have h3 := e 24 b3 fun i hi => by
      simp only [BitVec.getLsbD_append]
      split_ifs <;> first | omega | exact (congrArg _ (by omega)).trans (BitVec.getLsbD_eq_getElem hi)
    show b0 :: b1 :: b2 :: b3 :: r = [_, _, _, _] ++ r
    rw [h0, h1, h2, h3]; rfl

theorem take8_eq_some {bs rest : List Byte} {v : Byte} (h : take8 bs = some (v, rest)) : bs = v :: rest := by
  match bs, h with
  | b :: r, h =>
    simp only [take8, Option.some.injEq, Prod.mk.injEq] at h
    rw [h.1, h.2]

/-! ### Operands -/

theorem Disp32.mod_eq_zero (d : Disp32) : d.mod = 0#2 ↔ d = .absent := by cases d <;> simp [Disp32.mod]
theorem Disp16.mod_eq_zero (d : Disp16) : d.mod = 0#2 ↔ d = .absent := by cases d <;> simp [Disp16.mod]
theorem Disp32.mod_ne_three (d : Disp32) : d.mod ≠ 3#2 := by cases d <;> simp [Disp32.mod]
theorem Disp16.mod_ne_three (d : Disp16) : d.mod ≠ 3#2 := by cases d <;> simp [Disp16.mod]

theorem takeDisp32_eq_some {mod : BitVec 2} {bs rest : List Byte} {d : Disp32} (hm : mod ≠ 3#2)
    (h : takeDisp32 mod bs = some (d, rest)) : bs = d.bytes ++ rest ∧ d.mod = mod := by
  have cases4 : ∀ m : BitVec 2, m = 0#2 ∨ m = 1#2 ∨ m = 2#2 ∨ m = 3#2 := by decide
  rcases cases4 mod with rfl | rfl | rfl | rfl
  · simp only [takeDisp32] at h
    cases h; exact ⟨rfl, rfl⟩
  · simp [takeDisp32] at h
    obtain ⟨a, hv, rfl⟩ := h; exact ⟨take8_eq_some hv, rfl⟩
  · simp [takeDisp32] at h
    obtain ⟨a, hv, rfl⟩ := h; exact ⟨take32_eq_some hv, rfl⟩
  · exact absurd rfl hm

theorem takeDisp16_eq_some {mod : BitVec 2} {bs rest : List Byte} {d : Disp16} (hm : mod ≠ 3#2)
    (h : takeDisp16 mod bs = some (d, rest)) : bs = d.bytes ++ rest ∧ d.mod = mod := by
  have cases4 : ∀ m : BitVec 2, m = 0#2 ∨ m = 1#2 ∨ m = 2#2 ∨ m = 3#2 := by decide
  rcases cases4 mod with rfl | rfl | rfl | rfl
  · simp only [takeDisp16] at h
    cases h; exact ⟨rfl, rfl⟩
  · simp [takeDisp16] at h
    obtain ⟨a, hv, rfl⟩ := h; exact ⟨take8_eq_some hv, rfl⟩
  · simp [takeDisp16] at h
    obtain ⟨a, hv, rfl⟩ := h; exact ⟨take16_eq_some hv, rfl⟩
  · exact absurd rfl hm

theorem takeMem32_eq_some {mod : BitVec 2} {reg rm : BitVec 3} {bs rest : List Byte} {m : MemRef} (hm : mod ≠ 3#2)
    (h : takeMem32 mod rm bs = some (m, rest)) :
    modRm mod reg rm :: bs = m.bytes reg ++ rest ∧ m.wellFormed .a32 = true := by
  simp only [takeMem32] at h
  split_ifs at h with h4 h5
  · match bs, h with
    | sib :: r, h =>
      simp only [takeSib] at h
      split_ifs at h with h5
      · simp only [Option.map_eq_some_iff, Prod.exists, Prod.mk.injEq] at h
        obtain ⟨d, r', hd, rfl, rfl⟩ := h
        rw [take32_eq_some hd, h4, h5.1]
        refine ⟨?_, rfl⟩
        simp only [MemRef.bytes, Reg32.num_ofNum, List.cons_append, List.cons.injEq, and_true, true_and]
        rw [← modRm_fields sib, h5.2]; simp [modOf_modRm, regOf_modRm]
      · simp only [Option.map_eq_some_iff, Prod.exists, Prod.mk.injEq] at h
        obtain ⟨d, r', hd, rfl, rfl⟩ := h
        obtain ⟨rfl, rfl⟩ := takeDisp32_eq_some hm hd
        refine ⟨?_, ?_⟩
        · simp [MemRef.bytes, Reg32.num_ofNum, h4, modRm_fields]
        · simp only [MemRef.wellFormed, MemRef.spellable, MemRef.addrSize, beq_self_eq_true, Bool.and_true,
            Bool.not_eq_true', Bool.and_eq_false_iff, beq_eq_false_iff_ne]
          by_contra hc
          simp only [not_or, not_not] at hc
          refine h5 ⟨(Disp32.mod_eq_zero d).2 hc.2, ?_⟩
          rw [← Reg32.num_ofNum (rmOf sib), hc.1]; rfl
  · simp only [Option.map_eq_some_iff, Prod.exists, Prod.mk.injEq] at h
    obtain ⟨d, r', hd, rfl, rfl⟩ := h
    rw [take32_eq_some hd, h5.1, h5.2]
    exact ⟨rfl, rfl⟩
  · simp only [Option.map_eq_some_iff, Prod.exists, Prod.mk.injEq] at h
    obtain ⟨d, r', hd, rfl, rfl⟩ := h
    obtain ⟨rfl, rfl⟩ := takeDisp32_eq_some hm hd
    refine ⟨by simp [MemRef.bytes, Reg32.num_ofNum], ?_⟩
    have e4 : Reg32.ofNum rm ≠ .esp := fun e => h4 (by rw [← Reg32.num_ofNum rm, e]; rfl)
    have e5 : ¬(Reg32.ofNum rm = .ebp ∧ d = .absent) := fun e =>
      h5 ⟨(Disp32.mod_eq_zero d).2 e.2, by rw [← Reg32.num_ofNum rm, e.1]; rfl⟩
    simpa [MemRef.wellFormed, MemRef.spellable, MemRef.addrSize, e4, imp_iff_not_or] using e5

theorem takeMem16_eq_some {mod : BitVec 2} {reg rm : BitVec 3} {bs rest : List Byte} {m : MemRef} (hm : mod ≠ 3#2)
    (h : takeMem16 mod rm bs = some (m, rest)) :
    modRm mod reg rm :: bs = m.bytes reg ++ rest ∧ m.wellFormed .a16 = true := by
  simp only [takeMem16] at h
  split_ifs at h with h6
  · simp only [Option.map_eq_some_iff, Prod.exists, Prod.mk.injEq] at h
    obtain ⟨d, r', hd, rfl, rfl⟩ := h
    rw [take16_eq_some hd, h6.1, h6.2]
    exact ⟨rfl, rfl⟩
  · simp only [Option.map_eq_some_iff, Prod.exists, Prod.mk.injEq] at h
    obtain ⟨d, r', hd, rfl, rfl⟩ := h
    obtain ⟨rfl, rfl⟩ := takeDisp16_eq_some hm hd
    refine ⟨by simp [MemRef.bytes, Rm16.num_ofNum], ?_⟩
    have e6 : ¬(Rm16.ofNum rm = .bp ∧ d = .absent) := fun e =>
      h6 ⟨(Disp16.mod_eq_zero d).2 e.2, by rw [← Rm16.num_ofNum rm, e.1]; rfl⟩
    simpa [MemRef.wellFormed, MemRef.spellable, MemRef.addrSize, imp_iff_not_or] using e6

/-- What is read as ModRM and its operand is the operand's bytes, and a memory operand so read can be spelt. -/
theorem takeModRm_eq_some {size : AddrSize} {bs rest : List Byte} {reg : BitVec 3} {f : RmField}
    (h : takeModRm size bs = some (reg, f, rest)) :
    bs = f.bytes reg ++ rest ∧ ∀ m, f = .mem m → m.wellFormed size = true := by
  match bs, h with
  | b :: r, h =>
    simp only [takeModRm] at h
    split_ifs at h with h3
    · simp only [Option.some.injEq, Prod.mk.injEq] at h
      obtain ⟨rfl, rfl, rfl⟩ := h
      refine ⟨?_, by simp⟩
      conv => lhs; rw [← modRm_fields b, h3]
      rfl
    · cases size <;>
      · simp only [Option.map_eq_some_iff, Prod.exists, Prod.mk.injEq] at h
        obtain ⟨m, r', hd, rfl, rfl, rfl⟩ := h
        have := by first
          | exact takeMem32_eq_some (reg := regOf b) h3 hd
          | exact takeMem16_eq_some (reg := regOf b) h3 hd
        rw [modRm_fields] at this
        exact ⟨this.1, fun m' e => by cases e; exact this.2⟩

theorem takeDisp32_bytes (d : Disp32) (rest : List Byte) : takeDisp32 d.mod (d.bytes ++ rest) = some (d, rest) := by
  cases d with
  | absent => rfl
  | d8 d => rfl
  | d32 d => simp [takeDisp32, Disp32.mod, Disp32.bytes, take32_le32]

theorem takeDisp16_bytes (d : Disp16) (rest : List Byte) : takeDisp16 d.mod (d.bytes ++ rest) = some (d, rest) := by
  cases d with
  | absent => rfl
  | d8 d => rfl
  | d16 d => simp [takeDisp16, Disp16.mod, Disp16.bytes, take16_le16]

/-- A memory operand that can be spelt is read back from its bytes (R113). -/
theorem takeModRm_mem {size : AddrSize} {m : MemRef} (h : m.wellFormed size = true) (reg : BitVec 3)
    (rest : List Byte) : takeModRm size (m.bytes reg ++ rest) = some (reg, .mem m, rest) := by
  simp only [MemRef.wellFormed, Bool.and_eq_true, beq_iff_eq] at h
  obtain ⟨hs, rfl⟩ := h
  cases m with
  | base b d =>
    have hb : b ≠ .esp ∧ (b = .ebp → d ≠ .absent) := by
      simpa [MemRef.spellable, imp_iff_not_or] using hs
    have h4 : b.num ≠ 4#3 := fun e => hb.1 (Reg32.num_inj.1 (e.trans (show _ = Reg32.esp.num from rfl)))
    have h5 : ¬(d.mod = 0#2 ∧ b.num = 5#3) := fun e =>
      hb.2 (Reg32.num_inj.1 (e.2.trans (show _ = Reg32.ebp.num from rfl))) ((Disp32.mod_eq_zero d).1 e.1)
    simp [takeModRm, MemRef.bytes, MemRef.addrSize, modOf_modRm, regOf_modRm, rmOf_modRm, d.mod_ne_three, takeMem32, h4,
      h5, takeDisp32_bytes, Reg32.ofNum_num]
  | abs32 d =>
    simp [takeModRm, MemRef.bytes, MemRef.addrSize, modOf_modRm, regOf_modRm, rmOf_modRm, takeMem32, take32_le32]
  | sib s x b d =>
    have hb : b = .ebp → d ≠ .absent := by simpa [MemRef.spellable, imp_iff_not_or] using hs
    have h5 : ¬(d.mod = 0#2 ∧ b.num = 5#3) := fun e =>
      hb (Reg32.num_inj.1 (e.2.trans (show _ = Reg32.ebp.num from rfl))) ((Disp32.mod_eq_zero d).1 e.1)
    simp [takeModRm, MemRef.bytes, MemRef.addrSize, modOf_modRm, regOf_modRm, rmOf_modRm, d.mod_ne_three, takeMem32,
      takeSib, h5, takeDisp32_bytes, Reg32.ofNum_num]
  | sibAbs s x d =>
    simp [takeModRm, MemRef.bytes, MemRef.addrSize, modOf_modRm, regOf_modRm, rmOf_modRm, takeMem32, takeSib, take32_le32,
      Reg32.ofNum_num]
  | base16 r d =>
    have hb : r = .bp → d ≠ .absent := by simpa [MemRef.spellable, imp_iff_not_or] using hs
    have h6 : ¬(d.mod = 0#2 ∧ r.num = 6#3) := fun e =>
      hb (Rm16.num_inj.1 (e.2.trans (show _ = Rm16.bp.num from rfl))) ((Disp16.mod_eq_zero d).1 e.1)
    simp [takeModRm, MemRef.bytes, MemRef.addrSize, modOf_modRm, regOf_modRm, rmOf_modRm, d.mod_ne_three, takeMem16, h6,
      takeDisp16_bytes, Rm16.ofNum_num]
  | abs16 d =>
    simp [takeModRm, MemRef.bytes, MemRef.addrSize, modOf_modRm, regOf_modRm, rmOf_modRm, takeMem16, take16_le16]

/-- A register operand is read back from its byte (R112). -/
theorem takeModRm_reg (size : AddrSize) (reg n : BitVec 3) (rest : List Byte) :
    takeModRm size ((RmField.reg n).bytes reg ++ rest) = some (reg, .reg n, rest) := by
  simp [takeModRm, RmField.bytes, modOf_modRm, regOf_modRm, rmOf_modRm]

/-! ### Lengths -/

theorem length_le16 (v : Word) : (le16 v).length = 2 := rfl
theorem length_le32 (v : DWord) : (le32 v).length = 4 := rfl

theorem Disp32.length_bytes (d : Disp32) : d.bytes.length = d.size := by cases d <;> rfl
theorem Disp16.length_bytes (d : Disp16) : d.bytes.length = d.size := by cases d <;> rfl

theorem MemRef.length_bytes (m : MemRef) (reg : BitVec 3) : (m.bytes reg).length = 1 + m.extra := by
  cases m <;>
    simp [MemRef.bytes, MemRef.extra, Disp32.length_bytes, Disp16.length_bytes, length_le16, length_le32] <;> omega

theorem MmRm.length_bytes (rm : MmRm) (reg : BitVec 3) : (rm.field.bytes reg).length = 1 + rm.extra := by
  cases rm <;> simp [MmRm.field, RmField.bytes, MmRm.extra, MemRef.length_bytes]

theorem GpRm.length_bytes (rm : GpRm) (reg : BitVec 3) : (rm.field.bytes reg).length = 1 + rm.extra := by
  cases rm <;> simp [GpRm.field, RmField.bytes, GpRm.extra, MemRef.length_bytes]

/-! ### Prefixes -/

/-- The prefixes in front of a byte that is none are read back (R108). -/
theorem takePrefixes_append (pfx : List Prefix) {b : Byte} (h : Prefix.ofByte b = none) (rest : List Byte) :
    takePrefixes (pfx.map Prefix.byte ++ b :: rest) = (pfx, b :: rest) := by
  induction pfx with
  | nil => simp [takePrefixes, h]
  | cons p pfx ih => simp [takePrefixes, Prefix.ofByte_byte, ih]

/-- Prefixes taken off are the bytes they are. -/
theorem takePrefixes_bytes (bs : List Byte) :
    (takePrefixes bs).1.map Prefix.byte ++ (takePrefixes bs).2 = bs := by
  induction bs with
  | nil => rfl
  | cons b rest ih =>
    unfold takePrefixes
    split
    · rename_i p h
      simp [ih, Prefix.byte_of_ofByte h]
    · rfl

end Sys2Proof
end

