-- ==== Sys2Proof/Laws/Memory.lean ====
section
/-! SUPPORT. Memory: a read after a write, the canonical form, and the bytes of a number. -/

namespace Sys2Proof.Machine

/-- Every address of the entries is above `a`. -/
abbrev Memory.above (a : Nat) (m : List Host.Cell) : Bool := m.all fun d => decide (a < d.1)

theorem Memory.above_cons {a : Nat} {c : Host.Cell} {rest : List Host.Cell} :
    Memory.above a (c :: rest) = true ↔ a < c.1 ∧ Memory.above a rest = true := by
  simp [Memory.above]

theorem Memory.wf_cons {c : Host.Cell} {rest : List Host.Cell} :
    Memory.wf (c :: rest) = true ↔ c.2 ≠ Memory.unlisted ∧ Memory.above c.1 rest = true ∧ Memory.wf rest = true := by
  simp [Memory.wf, and_assoc]

theorem Memory.read_above {a : Nat} {m : List Host.Cell} (h : Memory.above a m = true) :
    Memory.read m a = Memory.unlisted := by
  induction m with
  | nil => rfl
  | cons c rest ih =>
    have h' := Memory.above_cons.1 h
    simp only [Memory.read, if_neg (by omega : ¬c.1 = a)]
    exact ih h'.2

theorem Memory.above_mono {a b : Nat} {m : List Host.Cell} (hab : a ≤ b) (h : Memory.above b m = true) :
    Memory.above a m = true := by
  simp only [Memory.above, List.all_eq_true, decide_eq_true_eq] at *
  exact fun d hd => lt_of_le_of_lt hab (h d hd)

theorem Memory.above_write {a k : Nat} {b : Byte} {m : List Host.Cell} (hk : k < a) (h : Memory.above k m = true) :
    Memory.above k (Memory.write m a b) = true := by
  induction m with
  | nil => simp only [Memory.write]; split <;> simp [Memory.above, hk]
  | cons c rest ih =>
    have h' := Memory.above_cons.1 h
    simp only [Memory.write]
    split_ifs
    · exact h
    · exact Memory.above_cons.2 ⟨hk, h⟩
    · exact h'.2
    · exact Memory.above_cons.2 ⟨hk, h'.2⟩
    · exact Memory.above_cons.2 ⟨h'.1, ih h'.2⟩

/-- A write keeps the canonical form. -/
theorem Memory.wf_write {m : List Host.Cell} (a : Nat) (b : Byte) (h : Memory.wf m = true) :
    Memory.wf (Memory.write m a b) = true := by
  induction m with
  | nil => simp only [Memory.write]; split_ifs with hb <;> simp [Memory.wf, hb]
  | cons c rest ih =>
    obtain ⟨hc, ha, hr⟩ := Memory.wf_cons.1 h
    simp only [Memory.write]
    split_ifs with h1 hb h2 hb
    · exact h
    · refine Memory.wf_cons.2 ⟨hb, ?_, h⟩
      exact Memory.above_cons.2 ⟨h1, Memory.above_mono (Nat.le_of_lt h1) ha⟩
    · exact hr
    · exact Memory.wf_cons.2 ⟨hb, h2 ▸ ha, hr⟩
    · exact Memory.wf_cons.2 ⟨hc, Memory.above_write (by omega) ha, ih hr⟩

/-- A byte reads as it was written. -/
theorem Memory.read_write_same {m : List Host.Cell} (a : Nat) (b : Byte) (h : Memory.wf m = true) :
    Memory.read (Memory.write m a b) a = b := by
  induction m with
  | nil => simp only [Memory.write]; split_ifs with hb <;> simp [Memory.read, hb]
  | cons c rest ih =>
    obtain ⟨hc, ha, hr⟩ := Memory.wf_cons.1 h
    simp only [Memory.write]
    split_ifs with h1 hb h2 hb
    · have habove : Memory.above a (c :: rest) = true :=
        Memory.above_cons.2 ⟨h1, Memory.above_mono (Nat.le_of_lt h1) ha⟩
      rw [Memory.read_above habove, hb]
    · simp [Memory.read]
    · rw [Memory.read_above (h2 ▸ ha), hb]
    · simp [Memory.read]
    · simp only [Memory.read, if_neg (by omega : ¬c.1 = a)]
      exact ih hr

/-- A write leaves every other byte. -/
theorem Memory.read_write_other {m : List Host.Cell} {a k : Nat} (b : Byte) (hk : k ≠ a) :
    Memory.read (Memory.write m a b) k = Memory.read m k := by
  induction m with
  | nil => simp only [Memory.write]; split_ifs <;> simp [Memory.read, Ne.symm hk]
  | cons c rest ih =>
    simp only [Memory.write]
    split_ifs with h1 hb h2 hb
    · rfl
    · simp [Memory.read, Ne.symm hk]
    · simp [Memory.read, ← h2, Ne.symm hk]
    · simp [Memory.read, ← h2, Ne.symm hk]
    · simp only [Memory.read, ih]

/-- Writing bytes keeps the canonical form. -/
theorem Memory.wf_writeAll {m : List Host.Cell} (as : List Nat) (bs : List Byte) (h : Memory.wf m = true) :
    Memory.wf (Memory.writeAll m as bs) = true := by
  induction as generalizing m bs with
  | nil => simpa [Memory.writeAll] using h
  | cons a as ih =>
    cases bs with
    | nil => simpa [Memory.writeAll] using h
    | cons b bs => exact ih bs (Memory.wf_write a b h)

/-- Writing bytes leaves every byte at another address. -/
theorem Memory.read_writeAll_other {m : List Host.Cell} {as : List Nat} (bs : List Byte) {k : Nat} (hk : k ∉ as) :
    Memory.read (Memory.writeAll m as bs) k = Memory.read m k := by
  induction as generalizing m bs with
  | nil => simp [Memory.writeAll]
  | cons a as ih =>
    cases bs with
    | nil => simp [Memory.writeAll]
    | cons b bs =>
      simp only [List.mem_cons, not_or] at hk
      simp only [Memory.writeAll]
      rw [ih bs hk.2, Memory.read_write_other b hk.1]

/-- Bytes written at different addresses read as they were written. -/
theorem Memory.read_writeAll_same {m : List Host.Cell} {as : List Nat} {bs : List Byte} (hm : Memory.wf m = true)
    (hnd : as.Nodup) (hlen : as.length = bs.length) : as.map (Memory.read (Memory.writeAll m as bs)) = bs := by
  induction as generalizing m bs with
  | nil => simpa using hlen.symm
  | cons a as ih =>
    cases bs with
    | nil => simp at hlen
    | cons b bs =>
      obtain ⟨ha, hnd⟩ := List.nodup_cons.1 hnd
      simp only [Memory.writeAll, List.map_cons, List.cons.injEq]
      refine ⟨?_, ih (Memory.wf_write a b hm) hnd (by simpa using hlen)⟩
      rw [Memory.read_writeAll_other bs ha, Memory.read_write_same a b hm]

theorem fromLe_lt (bs : List Byte) : fromLe bs < 256 ^ bs.length := by
  induction bs with
  | nil => simp [fromLe]
  | cons b bs ih =>
    have := b.isLt
    simp only [fromLe, List.length_cons, pow_succ]
    omega

@[simp] theorem length_toLe (n v : Nat) : (toLe n v).length = n := by
  induction n generalizing v with
  | zero => rfl
  | succ n ih => simp [toLe, ih]

/-- A number of `n` bytes is the number its bytes make (R75). -/
theorem fromLe_toLe (n v : Nat) : fromLe (toLe n v) = v % 256 ^ n := by
  induction n generalizing v with
  | zero => simp [toLe, fromLe, Nat.mod_one]
  | succ n ih =>
    have h : 256 ^ (n + 1) = 256 * 256 ^ n := by rw [pow_succ, mul_comm]
    simp only [toLe, fromLe, ih, BitVec.toNat_ofNat, h, Nat.mod_mul]

end Sys2Proof.Machine
end

