-- ==== Sys2Proof/Laws/State.lean ====
section
/-! SUPPORT. One lemma per field per update of State, and what a register reads as after a register is written. -/

namespace Sys2Proof

theorem Reg32.index_inj {a b : Reg32} : a.index = b.index ↔ a = b := by
  cases a <;> cases b <;> decide

theorem MmReg.index_inj {a b : MmReg} : a.index = b.index ↔ a = b := by
  cases a <;> cases b <;> decide

end Sys2Proof

namespace Sys2Proof.Machine

@[simp] theorem setX_params (s : State) (r : Reg32) (v : DWord) : (s.setX r v).params = s.params := rfl
@[simp] theorem setX_gpr (s : State) (r : Reg32) (v : DWord) : (s.setX r v).gpr = s.gpr.set r.index v := rfl
@[simp] theorem setX_eip (s : State) (r : Reg32) (v : DWord) : (s.setX r v).eip = s.eip := rfl
@[simp] theorem setX_flags (s : State) (r : Reg32) (v : DWord) : (s.setX r v).flags = s.flags := rfl
@[simp] theorem setX_seg (s : State) (r : Reg32) (v : DWord) : (s.setX r v).seg = s.seg := rfl
@[simp] theorem setX_fpr (s : State) (r : Reg32) (v : DWord) : (s.setX r v).fpr = s.fpr := rfl
@[simp] theorem setX_tagWord (s : State) (r : Reg32) (v : DWord) : (s.setX r v).tagWord = s.tagWord := rfl
@[simp] theorem setX_statusWord (s : State) (r : Reg32) (v : DWord) : (s.setX r v).statusWord = s.statusWord := rfl
@[simp] theorem setX_controlWord (s : State) (r : Reg32) (v : DWord) : (s.setX r v).controlWord = s.controlWord := rfl
@[simp] theorem setX_fpInstrPointer (s : State) (r : Reg32) (v : DWord) : (s.setX r v).fpInstrPointer = s.fpInstrPointer := rfl
@[simp] theorem setX_cr0 (s : State) (r : Reg32) (v : DWord) : (s.setX r v).cr0 = s.cr0 := rfl
@[simp] theorem setX_cr2 (s : State) (r : Reg32) (v : DWord) : (s.setX r v).cr2 = s.cr2 := rfl
@[simp] theorem setX_fpExcPending (s : State) (r : Reg32) (v : DWord) : (s.setX r v).fpExcPending = s.fpExcPending := rfl
@[simp] theorem setX_ferr (s : State) (r : Reg32) (v : DWord) : (s.setX r v).ferr = s.ferr := rfl
@[simp] theorem setX_mem (s : State) (r : Reg32) (v : DWord) : (s.setX r v).mem = s.mem := rfl
@[simp] theorem setX_drawCount (s : State) (r : Reg32) (v : DWord) : (s.setX r v).drawCount = s.drawCount := rfl

@[simp] theorem setMm_params (s : State) (r : MmReg) (v : QWord) : (s.setMm r v).params = s.params := rfl
@[simp] theorem setMm_gpr (s : State) (r : MmReg) (v : QWord) : (s.setMm r v).gpr = s.gpr := rfl
@[simp] theorem setMm_eip (s : State) (r : MmReg) (v : QWord) : (s.setMm r v).eip = s.eip := rfl
@[simp] theorem setMm_flags (s : State) (r : MmReg) (v : QWord) : (s.setMm r v).flags = s.flags := rfl
@[simp] theorem setMm_seg (s : State) (r : MmReg) (v : QWord) : (s.setMm r v).seg = s.seg := rfl
@[simp] theorem setMm_fpr (s : State) (r : MmReg) (v : QWord) : (s.setMm r v).fpr = s.fpr.set r.index (0xFFFF#16 ++ v) := rfl
@[simp] theorem setMm_tagWord (s : State) (r : MmReg) (v : QWord) : (s.setMm r v).tagWord = s.tagWord := rfl
@[simp] theorem setMm_statusWord (s : State) (r : MmReg) (v : QWord) : (s.setMm r v).statusWord = s.statusWord := rfl
@[simp] theorem setMm_controlWord (s : State) (r : MmReg) (v : QWord) : (s.setMm r v).controlWord = s.controlWord := rfl
@[simp] theorem setMm_fpInstrPointer (s : State) (r : MmReg) (v : QWord) : (s.setMm r v).fpInstrPointer = s.fpInstrPointer := rfl
@[simp] theorem setMm_cr0 (s : State) (r : MmReg) (v : QWord) : (s.setMm r v).cr0 = s.cr0 := rfl
@[simp] theorem setMm_cr2 (s : State) (r : MmReg) (v : QWord) : (s.setMm r v).cr2 = s.cr2 := rfl
@[simp] theorem setMm_fpExcPending (s : State) (r : MmReg) (v : QWord) : (s.setMm r v).fpExcPending = s.fpExcPending := rfl
@[simp] theorem setMm_ferr (s : State) (r : MmReg) (v : QWord) : (s.setMm r v).ferr = s.ferr := rfl
@[simp] theorem setMm_mem (s : State) (r : MmReg) (v : QWord) : (s.setMm r v).mem = s.mem := rfl
@[simp] theorem setMm_drawCount (s : State) (r : MmReg) (v : QWord) : (s.setMm r v).drawCount = s.drawCount := rfl

@[simp] theorem advance_params (s : State) (n : Nat) : (s.advance n).params = s.params := rfl
@[simp] theorem advance_gpr (s : State) (n : Nat) : (s.advance n).gpr = s.gpr := rfl
@[simp] theorem advance_eip (s : State) (n : Nat) : (s.advance n).eip = s.eip + BitVec.ofNat 32 n := rfl
@[simp] theorem advance_flags (s : State) (n : Nat) : (s.advance n).flags = s.flags := rfl
@[simp] theorem advance_seg (s : State) (n : Nat) : (s.advance n).seg = s.seg := rfl
@[simp] theorem advance_fpr (s : State) (n : Nat) : (s.advance n).fpr = s.fpr := rfl
@[simp] theorem advance_tagWord (s : State) (n : Nat) : (s.advance n).tagWord = s.tagWord := rfl
@[simp] theorem advance_statusWord (s : State) (n : Nat) : (s.advance n).statusWord = s.statusWord := rfl
@[simp] theorem advance_controlWord (s : State) (n : Nat) : (s.advance n).controlWord = s.controlWord := rfl
@[simp] theorem advance_fpInstrPointer (s : State) (n : Nat) : (s.advance n).fpInstrPointer = s.fpInstrPointer := rfl
@[simp] theorem advance_cr0 (s : State) (n : Nat) : (s.advance n).cr0 = s.cr0 := rfl
@[simp] theorem advance_cr2 (s : State) (n : Nat) : (s.advance n).cr2 = s.cr2 := rfl
@[simp] theorem advance_fpExcPending (s : State) (n : Nat) : (s.advance n).fpExcPending = s.fpExcPending := rfl
@[simp] theorem advance_ferr (s : State) (n : Nat) : (s.advance n).ferr = s.ferr := rfl
@[simp] theorem advance_mem (s : State) (n : Nat) : (s.advance n).mem = s.mem := rfl
@[simp] theorem advance_drawCount (s : State) (n : Nat) : (s.advance n).drawCount = s.drawCount := rfl

@[simp] theorem commit_params (s : State) (tags : Word) (n : Nat) : (commit tags n s).params = s.params := rfl
@[simp] theorem commit_gpr (s : State) (tags : Word) (n : Nat) : (commit tags n s).gpr = s.gpr := rfl
@[simp] theorem commit_eip (s : State) (tags : Word) (n : Nat) : (commit tags n s).eip = s.eip + BitVec.ofNat 32 n := rfl
@[simp] theorem commit_flags (s : State) (tags : Word) (n : Nat) : (commit tags n s).flags = s.flags := rfl
@[simp] theorem commit_seg (s : State) (tags : Word) (n : Nat) : (commit tags n s).seg = s.seg := rfl
@[simp] theorem commit_fpr (s : State) (tags : Word) (n : Nat) : (commit tags n s).fpr = s.fpr := rfl
@[simp] theorem commit_tagWord (s : State) (tags : Word) (n : Nat) : (commit tags n s).tagWord = tags := rfl
@[simp] theorem commit_statusWord (s : State) (tags : Word) (n : Nat) : (commit tags n s).statusWord = clearTos s.statusWord := rfl
@[simp] theorem commit_controlWord (s : State) (tags : Word) (n : Nat) : (commit tags n s).controlWord = s.controlWord := rfl
@[simp] theorem commit_fpInstrPointer (s : State) (tags : Word) (n : Nat) : (commit tags n s).fpInstrPointer = s.fpInstrPointer := rfl
@[simp] theorem commit_cr0 (s : State) (tags : Word) (n : Nat) : (commit tags n s).cr0 = s.cr0 := rfl
@[simp] theorem commit_cr2 (s : State) (tags : Word) (n : Nat) : (commit tags n s).cr2 = s.cr2 := rfl
@[simp] theorem commit_fpExcPending (s : State) (tags : Word) (n : Nat) : (commit tags n s).fpExcPending = s.fpExcPending := rfl
@[simp] theorem commit_ferr (s : State) (tags : Word) (n : Nat) : (commit tags n s).ferr = s.ferr := rfl
@[simp] theorem commit_mem (s : State) (tags : Word) (n : Nat) : (commit tags n s).mem = s.mem := rfl
@[simp] theorem commit_drawCount (s : State) (tags : Word) (n : Nat) : (commit tags n s).drawCount = s.drawCount := rfl

@[simp] theorem x_setX_same (s : State) (r : Reg32) (v : DWord) : (s.setX r v).x r = v := by
  simp [State.x, State.setX]

theorem x_setX_other (s : State) {r q : Reg32} (v : DWord) (h : q ≠ r) : (s.setX r v).x q = s.x q := by
  have hi : r.index.val ≠ q.index.val := fun e => h (Reg32.index_inj.1 (Fin.ext e)).symm
  simp [State.x, State.setX, hi]

@[simp] theorem fp_setMm_same (s : State) (r : MmReg) (v : QWord) : (s.setMm r v).fp r = 0xFFFF#16 ++ v := by
  simp [State.fp, State.setMm]

theorem fp_setMm_other (s : State) {r q : MmReg} (v : QWord) (h : q ≠ r) : (s.setMm r v).fp q = s.fp q := by
  have hi : r.index.val ≠ q.index.val := fun e => h (MmReg.index_inj.1 (Fin.ext e)).symm
  simp [State.fp, State.setMm, hi]

@[simp] theorem mm_setMm_same (s : State) (r : MmReg) (v : QWord) : (s.setMm r v).mm r = v := by
  simp only [State.mm, fp_setMm_same]
  exact extract_append_low 0xFFFF#16 v

theorem mm_setMm_other (s : State) {r q : MmReg} (v : QWord) (h : q ≠ r) : (s.setMm r v).mm q = s.mm q := by
  simp only [State.mm, fp_setMm_other s v h]

@[simp] theorem exponentPart_setMm_same (s : State) (r : MmReg) (v : QWord) :
    (s.setMm r v).exponentPart r = 0xFFFF#16 := by
  simp only [State.exponentPart, fp_setMm_same]
  exact extract_append_high 0xFFFF#16 v

@[simp] theorem x_setMm (s : State) (r : MmReg) (v : QWord) (q : Reg32) : (s.setMm r v).x q = s.x q := rfl
@[simp] theorem mm_setX (s : State) (r : Reg32) (v : DWord) (q : MmReg) : (s.setX r v).mm q = s.mm q := rfl
@[simp] theorem fp_setX (s : State) (r : Reg32) (v : DWord) (q : MmReg) : (s.setX r v).fp q = s.fp q := rfl
@[simp] theorem x_commit (s : State) (tags : Word) (n : Nat) (q : Reg32) : (commit tags n s).x q = s.x q := rfl
@[simp] theorem mm_commit (s : State) (tags : Word) (n : Nat) (q : MmReg) : (commit tags n s).mm q = s.mm q := rfl
@[simp] theorem fp_commit (s : State) (tags : Word) (n : Nat) (q : MmReg) : (commit tags n s).fp q = s.fp q := rfl

/-- TOS is 0 after a commit (R147). -/
@[simp] theorem tos_commit (s : State) (tags : Word) (n : Nat) : (commit tags n s).tos = 0 := by
  show (clearTos s.statusWord).extractLsb' 11 3 = 0#3
  ext i hi
  have : i = 0 ∨ i = 1 ∨ i = 2 := by omega
  rcases this with rfl | rfl | rfl <;> simp [clearTos]

/-- Every tag is Valid after a commit (R146). -/
@[simp] theorem tag_commit_valid (s : State) (n : Nat) (r : MmReg) : (commit tagsValid n s).tag r = 0b00#2 := by
  show (0x0000#16).extractLsb' (2 * r.index.val) 2 = 0b00#2
  cases r <;> decide

/-- Every tag is Empty after EMMS (R171). -/
@[simp] theorem tag_commit_empty (s : State) (n : Nat) (r : MmReg) : (commit tagsEmpty n s).tag r = 0b11#2 := by
  show (0xFFFF#16).extractLsb' (2 * r.index.val) 2 = 0b11#2
  cases r <;> decide

/-- The rest of the status word is kept (R149). -/
theorem clearTos_other (w : Word) (i : Nat) (h : i < 11 ∨ 13 < i) : (clearTos w).getLsbD i = w.getLsbD i := by
  have all : ∀ k : Fin 16, (k.val < 11 ∨ 13 < k.val) → (0xC7FF#16).getLsbD k.val = true := by decide
  by_cases hi : i < 16
  · simp [clearTos, all ⟨i, hi⟩ h]
  · simp [clearTos, BitVec.getLsbD_of_ge _ _ (by omega : 16 ≤ i)]

end Sys2Proof.Machine
end

