-- ==== Sys2Proof/Laws/Ops.lean ====
section
/-! SUPPORT. For each shared operation, what it can do, said once. -/

namespace Sys2Proof.Machine

/-! ### Results -/

@[simp] theorem andThen_next {α β : Type} (a : α) (f : α → Result β) : andThen (.next a) f = f a := rfl
@[simp] theorem andThen_fault {α β : Type} (e : Fault) (f : α → Result β) : andThen (.fault e) f = .fault e := rfl
@[simp] theorem andThen_refused {α β : Type} (r : Refusal) (f : α → Result β) :
    andThen (.refused r) f = .refused r := rfl

/-- A result went on exactly where both parts did. -/
theorem andThen_eq_next {α β : Type} {x : Result α} {f : α → Result β} {b : β} :
    andThen x f = .next b ↔ ∃ a, x = .next a ∧ f a = .next b := by
  cases x <;> simp [andThen]

/-- One answer for each element: as many, and each the element's own. -/
theorem forEach_eq_next {α β : Type} {f : α → Result β} {xs : List α} {ys : List β} :
    forEach f xs = .next ys ↔ xs.length = ys.length ∧ ∀ p ∈ xs.zip ys, f p.1 = .next p.2 := by
  induction xs generalizing ys with
  | nil => cases ys <;> simp [forEach]
  | cons x xs ih =>
    simp only [forEach, andThen_eq_next]
    constructor
    · rintro ⟨y, hy, zs, hzs, h⟩
      obtain ⟨rfl⟩ := h
      have := ih.1 hzs
      simp only [List.length_cons, List.zip_cons_cons, List.mem_cons, forall_eq_or_imp]
      exact ⟨by omega, hy, this.2⟩
    · cases ys with
      | nil => simp
      | cons y ys =>
        simp only [List.length_cons, List.zip_cons_cons, List.mem_cons, forall_eq_or_imp]
        rintro ⟨hl, hy, h⟩
        exact ⟨y, hy, ys, ih.2 ⟨by omega, h⟩, rfl⟩

theorem forEach_length {α β : Type} {f : α → Result β} {xs : List α} {ys : List β} (h : forEach f xs = .next ys) :
    ys.length = xs.length := (forEach_eq_next.1 h).1.symm

/-! ### Memory -/

/-- `Translate` gives one address for each byte (R12). -/
theorem translateBytes_length {s : State} {g : SegReg} {ea : DWord} {n : Nat} {k : AccessKind} {addrs : List Nat}
    (h : translateBytes s g ea n k = .next addrs) : addrs.length = n := by
  simp only [translateBytes, andThen_eq_next] at h
  obtain ⟨l, hl, _, _, p, hp, hm⟩ := h
  rw [forEach_length hm, forEach_length hp, forEach_length hl, List.length_map, List.length_range]

/-- Only a 32-bit linear address has a physical one (R76). -/
theorem physicalOf_lt {s : State} {k : AccessKind} {l p : Nat} (h : physicalOf s k l = .next p) : l < 2 ^ 32 := by
  unfold physicalOf at h
  split_ifs at h with hl
  exact Nat.lt_of_not_le hl

/-- `Translate` reads the parameters and the segment registers only. -/
theorem translateBytes_congr {s t : State} (hp : t.params = s.params) (hs : t.seg = s.seg) (g : SegReg) (ea : DWord)
    (n : Nat) (k : AccessKind) : translateBytes t g ea n k = translateBytes s g ea n k := by
  have h1 : linearOf t g k = linearOf s g k := by
    funext o; unfold linearOf segRuleApplies State.selector; rw [hp, hs]
  have h2 : physicalOf t k = physicalOf s k := by funext o; unfold physicalOf; rw [hp]
  have h3 : checkMapped t = checkMapped s := by funext o; unfold checkMapped; rw [hp]
  have h4 : checkAligned t = checkAligned s := by funext o; unfold checkAligned; rw [hp]
  unfold translateBytes; rw [h1, h2, h3, h4]

/-- What a memory read gives: the bytes at the translated addresses (R22). -/
theorem memRead_eq_next {s : State} {g : SegReg} {ea : DWord} {n : Nat} {bs : List Byte} :
    memRead s g ea n = .next bs ↔
      ∃ addrs, translateBytes s g ea n .read = .next addrs ∧ addrs.map (Memory.read s.mem) = bs := by
  simp [memRead, andThen_eq_next]

theorem checkStore_eq_next {s : State} {addrs : List Nat} {u : Unit} :
    checkStore s addrs = .next u ↔ ∀ a ∈ addrs, inText s a = false := by
  unfold checkStore
  split
  · rename_i a h
    simp only [reduceCtorEq, false_iff, not_forall]
    exact ⟨a, List.mem_of_find?_eq_some h, by simp [List.find?_some h]⟩
  · rename_i h
    simpa using h

/-- What a memory write does: the bytes at the translated addresses, none of them program text; nothing else. -/
theorem memWrite_eq_next {s t : State} {g : SegReg} {ea : DWord} {bytes : List Byte} :
    memWrite s g ea bytes = .next t ↔
      ∃ addrs, translateBytes s g ea bytes.length .write = .next addrs ∧ (∀ a ∈ addrs, inText s a = false) ∧
        t = { s with mem := Memory.writeAll s.mem addrs bytes } := by
  simp only [memWrite, andThen_eq_next, checkStore_eq_next, Host.Outcome.next.injEq]
  constructor
  · rintro ⟨a, h, _, hc, e⟩; exact ⟨a, h, hc, e.symm⟩
  · rintro ⟨a, h, hc, e⟩; exact ⟨a, h, (), hc, e.symm⟩

/-! ### Fetching -/

/-- A fetched address is what `Translate` gives. -/
theorem refuseAtLimit_eq_next {α : Type} {x : Result α} {a : α} : refuseAtLimit x = .next a ↔ x = .next a := by
  unfold refuseAtLimit; split <;> simp

/-- A fetch's exception is one of `Translate`, and no limit violation (R48). -/
theorem refuseAtLimit_eq_fault {α : Type} {x : Result α} {f : Fault} :
    refuseAtLimit x = .fault f ↔ x = .fault f ∧ ∀ g, f ≠ .limitViolation g := by
  unfold refuseAtLimit
  split
  · simp
  · rename_i g
    simp only [reduceCtorEq, Host.Outcome.fault.injEq, false_iff, not_and, not_forall, not_not]
    rintro rfl; exact ⟨g, rfl⟩
  · rename_i h e hne
    simp only [Host.Outcome.fault.injEq, iff_self_and]
    rintro rfl g rfl; exact hne g rfl
  · simp

/-- A byte that is fetched stands below 2^32 (R48). -/
theorem fetchByte_lt {s : State} {k : Nat} {b : Byte} (h : fetchByte s k = .next b) : s.eip.toNat + k < 2 ^ 32 := by
  by_contra hk
  rw [fetchByte, fetchAddr, if_pos (Nat.le_of_not_lt hk)] at h
  cases h

/-- A fetch from below 2^32 that may go on past it is stopped. -/
theorem fetchBytes_stops {s : State} {n k : Nat} (hk : s.eip.toNat + k ≤ 2 ^ 32) (hn : 2 ^ 32 < s.eip.toNat + k + n) :
    (fetchBytes s n k).2 ≠ none := by
  induction n generalizing k with
  | zero => omega
  | succ n ih =>
    unfold fetchBytes
    cases h : fetchByte s k with
    | next b => have := fetchByte_lt h; exact ih (by omega) (by omega)
    | fault f => simp
    | refused r => simp

/-- What `fetchAll` gives is all that can be fetched: something stopped it. -/
theorem fetchAll_stops (s : State) : (fetchAll s).2 ≠ none :=
  fetchBytes_stops (Nat.le_of_lt s.eip.isLt) (by omega)

/-! ### MMX instructions -/

/-- The checks pass exactly where the machine is ready and there is no LOCK prefix (R141 to R144). -/
theorem mmxChecks_eq_next {pfx : List Prefix} {s : State} {u : Unit} :
    mmxChecks pfx s = .next u ↔ mmxReady s = true ∧ Prefix.lock ∉ pfx := by
  unfold mmxChecks mmxReady raise
  cases s.params.hasMmx <;> cases s.em <;> cases s.params.cr0TsModelled <;> cases s.ts <;> cases s.fpExcPending <;>
    by_cases hl : Prefix.lock ∈ pfx <;> simp [hl]

/-- What an instruction with an MMX register destination does, where it completes (R148, R146, R147). -/
theorem mmxToReg_eq_next {α : Type} {pfx : List Prefix} {n : Nat} {dst : MmReg} {read : State → Result α}
    {compute : QWord → α → QWord} {s t : State} :
    mmxToReg pfx n dst read compute s = .next t ↔
      mmxReady s = true ∧ Prefix.lock ∉ pfx ∧
        ∃ v, read s = .next v ∧ t = commit tagsValid n (s.setMm dst (compute (s.mm dst) v)) := by
  simp only [mmxToReg, andThen_eq_next, mmxChecks_eq_next, Host.Outcome.next.injEq]
  constructor
  · rintro ⟨_, ⟨h1, h2⟩, v, hv, e⟩; exact ⟨h1, h2, v, hv, e.symm⟩
  · rintro ⟨h1, h2, v, hv, e⟩; exact ⟨(), ⟨h1, h2⟩, v, hv, e.symm⟩

/-- What an instruction with an integer register destination does, where it completes. -/
theorem mmxToGp_eq_next {pfx : List Prefix} {n : Nat} {dst : Reg32} {value : State → DWord} {s t : State} :
    mmxToGp pfx n dst value s = .next t ↔
      mmxReady s = true ∧ Prefix.lock ∉ pfx ∧ t = commit tagsValid n (s.setX dst (value s)) := by
  simp only [mmxToGp, andThen_eq_next, mmxChecks_eq_next, Host.Outcome.next.injEq]
  constructor
  · rintro ⟨_, ⟨h1, h2⟩, e⟩; exact ⟨h1, h2, e.symm⟩
  · rintro ⟨h1, h2, e⟩; exact ⟨(), ⟨h1, h2⟩, e.symm⟩

/-- What an instruction with a memory destination does, where it completes (R152). -/
theorem mmxToMem_eq_next {pfx : List Prefix} {n : Nat} {dst : MemRef} {bytes : State → List Byte} {s t : State} :
    mmxToMem pfx n dst bytes s = .next t ↔
      mmxReady s = true ∧ Prefix.lock ∉ pfx ∧
        ∃ addrs, translateBytes s (operandSeg pfx dst) (dst.ea s) (bytes s).length .write = .next addrs ∧
          (∀ a ∈ addrs, inText s a = false) ∧
          t = commit tagsValid n { s with mem := Memory.writeAll s.mem addrs (bytes s) } := by
  simp only [mmxToMem, andThen_eq_next, mmxChecks_eq_next, memWrite_eq_next, Host.Outcome.next.injEq]
  constructor
  · rintro ⟨_, ⟨h1, h2⟩, u, ⟨a, h, hc, e⟩, e'⟩; exact ⟨h1, h2, a, h, hc, by rw [← e', e]⟩
  · rintro ⟨h1, h2, a, h, hc, e⟩; exact ⟨(), ⟨h1, h2⟩, _, ⟨a, h, hc, rfl⟩, e.symm⟩

end Sys2Proof.Machine
end

