-- ==== Sys2Proof/Laws/Exec.lean ====
section
/-! SUPPORT. What an MMX instruction is made of: each of the 57 is one of four shapes, so that a statement about all of them
needs four cases. -/

namespace Sys2Proof.Machine

theorem memRead_eq_fault {s : State} {g : SegReg} {ea : DWord} {n : Nat} {f : Fault} :
    memRead s g ea n = .fault f ↔ translateBytes s g ea n .read = .fault f := by
  unfold memRead; cases translateBytes s g ea n .read <;> simp

theorem memWrite_eq_fault {s : State} {g : SegReg} {ea : DWord} {bytes : List Byte} {f : Fault} :
    memWrite s g ea bytes = .fault f ↔ translateBytes s g ea bytes.length .write = .fault f := by
  unfold memWrite
  cases translateBytes s g ea bytes.length .write with
  | next addrs => simp only [andThen_next]; unfold checkStore; split <;> simp
  | fault e => simp
  | refused r => simp

/-- The source of `i` raises an exception only where its memory operand's translation does (R145). -/
def sourceFaults (i : Instr) {α : Type} (read : State → Result α) : Prop :=
  ∀ s f, read s = .fault f → ∃ m n, i.memRef = some m ∧ (n = 4 ∨ n = 8) ∧
    translateBytes s (operandSeg i.prefixes m) (m.ea s) n .read = .fault f

theorem readMm64_fault {pfx : List Prefix} {src : MmRm} {s : State} {f : Fault} (h : readMm64 pfx src s = .fault f) :
    ∃ m, src.memRef = some m ∧ translateBytes s (operandSeg pfx m) (m.ea s) 8 .read = .fault f := by
  cases src with
  | reg r => simp [readMm64] at h
  | mem m =>
    refine ⟨m, rfl, memRead_eq_fault.1 ?_⟩
    simp only [readMm64, load64] at h
    cases hr : memRead s (operandSeg pfx m) (m.ea s) 8 <;> simp_all

theorem load32_fault {pfx : List Prefix} {m : MemRef} {s : State} {f : Fault} (h : load32 pfx m s = .fault f) :
    translateBytes s (operandSeg pfx m) (m.ea s) 4 .read = .fault f := by
  refine memRead_eq_fault.1 ?_
  simp only [load32] at h
  cases hr : memRead s (operandSeg pfx m) (m.ea s) 4 <;> simp_all

theorem readMm32_fault {pfx : List Prefix} {src : MmRm} {s : State} {f : Fault} (h : readMm32 pfx src s = .fault f) :
    ∃ m, src.memRef = some m ∧ translateBytes s (operandSeg pfx m) (m.ea s) 4 .read = .fault f := by
  cases src with
  | reg r => simp [readMm32] at h
  | mem m => exact ⟨m, rfl, load32_fault h⟩

theorem readGp32_fault {pfx : List Prefix} {src : GpRm} {s : State} {f : Fault} (h : readGp32 pfx src s = .fault f) :
    ∃ m, src.memRef = some m ∧ translateBytes s (operandSeg pfx m) (m.ea s) 4 .read = .fault f := by
  cases src with
  | reg r => simp [readGp32] at h
  | mem m => exact ⟨m, rfl, load32_fault h⟩

/-- The instruction is, in every state, the step of R150 with this MMX register as its destination. -/
def IsToReg (i : Instr) : Prop :=
  ∃ (dst : MmReg) (α : Type) (read : State → Result α) (compute : QWord → α → QWord),
    i.mmDst = some dst ∧ i.gpDst = none ∧ i.storeDst = none ∧ isEmms i = false ∧
    (∀ s, exec i s = mmxToReg i.prefixes i.length dst read compute s) ∧ sourceFaults i read

/-- ... with an integer register as its destination. -/
def IsToGp (i : Instr) : Prop :=
  ∃ (dst : Reg32) (value : State → DWord), i.mmDst = none ∧ i.gpDst = some dst ∧ i.storeDst = none ∧ isEmms i = false ∧
    ∀ s, exec i s = mmxToGp i.prefixes i.length dst value s

/-- ... with `n` bytes of memory as its destination. -/
def IsToMem (i : Instr) : Prop :=
  ∃ (m : MemRef) (n : Nat) (bytes : State → List Byte), i.mmDst = none ∧ i.gpDst = none ∧ i.storeDst = some (m, n) ∧
    i.memRef = some m ∧ (n = 4 ∨ n = 8) ∧ isEmms i = false ∧ (∀ s, (bytes s).length = n) ∧
    ∀ s, exec i s = mmxToMem i.prefixes i.length m bytes s

theorem isToReg_rm64 {i : Instr} {pfx : List Prefix} {dst : MmReg} {src : MmRm} {compute : QWord → QWord → QWord}
    (hs : i.shape = .rmMm pfx src) (h1 : i.mmDst = some dst) (h2 : i.gpDst = none) (h3 : i.storeDst = none)
    (h4 : isEmms i = false) (hx : ∀ s, exec i s = mmxRm64 pfx dst src compute s) : IsToReg i := by
  refine ⟨dst, QWord, readMm64 pfx src, compute, h1, h2, h3, h4, ?_, ?_⟩
  · simp only [Instr.prefixes, Instr.length, hs]; exact hx
  · intro s f h
    obtain ⟨m, hm, ht⟩ := readMm64_fault h
    exact ⟨m, 8, by simpa [Instr.memRef, hs, Shape.memRef] using hm, .inr rfl, by simp only [Instr.prefixes, hs]; exact ht⟩

theorem isToReg_rm32 {i : Instr} {pfx : List Prefix} {dst : MmReg} {src : MmRm} {compute : QWord → DWord → QWord}
    (hs : i.shape = .rmMm pfx src) (h1 : i.mmDst = some dst) (h2 : i.gpDst = none) (h3 : i.storeDst = none)
    (h4 : isEmms i = false) (hx : ∀ s, exec i s = mmxRm32 pfx dst src compute s) : IsToReg i := by
  refine ⟨dst, DWord, readMm32 pfx src, compute, h1, h2, h3, h4, ?_, ?_⟩
  · simp only [Instr.prefixes, Instr.length, hs]; exact hx
  · intro s f h
    obtain ⟨m, hm, ht⟩ := readMm32_fault h
    exact ⟨m, 4, by simpa [Instr.memRef, hs, Shape.memRef] using hm, .inl rfl, by simp only [Instr.prefixes, hs]; exact ht⟩

theorem isToReg_imm {i : Instr} {pfx : List Prefix} {dst : MmReg} {imm : Byte} {compute : QWord → Nat → QWord}
    (hs : i.shape = .shi pfx) (h1 : i.mmDst = some dst) (h2 : i.gpDst = none) (h3 : i.storeDst = none)
    (h4 : isEmms i = false) (hx : ∀ s, exec i s = mmxImm pfx dst imm compute s) : IsToReg i :=
  ⟨dst, Nat, fun _ => .next imm.toNat, compute, h1, h2, h3, h4,
    by simp only [Instr.prefixes, Instr.length, hs]; exact hx, by intro s f h; cases h⟩

theorem isToReg_movdLoad (pfx : List Prefix) (dst : MmReg) (src : GpRm) : IsToReg (.movdLoad pfx dst src) :=
  ⟨dst, DWord, readGp32 pfx src, fun _ v => v.setWidth 64, rfl, rfl, rfl, rfl, fun _ => rfl, fun s f h => by
    obtain ⟨m, hm, ht⟩ := readGp32_fault h
    exact ⟨m, 4, hm, .inl rfl, ht⟩⟩

/-- Every MMX instruction is one of four: into an MMX register, into an integer register, into memory, or EMMS. -/
theorem mmx_shapes (i : Instr) (h : i.isMmx = true) :
    IsToReg i ∨ IsToGp i ∨ IsToMem i ∨ ∃ pfx, i = .emms pfx := by
  cases i with
  | punpcklbw pfx dst src => exact .inl (isToReg_rm32 rfl rfl rfl rfl rfl fun s => (rfl : execPunpcklbw pfx dst src s = _))
  | punpcklwd pfx dst src => exact .inl (isToReg_rm32 rfl rfl rfl rfl rfl fun s => (rfl : execPunpcklwd pfx dst src s = _))
  | punpckldq pfx dst src => exact .inl (isToReg_rm32 rfl rfl rfl rfl rfl fun s => (rfl : execPunpckldq pfx dst src s = _))
  | packsswb pfx dst src => exact .inl (isToReg_rm64 rfl rfl rfl rfl rfl fun s => (rfl : execPacksswb pfx dst src s = _))
  | pcmpgtb pfx dst src => exact .inl (isToReg_rm64 rfl rfl rfl rfl rfl fun s => (rfl : execPcmpgtb pfx dst src s = _))
  | pcmpgtw pfx dst src => exact .inl (isToReg_rm64 rfl rfl rfl rfl rfl fun s => (rfl : execPcmpgtw pfx dst src s = _))
  | pcmpgtd pfx dst src => exact .inl (isToReg_rm64 rfl rfl rfl rfl rfl fun s => (rfl : execPcmpgtd pfx dst src s = _))
  | packuswb pfx dst src => exact .inl (isToReg_rm64 rfl rfl rfl rfl rfl fun s => (rfl : execPackuswb pfx dst src s = _))
  | punpckhbw pfx dst src => exact .inl (isToReg_rm64 rfl rfl rfl rfl rfl fun s => (rfl : execPunpckhbw pfx dst src s = _))
  | punpckhwd pfx dst src => exact .inl (isToReg_rm64 rfl rfl rfl rfl rfl fun s => (rfl : execPunpckhwd pfx dst src s = _))
  | punpckhdq pfx dst src => exact .inl (isToReg_rm64 rfl rfl rfl rfl rfl fun s => (rfl : execPunpckhdq pfx dst src s = _))
  | packssdw pfx dst src => exact .inl (isToReg_rm64 rfl rfl rfl rfl rfl fun s => (rfl : execPackssdw pfx dst src s = _))
  | movdLoad pfx dst src => exact .inl (isToReg_movdLoad pfx dst src)
  | movqLoad pfx dst src => exact .inl (isToReg_rm64 rfl rfl rfl rfl rfl fun s => (rfl : execMovqLoad pfx dst src s = _))
  | psrlwImm pfx dst imm => exact .inl (isToReg_imm rfl rfl rfl rfl rfl fun s => (rfl : execPsrlwImm pfx dst imm s = _))
  | psrawImm pfx dst imm => exact .inl (isToReg_imm rfl rfl rfl rfl rfl fun s => (rfl : execPsrawImm pfx dst imm s = _))
  | psllwImm pfx dst imm => exact .inl (isToReg_imm rfl rfl rfl rfl rfl fun s => (rfl : execPsllwImm pfx dst imm s = _))
  | psrldImm pfx dst imm => exact .inl (isToReg_imm rfl rfl rfl rfl rfl fun s => (rfl : execPsrldImm pfx dst imm s = _))
  | psradImm pfx dst imm => exact .inl (isToReg_imm rfl rfl rfl rfl rfl fun s => (rfl : execPsradImm pfx dst imm s = _))
  | pslldImm pfx dst imm => exact .inl (isToReg_imm rfl rfl rfl rfl rfl fun s => (rfl : execPslldImm pfx dst imm s = _))
  | psrlqImm pfx dst imm => exact .inl (isToReg_imm rfl rfl rfl rfl rfl fun s => (rfl : execPsrlqImm pfx dst imm s = _))
  | psllqImm pfx dst imm => exact .inl (isToReg_imm rfl rfl rfl rfl rfl fun s => (rfl : execPsllqImm pfx dst imm s = _))
  | pcmpeqb pfx dst src => exact .inl (isToReg_rm64 rfl rfl rfl rfl rfl fun s => (rfl : execPcmpeqb pfx dst src s = _))
  | pcmpeqw pfx dst src => exact .inl (isToReg_rm64 rfl rfl rfl rfl rfl fun s => (rfl : execPcmpeqw pfx dst src s = _))
  | pcmpeqd pfx dst src => exact .inl (isToReg_rm64 rfl rfl rfl rfl rfl fun s => (rfl : execPcmpeqd pfx dst src s = _))
  | emms pfx => exact .inr (.inr (.inr ⟨pfx, rfl⟩))
  | movdStore pfx dst src =>
    cases dst with
    | reg r => exact .inr (.inl ⟨r, _, rfl, rfl, rfl, rfl, fun _ => rfl⟩)
    | mem m => exact .inr (.inr (.inl ⟨m, 4, _, rfl, rfl, rfl, rfl, .inl rfl, rfl, fun _ => rfl, fun _ => rfl⟩))
  | movqStore pfx dst src =>
    cases dst with
    | reg r => exact .inl ⟨r, QWord, fun s => .next (s.mm src), fun _ v => v, rfl, rfl, rfl, rfl, fun _ => rfl,
        fun s f h => by cases h⟩
    | mem m => exact .inr (.inr (.inl ⟨m, 8, _, rfl, rfl, rfl, rfl, .inr rfl, rfl, fun _ => rfl, fun _ => rfl⟩))
  | cpuid => cases h
  | psrlw pfx dst src => exact .inl (isToReg_rm64 rfl rfl rfl rfl rfl fun s => (rfl : execPsrlw pfx dst src s = _))
  | psrld pfx dst src => exact .inl (isToReg_rm64 rfl rfl rfl rfl rfl fun s => (rfl : execPsrld pfx dst src s = _))
  | psrlq pfx dst src => exact .inl (isToReg_rm64 rfl rfl rfl rfl rfl fun s => (rfl : execPsrlq pfx dst src s = _))
  | pmullw pfx dst src => exact .inl (isToReg_rm64 rfl rfl rfl rfl rfl fun s => (rfl : execPmullw pfx dst src s = _))
  | psubusb pfx dst src => exact .inl (isToReg_rm64 rfl rfl rfl rfl rfl fun s => (rfl : execPsubusb pfx dst src s = _))
  | psubusw pfx dst src => exact .inl (isToReg_rm64 rfl rfl rfl rfl rfl fun s => (rfl : execPsubusw pfx dst src s = _))
  | pand pfx dst src => exact .inl (isToReg_rm64 rfl rfl rfl rfl rfl fun s => (rfl : execPand pfx dst src s = _))
  | paddusb pfx dst src => exact .inl (isToReg_rm64 rfl rfl rfl rfl rfl fun s => (rfl : execPaddusb pfx dst src s = _))
  | paddusw pfx dst src => exact .inl (isToReg_rm64 rfl rfl rfl rfl rfl fun s => (rfl : execPaddusw pfx dst src s = _))
  | pandn pfx dst src => exact .inl (isToReg_rm64 rfl rfl rfl rfl rfl fun s => (rfl : execPandn pfx dst src s = _))
  | psraw pfx dst src => exact .inl (isToReg_rm64 rfl rfl rfl rfl rfl fun s => (rfl : execPsraw pfx dst src s = _))
  | psrad pfx dst src => exact .inl (isToReg_rm64 rfl rfl rfl rfl rfl fun s => (rfl : execPsrad pfx dst src s = _))
  | pmulhw pfx dst src => exact .inl (isToReg_rm64 rfl rfl rfl rfl rfl fun s => (rfl : execPmulhw pfx dst src s = _))
  | psubsb pfx dst src => exact .inl (isToReg_rm64 rfl rfl rfl rfl rfl fun s => (rfl : execPsubsb pfx dst src s = _))
  | psubsw pfx dst src => exact .inl (isToReg_rm64 rfl rfl rfl rfl rfl fun s => (rfl : execPsubsw pfx dst src s = _))
  | por pfx dst src => exact .inl (isToReg_rm64 rfl rfl rfl rfl rfl fun s => (rfl : execPor pfx dst src s = _))
  | paddsb pfx dst src => exact .inl (isToReg_rm64 rfl rfl rfl rfl rfl fun s => (rfl : execPaddsb pfx dst src s = _))
  | paddsw pfx dst src => exact .inl (isToReg_rm64 rfl rfl rfl rfl rfl fun s => (rfl : execPaddsw pfx dst src s = _))
  | pxor pfx dst src => exact .inl (isToReg_rm64 rfl rfl rfl rfl rfl fun s => (rfl : execPxor pfx dst src s = _))
  | psllw pfx dst src => exact .inl (isToReg_rm64 rfl rfl rfl rfl rfl fun s => (rfl : execPsllw pfx dst src s = _))
  | pslld pfx dst src => exact .inl (isToReg_rm64 rfl rfl rfl rfl rfl fun s => (rfl : execPslld pfx dst src s = _))
  | psllq pfx dst src => exact .inl (isToReg_rm64 rfl rfl rfl rfl rfl fun s => (rfl : execPsllq pfx dst src s = _))
  | pmaddwd pfx dst src => exact .inl (isToReg_rm64 rfl rfl rfl rfl rfl fun s => (rfl : execPmaddwd pfx dst src s = _))
  | psubb pfx dst src => exact .inl (isToReg_rm64 rfl rfl rfl rfl rfl fun s => (rfl : execPsubb pfx dst src s = _))
  | psubw pfx dst src => exact .inl (isToReg_rm64 rfl rfl rfl rfl rfl fun s => (rfl : execPsubw pfx dst src s = _))
  | psubd pfx dst src => exact .inl (isToReg_rm64 rfl rfl rfl rfl rfl fun s => (rfl : execPsubd pfx dst src s = _))
  | paddb pfx dst src => exact .inl (isToReg_rm64 rfl rfl rfl rfl rfl fun s => (rfl : execPaddb pfx dst src s = _))
  | paddw pfx dst src => exact .inl (isToReg_rm64 rfl rfl rfl rfl rfl fun s => (rfl : execPaddw pfx dst src s = _))
  | paddd pfx dst src => exact .inl (isToReg_rm64 rfl rfl rfl rfl rfl fun s => (rfl : execPaddd pfx dst src s = _))
  | mov _ _ => cases h
  | test _ _ => cases h
  | jnz _ => cases h

/-- A base instruction always completes, and writes no memory, no floating-point state and nothing of the host's. -/
theorem base_next (i : Instr) (h : i.isMmx = false) (s : State) :
    ∃ t, exec i s = .next t ∧ t.params = s.params ∧ t.seg = s.seg ∧ t.fpr = s.fpr ∧ t.tagWord = s.tagWord ∧
      t.statusWord = s.statusWord ∧ t.controlWord = s.controlWord ∧ t.fpInstrPointer = s.fpInstrPointer ∧ t.cr0 = s.cr0 ∧
      t.cr2 = s.cr2 ∧ t.fpExcPending = s.fpExcPending ∧ t.ferr = s.ferr ∧ t.mem = s.mem := by
  cases i with
  | cpuid => exact ⟨_, rfl, rfl, rfl, rfl, rfl, rfl, rfl, rfl, rfl, rfl, rfl, rfl, rfl⟩
  | mov d v => exact ⟨_, rfl, rfl, rfl, rfl, rfl, rfl, rfl, rfl, rfl, rfl, rfl, rfl, rfl⟩
  | test d v => exact ⟨_, rfl, rfl, rfl, rfl, rfl, rfl, rfl, rfl, rfl, rfl, rfl, rfl, rfl⟩
  | jnz d =>
    simp only [exec, execJnz]
    split <;> exact ⟨_, rfl, rfl, rfl, rfl, rfl, rfl, rfl, rfl, rfl, rfl, rfl, rfl, rfl⟩
  | _ => cases h

end Sys2Proof.Machine
end

