-- ==== Sys2Proof/Laws/Lanes.lean ====
section
/-! SUPPORT. The elements of a packed value, and what clamping gives. -/

namespace Sys2Proof.Machine

/-- Byte `i` of the packed value is `f i` (R19). -/
theorem byteOf_packBytes (f : Nat → Byte) (i : Nat) (h : i < 8) : byteOf (packBytes f) i = f i := by
  have : i = 0 ∨ i = 1 ∨ i = 2 ∨ i = 3 ∨ i = 4 ∨ i = 5 ∨ i = 6 ∨ i = 7 := by omega
  rcases this with rfl | rfl | rfl | rfl | rfl | rfl | rfl | rfl <;>
  · ext k hk
    simp only [byteOf, packBytes, BitVec.getElem_extractLsb', BitVec.getLsbD_append]
    split_ifs <;> first | omega | exact (congrArg _ (by omega)).trans (BitVec.getLsbD_eq_getElem hk)

/-- Word `i` of the packed value is `f i` (R19). -/
theorem wordOf_packWords (f : Nat → Word) (i : Nat) (h : i < 4) : wordOf (packWords f) i = f i := by
  have : i = 0 ∨ i = 1 ∨ i = 2 ∨ i = 3 := by omega
  rcases this with rfl | rfl | rfl | rfl <;>
  · ext k hk
    simp only [wordOf, packWords, BitVec.getElem_extractLsb', BitVec.getLsbD_append]
    split_ifs <;> first | omega | exact (congrArg _ (by omega)).trans (BitVec.getLsbD_eq_getElem hk)

/-- Doubleword `i` of the packed value is `f i` (R19). -/
theorem dwordOf_packDwords (f : Nat → DWord) (i : Nat) (h : i < 2) : dwordOf (packDwords f) i = f i := by
  have : i = 0 ∨ i = 1 := by omega
  rcases this with rfl | rfl <;>
  · ext k hk
    simp only [dwordOf, packDwords, BitVec.getElem_extractLsb', BitVec.getLsbD_append]
    split_ifs <;> first | omega | exact (congrArg _ (by omega)).trans (BitVec.getLsbD_eq_getElem hk)

/-- Byte by byte (R230). -/
theorem byteOf_byBytes (f : Byte → Byte → Byte) (d s : QWord) (i : Nat) (h : i < 8) :
    byteOf (byBytes f d s) i = f (byteOf d i) (byteOf s i) := byteOf_packBytes _ i h

/-- Word by word (R230). -/
theorem wordOf_byWords (f : Word → Word → Word) (d s : QWord) (i : Nat) (h : i < 4) :
    wordOf (byWords f d s) i = f (wordOf d i) (wordOf s i) := wordOf_packWords _ i h

/-- Doubleword by doubleword (R230). -/
theorem dwordOf_byDwords (f : DWord → DWord → DWord) (d s : QWord) (i : Nat) (h : i < 2) :
    dwordOf (byDwords f d s) i = f (dwordOf d i) (dwordOf s i) := dwordOf_packDwords _ i h

theorem wordOf_shiftWords (f : Nat → Word → Word) (d : QWord) (c i : Nat) (h : i < 4) :
    wordOf (shiftWords f d c) i = f c (wordOf d i) := wordOf_packWords _ i h

theorem dwordOf_shiftDwords (f : Nat → DWord → DWord) (d : QWord) (c i : Nat) (h : i < 2) :
    dwordOf (shiftDwords f d c) i = f c (dwordOf d i) := dwordOf_packDwords _ i h

/-- A clamped integer lies in the range. -/
theorem clamp_mem {lo hi : Int} (h : lo ≤ hi) (x : Int) : lo ≤ clamp lo hi x ∧ clamp lo hi x ≤ hi := by
  unfold clamp; split_ifs <;> omega

/-- An integer of the range is not changed. -/
theorem clamp_of_mem {lo hi x : Int} (h1 : lo ≤ x) (h2 : x ≤ hi) : clamp lo hi x = x := by
  unfold clamp; split_ifs <;> omega

end Sys2Proof.Machine
end

