-- ==== Sys2Proof/Laws/PerInstr.lean ====
section
/-! SUPPORT. Statements made per instruction: the encoding of an instruction has the length of R117. -/

namespace Sys2Proof.Laws

/-- The encoding has as many bytes as the instruction is long (30_encoding.md R117). -/
def EncodedLength.Statement (i : Instr) : Prop := (encode i).length = i.length

theorem length_encodeMm (pfx : List Prefix) (op : Byte) (reg : BitVec 3) (rm : MmRm) :
    (encodeRm pfx op reg rm.field).length = rmLength pfx rm.extra := by
  simp [encodeRm, rmLength, MmRm.length_bytes]; omega

theorem length_encodeGp (pfx : List Prefix) (op : Byte) (reg : BitVec 3) (rm : GpRm) :
    (encodeRm pfx op reg rm.field).length = rmLength pfx rm.extra := by
  simp [encodeRm, rmLength, GpRm.length_bytes]; omega

theorem length_encodeShi (pfx : List Prefix) (op : Byte) (ext rm : BitVec 3) (imm : Byte) :
    (encodeShi pfx op ext rm imm).length = shiLength pfx := by
  simp [encodeShi, shiLength]

theorem EncodedLength.punpcklbw (pfx : List Prefix) (dst : MmReg) (src : MmRm) : EncodedLength.Statement (.punpcklbw pfx dst src) :=
 length_encodeMm pfx _ _ src

theorem EncodedLength.punpcklwd (pfx : List Prefix) (dst : MmReg) (src : MmRm) : EncodedLength.Statement (.punpcklwd pfx dst src) :=
 length_encodeMm pfx _ _ src

theorem EncodedLength.punpckldq (pfx : List Prefix) (dst : MmReg) (src : MmRm) : EncodedLength.Statement (.punpckldq pfx dst src) :=
 length_encodeMm pfx _ _ src

theorem EncodedLength.packsswb (pfx : List Prefix) (dst : MmReg) (src : MmRm) : EncodedLength.Statement (.packsswb pfx dst src) :=
 length_encodeMm pfx _ _ src

theorem EncodedLength.pcmpgtb (pfx : List Prefix) (dst : MmReg) (src : MmRm) : EncodedLength.Statement (.pcmpgtb pfx dst src) :=
 length_encodeMm pfx _ _ src

theorem EncodedLength.pcmpgtw (pfx : List Prefix) (dst : MmReg) (src : MmRm) : EncodedLength.Statement (.pcmpgtw pfx dst src) :=
 length_encodeMm pfx _ _ src

theorem EncodedLength.pcmpgtd (pfx : List Prefix) (dst : MmReg) (src : MmRm) : EncodedLength.Statement (.pcmpgtd pfx dst src) :=
 length_encodeMm pfx _ _ src

theorem EncodedLength.packuswb (pfx : List Prefix) (dst : MmReg) (src : MmRm) : EncodedLength.Statement (.packuswb pfx dst src) :=
 length_encodeMm pfx _ _ src

theorem EncodedLength.punpckhbw (pfx : List Prefix) (dst : MmReg) (src : MmRm) : EncodedLength.Statement (.punpckhbw pfx dst src) :=
 length_encodeMm pfx _ _ src

theorem EncodedLength.punpckhwd (pfx : List Prefix) (dst : MmReg) (src : MmRm) : EncodedLength.Statement (.punpckhwd pfx dst src) :=
 length_encodeMm pfx _ _ src

theorem EncodedLength.punpckhdq (pfx : List Prefix) (dst : MmReg) (src : MmRm) : EncodedLength.Statement (.punpckhdq pfx dst src) :=
 length_encodeMm pfx _ _ src

theorem EncodedLength.packssdw (pfx : List Prefix) (dst : MmReg) (src : MmRm) : EncodedLength.Statement (.packssdw pfx dst src) :=
 length_encodeMm pfx _ _ src

theorem EncodedLength.movdLoad (pfx : List Prefix) (dst : MmReg) (src : GpRm) : EncodedLength.Statement (.movdLoad pfx dst src) :=
 length_encodeGp pfx _ _ src

theorem EncodedLength.movqLoad (pfx : List Prefix) (dst : MmReg) (src : MmRm) : EncodedLength.Statement (.movqLoad pfx dst src) :=
 length_encodeMm pfx _ _ src

theorem EncodedLength.psrlwImm (pfx : List Prefix) (dst : MmReg) (imm : Byte) : EncodedLength.Statement (.psrlwImm pfx dst imm) :=
 length_encodeShi pfx _ _ _ imm

theorem EncodedLength.psrawImm (pfx : List Prefix) (dst : MmReg) (imm : Byte) : EncodedLength.Statement (.psrawImm pfx dst imm) :=
 length_encodeShi pfx _ _ _ imm

theorem EncodedLength.psllwImm (pfx : List Prefix) (dst : MmReg) (imm : Byte) : EncodedLength.Statement (.psllwImm pfx dst imm) :=
 length_encodeShi pfx _ _ _ imm

theorem EncodedLength.psrldImm (pfx : List Prefix) (dst : MmReg) (imm : Byte) : EncodedLength.Statement (.psrldImm pfx dst imm) :=
 length_encodeShi pfx _ _ _ imm

theorem EncodedLength.psradImm (pfx : List Prefix) (dst : MmReg) (imm : Byte) : EncodedLength.Statement (.psradImm pfx dst imm) :=
 length_encodeShi pfx _ _ _ imm

theorem EncodedLength.pslldImm (pfx : List Prefix) (dst : MmReg) (imm : Byte) : EncodedLength.Statement (.pslldImm pfx dst imm) :=
 length_encodeShi pfx _ _ _ imm

theorem EncodedLength.psrlqImm (pfx : List Prefix) (dst : MmReg) (imm : Byte) : EncodedLength.Statement (.psrlqImm pfx dst imm) :=
 length_encodeShi pfx _ _ _ imm

theorem EncodedLength.psllqImm (pfx : List Prefix) (dst : MmReg) (imm : Byte) : EncodedLength.Statement (.psllqImm pfx dst imm) :=
 length_encodeShi pfx _ _ _ imm

theorem EncodedLength.pcmpeqb (pfx : List Prefix) (dst : MmReg) (src : MmRm) : EncodedLength.Statement (.pcmpeqb pfx dst src) :=
 length_encodeMm pfx _ _ src

theorem EncodedLength.pcmpeqw (pfx : List Prefix) (dst : MmReg) (src : MmRm) : EncodedLength.Statement (.pcmpeqw pfx dst src) :=
 length_encodeMm pfx _ _ src

theorem EncodedLength.pcmpeqd (pfx : List Prefix) (dst : MmReg) (src : MmRm) : EncodedLength.Statement (.pcmpeqd pfx dst src) :=
 length_encodeMm pfx _ _ src

theorem EncodedLength.emms (pfx : List Prefix) : EncodedLength.Statement (.emms pfx) :=
 by
 simp [EncodedLength.Statement, encode, Instr.length, Instr.shape, Shape.length, zo2Length]

theorem EncodedLength.movdStore (pfx : List Prefix) (dst : GpRm) (src : MmReg) : EncodedLength.Statement (.movdStore pfx dst src) :=
 length_encodeGp pfx _ _ dst

theorem EncodedLength.movqStore (pfx : List Prefix) (dst : MmRm) (src : MmReg) : EncodedLength.Statement (.movqStore pfx dst src) :=
 length_encodeMm pfx _ _ dst

theorem EncodedLength.cpuid : EncodedLength.Statement .cpuid :=
 rfl

theorem EncodedLength.psrlw (pfx : List Prefix) (dst : MmReg) (src : MmRm) : EncodedLength.Statement (.psrlw pfx dst src) :=
 length_encodeMm pfx _ _ src

theorem EncodedLength.psrld (pfx : List Prefix) (dst : MmReg) (src : MmRm) : EncodedLength.Statement (.psrld pfx dst src) :=
 length_encodeMm pfx _ _ src

theorem EncodedLength.psrlq (pfx : List Prefix) (dst : MmReg) (src : MmRm) : EncodedLength.Statement (.psrlq pfx dst src) :=
 length_encodeMm pfx _ _ src

theorem EncodedLength.pmullw (pfx : List Prefix) (dst : MmReg) (src : MmRm) : EncodedLength.Statement (.pmullw pfx dst src) :=
 length_encodeMm pfx _ _ src

theorem EncodedLength.psubusb (pfx : List Prefix) (dst : MmReg) (src : MmRm) : EncodedLength.Statement (.psubusb pfx dst src) :=
 length_encodeMm pfx _ _ src

theorem EncodedLength.psubusw (pfx : List Prefix) (dst : MmReg) (src : MmRm) : EncodedLength.Statement (.psubusw pfx dst src) :=
 length_encodeMm pfx _ _ src

theorem EncodedLength.pand (pfx : List Prefix) (dst : MmReg) (src : MmRm) : EncodedLength.Statement (.pand pfx dst src) :=
 length_encodeMm pfx _ _ src

theorem EncodedLength.paddusb (pfx : List Prefix) (dst : MmReg) (src : MmRm) : EncodedLength.Statement (.paddusb pfx dst src) :=
 length_encodeMm pfx _ _ src

theorem EncodedLength.paddusw (pfx : List Prefix) (dst : MmReg) (src : MmRm) : EncodedLength.Statement (.paddusw pfx dst src) :=
 length_encodeMm pfx _ _ src

theorem EncodedLength.pandn (pfx : List Prefix) (dst : MmReg) (src : MmRm) : EncodedLength.Statement (.pandn pfx dst src) :=
 length_encodeMm pfx _ _ src

theorem EncodedLength.psraw (pfx : List Prefix) (dst : MmReg) (src : MmRm) : EncodedLength.Statement (.psraw pfx dst src) :=
 length_encodeMm pfx _ _ src

theorem EncodedLength.psrad (pfx : List Prefix) (dst : MmReg) (src : MmRm) : EncodedLength.Statement (.psrad pfx dst src) :=
 length_encodeMm pfx _ _ src

theorem EncodedLength.pmulhw (pfx : List Prefix) (dst : MmReg) (src : MmRm) : EncodedLength.Statement (.pmulhw pfx dst src) :=
 length_encodeMm pfx _ _ src

theorem EncodedLength.psubsb (pfx : List Prefix) (dst : MmReg) (src : MmRm) : EncodedLength.Statement (.psubsb pfx dst src) :=
 length_encodeMm pfx _ _ src

theorem EncodedLength.psubsw (pfx : List Prefix) (dst : MmReg) (src : MmRm) : EncodedLength.Statement (.psubsw pfx dst src) :=
 length_encodeMm pfx _ _ src

theorem EncodedLength.por (pfx : List Prefix) (dst : MmReg) (src : MmRm) : EncodedLength.Statement (.por pfx dst src) :=
 length_encodeMm pfx _ _ src

theorem EncodedLength.paddsb (pfx : List Prefix) (dst : MmReg) (src : MmRm) : EncodedLength.Statement (.paddsb pfx dst src) :=
 length_encodeMm pfx _ _ src

theorem EncodedLength.paddsw (pfx : List Prefix) (dst : MmReg) (src : MmRm) : EncodedLength.Statement (.paddsw pfx dst src) :=
 length_encodeMm pfx _ _ src

theorem EncodedLength.pxor (pfx : List Prefix) (dst : MmReg) (src : MmRm) : EncodedLength.Statement (.pxor pfx dst src) :=
 length_encodeMm pfx _ _ src

theorem EncodedLength.psllw (pfx : List Prefix) (dst : MmReg) (src : MmRm) : EncodedLength.Statement (.psllw pfx dst src) :=
 length_encodeMm pfx _ _ src

theorem EncodedLength.pslld (pfx : List Prefix) (dst : MmReg) (src : MmRm) : EncodedLength.Statement (.pslld pfx dst src) :=
 length_encodeMm pfx _ _ src

theorem EncodedLength.psllq (pfx : List Prefix) (dst : MmReg) (src : MmRm) : EncodedLength.Statement (.psllq pfx dst src) :=
 length_encodeMm pfx _ _ src

theorem EncodedLength.pmaddwd (pfx : List Prefix) (dst : MmReg) (src : MmRm) : EncodedLength.Statement (.pmaddwd pfx dst src) :=
 length_encodeMm pfx _ _ src

theorem EncodedLength.psubb (pfx : List Prefix) (dst : MmReg) (src : MmRm) : EncodedLength.Statement (.psubb pfx dst src) :=
 length_encodeMm pfx _ _ src

theorem EncodedLength.psubw (pfx : List Prefix) (dst : MmReg) (src : MmRm) : EncodedLength.Statement (.psubw pfx dst src) :=
 length_encodeMm pfx _ _ src

theorem EncodedLength.psubd (pfx : List Prefix) (dst : MmReg) (src : MmRm) : EncodedLength.Statement (.psubd pfx dst src) :=
 length_encodeMm pfx _ _ src

theorem EncodedLength.paddb (pfx : List Prefix) (dst : MmReg) (src : MmRm) : EncodedLength.Statement (.paddb pfx dst src) :=
 length_encodeMm pfx _ _ src

theorem EncodedLength.paddw (pfx : List Prefix) (dst : MmReg) (src : MmRm) : EncodedLength.Statement (.paddw pfx dst src) :=
 length_encodeMm pfx _ _ src

theorem EncodedLength.paddd (pfx : List Prefix) (dst : MmReg) (src : MmRm) : EncodedLength.Statement (.paddd pfx dst src) :=
 length_encodeMm pfx _ _ src

theorem EncodedLength.mov (dst : Reg32) (imm : DWord) : EncodedLength.Statement (.mov dst imm) :=
 rfl

theorem EncodedLength.test (src : Reg32) (imm : DWord) : EncodedLength.Statement (.test src imm) :=
 rfl

theorem EncodedLength.jnz (rel : Byte) : EncodedLength.Statement (.jnz rel) :=
 rfl

end Sys2Proof.Laws
end

