-- ==== Sys2Proof/Machine/Asm.lean ====
section
/-! DEFINITION. Assembler spelling (30_encoding.md R121, R122): mnemonic, destination first, hexadecimal constants that end
in h and start with a digit, memory operands in brackets with a size keyword. -/

namespace Sys2Proof

/-- The mnemonic of R118. -/
def Instr.mnemonic : Instr → String
  | .punpcklbw _ _ _ => "PUNPCKLBW"
  | .punpcklwd _ _ _ => "PUNPCKLWD"
  | .punpckldq _ _ _ => "PUNPCKLDQ"
  | .packsswb _ _ _ => "PACKSSWB"
  | .pcmpgtb _ _ _ => "PCMPGTB"
  | .pcmpgtw _ _ _ => "PCMPGTW"
  | .pcmpgtd _ _ _ => "PCMPGTD"
  | .packuswb _ _ _ => "PACKUSWB"
  | .punpckhbw _ _ _ => "PUNPCKHBW"
  | .punpckhwd _ _ _ => "PUNPCKHWD"
  | .punpckhdq _ _ _ => "PUNPCKHDQ"
  | .packssdw _ _ _ => "PACKSSDW"
  | .movdLoad _ _ _ => "MOVD"
  | .movqLoad _ _ _ => "MOVQ"
  | .psrlwImm _ _ _ => "PSRLW"
  | .psrawImm _ _ _ => "PSRAW"
  | .psllwImm _ _ _ => "PSLLW"
  | .psrldImm _ _ _ => "PSRLD"
  | .psradImm _ _ _ => "PSRAD"
  | .pslldImm _ _ _ => "PSLLD"
  | .psrlqImm _ _ _ => "PSRLQ"
  | .psllqImm _ _ _ => "PSLLQ"
  | .pcmpeqb _ _ _ => "PCMPEQB"
  | .pcmpeqw _ _ _ => "PCMPEQW"
  | .pcmpeqd _ _ _ => "PCMPEQD"
  | .emms _ => "EMMS"
  | .movdStore _ _ _ => "MOVD"
  | .movqStore _ _ _ => "MOVQ"
  | .cpuid => "CPUID"
  | .psrlw _ _ _ => "PSRLW"
  | .psrld _ _ _ => "PSRLD"
  | .psrlq _ _ _ => "PSRLQ"
  | .pmullw _ _ _ => "PMULLW"
  | .psubusb _ _ _ => "PSUBUSB"
  | .psubusw _ _ _ => "PSUBUSW"
  | .pand _ _ _ => "PAND"
  | .paddusb _ _ _ => "PADDUSB"
  | .paddusw _ _ _ => "PADDUSW"
  | .pandn _ _ _ => "PANDN"
  | .psraw _ _ _ => "PSRAW"
  | .psrad _ _ _ => "PSRAD"
  | .pmulhw _ _ _ => "PMULHW"
  | .psubsb _ _ _ => "PSUBSB"
  | .psubsw _ _ _ => "PSUBSW"
  | .por _ _ _ => "POR"
  | .paddsb _ _ _ => "PADDSB"
  | .paddsw _ _ _ => "PADDSW"
  | .pxor _ _ _ => "PXOR"
  | .psllw _ _ _ => "PSLLW"
  | .pslld _ _ _ => "PSLLD"
  | .psllq _ _ _ => "PSLLQ"
  | .pmaddwd _ _ _ => "PMADDWD"
  | .psubb _ _ _ => "PSUBB"
  | .psubw _ _ _ => "PSUBW"
  | .psubd _ _ _ => "PSUBD"
  | .paddb _ _ _ => "PADDB"
  | .paddw _ _ _ => "PADDW"
  | .paddd _ _ _ => "PADDD"
  | .mov _ _ => "MOV"
  | .test _ _ => "TEST"
  | .jnz _ => "JNZ"

/-- A hexadecimal constant (R121). -/
def hexText (n : Nat) : String :=
  let digits := String.ofList ((Nat.toDigits 16 n).map Char.toUpper)
  (if digits.front.isDigit then digits else "0" ++ digits) ++ "h"

/-- A signed constant added to an address. -/
def plusText (x : Int) : String :=
  if x < 0 then "-" ++ hexText x.natAbs else "+" ++ hexText x.natAbs

/-- The name of an integer register (R121). -/
def Reg32.text : Reg32 → String
  | .eax => "EAX" | .ecx => "ECX" | .edx => "EDX" | .ebx => "EBX" | .esp => "ESP" | .ebp => "EBP" | .esi => "ESI"
  | .edi => "EDI"

/-- The name of an MMX register (R122). -/
def MmReg.text (r : MmReg) : String := "MM" ++ toString r.index.val

/-- The name of a segment register. -/
def SegReg.text : SegReg → String
  | .cs => "CS" | .ss => "SS" | .ds => "DS" | .es => "ES" | .fs => "FS" | .gs => "GS"

/-- The base of a 16-bit form. -/
def Rm16.text : Rm16 → String
  | .bxsi => "BX+SI" | .bxdi => "BX+DI" | .bpsi => "BP+SI" | .bpdi => "BP+DI" | .si => "SI" | .di => "DI" | .bp => "BP"
  | .bx => "BX"

/-- A displacement. -/
def Disp32.text : Disp32 → String
  | .absent => ""
  | .d8 d => plusText d.toInt
  | .d32 d => plusText d.toInt

/-- A displacement. -/
def Disp16.text : Disp16 → String
  | .absent => ""
  | .d8 d => plusText d.toInt
  | .d16 d => plusText d.toInt

/-- A scaled index. -/
def indexText (scale : BitVec 2) (index : Reg32) : String :=
  if index = .esp then "" else "+" ++ index.text ++ "*" ++ toString (2 ^ scale.toNat)

/-- A memory operand (R122). -/
def MemRef.text : MemRef → String
  | .base b d => "[" ++ b.text ++ d.text ++ "]"
  | .abs32 d => "[" ++ hexText d.toNat ++ "]"
  | .sib s x b d => "[" ++ b.text ++ indexText s x ++ d.text ++ "]"
  | .sibAbs s x d => "[" ++ hexText d.toNat ++ indexText s x ++ "]"
  | .base16 rm d => "[" ++ rm.text ++ d.text ++ "]"
  | .abs16 d => "[" ++ hexText d.toNat ++ "]"

/-- A memory operand with its size keyword and its segment override. -/
def memText (pfx : List Prefix) (size : String) (m : MemRef) : String :=
  size ++ " PTR " ++ (match segOverride pfx with | some g => g.text ++ ":" | none => "") ++ m.text

/-- An `mm/m` operand. -/
def MmRm.text (pfx : List Prefix) (size : String) : MmRm → String
  | .reg r => r.text
  | .mem m => memText pfx size m

/-- An `r/m32` operand. -/
def GpRm.text (pfx : List Prefix) : GpRm → String
  | .reg r => r.text
  | .mem m => memText pfx "DWORD" m

/-- The operands, destination first (R121). -/
def Instr.operandTexts : Instr → List String
  | .punpcklbw pfx dst src => [dst.text, src.text pfx "DWORD"]
  | .punpcklwd pfx dst src => [dst.text, src.text pfx "DWORD"]
  | .punpckldq pfx dst src => [dst.text, src.text pfx "DWORD"]
  | .packsswb pfx dst src => [dst.text, src.text pfx "QWORD"]
  | .pcmpgtb pfx dst src => [dst.text, src.text pfx "QWORD"]
  | .pcmpgtw pfx dst src => [dst.text, src.text pfx "QWORD"]
  | .pcmpgtd pfx dst src => [dst.text, src.text pfx "QWORD"]
  | .packuswb pfx dst src => [dst.text, src.text pfx "QWORD"]
  | .punpckhbw pfx dst src => [dst.text, src.text pfx "QWORD"]
  | .punpckhwd pfx dst src => [dst.text, src.text pfx "QWORD"]
  | .punpckhdq pfx dst src => [dst.text, src.text pfx "QWORD"]
  | .packssdw pfx dst src => [dst.text, src.text pfx "QWORD"]
  | .movdLoad pfx dst src => [dst.text, src.text pfx]
  | .movqLoad pfx dst src => [dst.text, src.text pfx "QWORD"]
  | .psrlwImm _ dst imm => [dst.text, hexText imm.toNat]
  | .psrawImm _ dst imm => [dst.text, hexText imm.toNat]
  | .psllwImm _ dst imm => [dst.text, hexText imm.toNat]
  | .psrldImm _ dst imm => [dst.text, hexText imm.toNat]
  | .psradImm _ dst imm => [dst.text, hexText imm.toNat]
  | .pslldImm _ dst imm => [dst.text, hexText imm.toNat]
  | .psrlqImm _ dst imm => [dst.text, hexText imm.toNat]
  | .psllqImm _ dst imm => [dst.text, hexText imm.toNat]
  | .pcmpeqb pfx dst src => [dst.text, src.text pfx "QWORD"]
  | .pcmpeqw pfx dst src => [dst.text, src.text pfx "QWORD"]
  | .pcmpeqd pfx dst src => [dst.text, src.text pfx "QWORD"]
  | .emms _ => []
  | .movdStore pfx dst src => [dst.text pfx, src.text]
  | .movqStore pfx dst src => [dst.text pfx "QWORD", src.text]
  | .cpuid => []
  | .psrlw pfx dst src => [dst.text, src.text pfx "QWORD"]
  | .psrld pfx dst src => [dst.text, src.text pfx "QWORD"]
  | .psrlq pfx dst src => [dst.text, src.text pfx "QWORD"]
  | .pmullw pfx dst src => [dst.text, src.text pfx "QWORD"]
  | .psubusb pfx dst src => [dst.text, src.text pfx "QWORD"]
  | .psubusw pfx dst src => [dst.text, src.text pfx "QWORD"]
  | .pand pfx dst src => [dst.text, src.text pfx "QWORD"]
  | .paddusb pfx dst src => [dst.text, src.text pfx "QWORD"]
  | .paddusw pfx dst src => [dst.text, src.text pfx "QWORD"]
  | .pandn pfx dst src => [dst.text, src.text pfx "QWORD"]
  | .psraw pfx dst src => [dst.text, src.text pfx "QWORD"]
  | .psrad pfx dst src => [dst.text, src.text pfx "QWORD"]
  | .pmulhw pfx dst src => [dst.text, src.text pfx "QWORD"]
  | .psubsb pfx dst src => [dst.text, src.text pfx "QWORD"]
  | .psubsw pfx dst src => [dst.text, src.text pfx "QWORD"]
  | .por pfx dst src => [dst.text, src.text pfx "QWORD"]
  | .paddsb pfx dst src => [dst.text, src.text pfx "QWORD"]
  | .paddsw pfx dst src => [dst.text, src.text pfx "QWORD"]
  | .pxor pfx dst src => [dst.text, src.text pfx "QWORD"]
  | .psllw pfx dst src => [dst.text, src.text pfx "QWORD"]
  | .pslld pfx dst src => [dst.text, src.text pfx "QWORD"]
  | .psllq pfx dst src => [dst.text, src.text pfx "QWORD"]
  | .pmaddwd pfx dst src => [dst.text, src.text pfx "QWORD"]
  | .psubb pfx dst src => [dst.text, src.text pfx "QWORD"]
  | .psubw pfx dst src => [dst.text, src.text pfx "QWORD"]
  | .psubd pfx dst src => [dst.text, src.text pfx "QWORD"]
  | .paddb pfx dst src => [dst.text, src.text pfx "QWORD"]
  | .paddw pfx dst src => [dst.text, src.text pfx "QWORD"]
  | .paddd pfx dst src => [dst.text, src.text pfx "QWORD"]
  | .mov dst imm => [dst.text, hexText imm.toNat]
  | .test src imm => [src.text, hexText imm.toNat]
  | .jnz rel => [plusText rel.toInt]

/-- One line of assembler (R121, R122). -/
def Instr.text (i : Instr) : String :=
  match i.operandTexts with
  | [] => i.mnemonic
  | ops => i.mnemonic ++ " " ++ ", ".intercalate ops

end Sys2Proof
end

