-- ==== Sys2Proof/Tests/Slice0.lean ====
section
/-! SUPPORT. Small tests: well-formedness, decoding, one step at a time, and a witness for every statement's hypotheses.
The expected values are the spec's own (95_test_vectors.md, and the examples in the rules). -/

namespace Sys2Proof.Machine.Tests

/-! ### WellFormed refuses what has no encoding -/

/-- An ESP base needs a SIB byte (R113). -/
theorem test_wf_esp_base : (Instr.paddb [] .mm0 (.mem (.base .esp .absent))).wellFormed .a32 = false := by decide
/-- EBP without a displacement is the displacement-only form (R113). -/
theorem test_wf_ebp_base : (Instr.paddb [] .mm0 (.mem (.base .ebp .absent))).wellFormed .a32 = false := by decide
theorem test_wf_sib_ebp : (Instr.paddb [] .mm0 (.mem (.sib 0 .eax .ebp .absent))).wellFormed .a32 = false := by decide
theorem test_wf_bp : (Instr.paddb [.addrSize] .mm0 (.mem (.base16 .bp .absent))).wellFormed .a32 = false := by decide
/-- A 16-bit form needs 67H where the default is 32 (R103). -/
theorem test_wf_size : (Instr.paddb [] .mm0 (.mem (.abs16 0))).wellFormed .a32 = false := by decide
/-- At most 15 bytes (R108). -/
theorem test_wf_length : (Instr.emms (List.replicate 14 .opSize)).wellFormed .a32 = false := by decide
theorem test_wf_ok : (Instr.paddb [.addrSize] .mm0 (.mem (.base16 .bp (.d8 0)))).wellFormed .a32 = true := by decide

/-! ### Decoding, every row of R118: the words are written out from the table -/

theorem test_decode_punpcklbw : decode .a32 [0x0F, 0x60, 0xD3] = .instr (.punpcklbw [] .mm2 (.reg .mm3)) [] := by decide
theorem test_decode_punpcklwd : decode .a32 [0x0F, 0x61, 0xD3] = .instr (.punpcklwd [] .mm2 (.reg .mm3)) [] := by decide
theorem test_decode_punpckldq : decode .a32 [0x0F, 0x62, 0xD3] = .instr (.punpckldq [] .mm2 (.reg .mm3)) [] := by decide
theorem test_decode_packsswb : decode .a32 [0x0F, 0x63, 0xD3] = .instr (.packsswb [] .mm2 (.reg .mm3)) [] := by decide
theorem test_decode_pcmpgtb : decode .a32 [0x0F, 0x64, 0xD3] = .instr (.pcmpgtb [] .mm2 (.reg .mm3)) [] := by decide
theorem test_decode_pcmpgtw : decode .a32 [0x0F, 0x65, 0xD3] = .instr (.pcmpgtw [] .mm2 (.reg .mm3)) [] := by decide
theorem test_decode_pcmpgtd : decode .a32 [0x0F, 0x66, 0xD3] = .instr (.pcmpgtd [] .mm2 (.reg .mm3)) [] := by decide
theorem test_decode_packuswb : decode .a32 [0x0F, 0x67, 0xD3] = .instr (.packuswb [] .mm2 (.reg .mm3)) [] := by decide
theorem test_decode_punpckhbw : decode .a32 [0x0F, 0x68, 0xD3] = .instr (.punpckhbw [] .mm2 (.reg .mm3)) [] := by decide
theorem test_decode_punpckhwd : decode .a32 [0x0F, 0x69, 0xD3] = .instr (.punpckhwd [] .mm2 (.reg .mm3)) [] := by decide
theorem test_decode_punpckhdq : decode .a32 [0x0F, 0x6A, 0xD3] = .instr (.punpckhdq [] .mm2 (.reg .mm3)) [] := by decide
theorem test_decode_packssdw : decode .a32 [0x0F, 0x6B, 0xD3] = .instr (.packssdw [] .mm2 (.reg .mm3)) [] := by decide
theorem test_decode_movdLoad : decode .a32 [0x0F, 0x6E, 0xD3] = .instr (.movdLoad [] .mm2 (.reg .ebx)) [] := by decide
theorem test_decode_movqLoad : decode .a32 [0x0F, 0x6F, 0xD3] = .instr (.movqLoad [] .mm2 (.reg .mm3)) [] := by decide
theorem test_decode_psrlwImm : decode .a32 [0x0F, 0x71, 0xD5, 0x11] = .instr (.psrlwImm [] .mm5 0x11) [] := by decide
theorem test_decode_psrawImm : decode .a32 [0x0F, 0x71, 0xE5, 0x11] = .instr (.psrawImm [] .mm5 0x11) [] := by decide
theorem test_decode_psllwImm : decode .a32 [0x0F, 0x71, 0xF5, 0x11] = .instr (.psllwImm [] .mm5 0x11) [] := by decide
theorem test_decode_psrldImm : decode .a32 [0x0F, 0x72, 0xD5, 0x11] = .instr (.psrldImm [] .mm5 0x11) [] := by decide
theorem test_decode_psradImm : decode .a32 [0x0F, 0x72, 0xE5, 0x11] = .instr (.psradImm [] .mm5 0x11) [] := by decide
theorem test_decode_pslldImm : decode .a32 [0x0F, 0x72, 0xF5, 0x11] = .instr (.pslldImm [] .mm5 0x11) [] := by decide
theorem test_decode_psrlqImm : decode .a32 [0x0F, 0x73, 0xD5, 0x11] = .instr (.psrlqImm [] .mm5 0x11) [] := by decide
theorem test_decode_psllqImm : decode .a32 [0x0F, 0x73, 0xF5, 0x11] = .instr (.psllqImm [] .mm5 0x11) [] := by decide
theorem test_decode_pcmpeqb : decode .a32 [0x0F, 0x74, 0xD3] = .instr (.pcmpeqb [] .mm2 (.reg .mm3)) [] := by decide
theorem test_decode_pcmpeqw : decode .a32 [0x0F, 0x75, 0xD3] = .instr (.pcmpeqw [] .mm2 (.reg .mm3)) [] := by decide
theorem test_decode_pcmpeqd : decode .a32 [0x0F, 0x76, 0xD3] = .instr (.pcmpeqd [] .mm2 (.reg .mm3)) [] := by decide
theorem test_decode_emms : decode .a32 [0x0F, 0x77] = .instr (.emms []) [] := by decide
theorem test_decode_movdStore : decode .a32 [0x0F, 0x7E, 0xD3] = .instr (.movdStore [] (.reg .ebx) .mm2) [] := by decide
theorem test_decode_movqStore : decode .a32 [0x0F, 0x7F, 0xD3] = .instr (.movqStore [] (.reg .mm3) .mm2) [] := by decide
theorem test_decode_cpuid : decode .a32 [0x0F, 0xA2] = .instr (.cpuid) [] := by decide
theorem test_decode_psrlw : decode .a32 [0x0F, 0xD1, 0xD3] = .instr (.psrlw [] .mm2 (.reg .mm3)) [] := by decide
theorem test_decode_psrld : decode .a32 [0x0F, 0xD2, 0xD3] = .instr (.psrld [] .mm2 (.reg .mm3)) [] := by decide
theorem test_decode_psrlq : decode .a32 [0x0F, 0xD3, 0xD3] = .instr (.psrlq [] .mm2 (.reg .mm3)) [] := by decide
theorem test_decode_pmullw : decode .a32 [0x0F, 0xD5, 0xD3] = .instr (.pmullw [] .mm2 (.reg .mm3)) [] := by decide
theorem test_decode_psubusb : decode .a32 [0x0F, 0xD8, 0xD3] = .instr (.psubusb [] .mm2 (.reg .mm3)) [] := by decide
theorem test_decode_psubusw : decode .a32 [0x0F, 0xD9, 0xD3] = .instr (.psubusw [] .mm2 (.reg .mm3)) [] := by decide
theorem test_decode_pand : decode .a32 [0x0F, 0xDB, 0xD3] = .instr (.pand [] .mm2 (.reg .mm3)) [] := by decide
theorem test_decode_paddusb : decode .a32 [0x0F, 0xDC, 0xD3] = .instr (.paddusb [] .mm2 (.reg .mm3)) [] := by decide
theorem test_decode_paddusw : decode .a32 [0x0F, 0xDD, 0xD3] = .instr (.paddusw [] .mm2 (.reg .mm3)) [] := by decide
theorem test_decode_pandn : decode .a32 [0x0F, 0xDF, 0xD3] = .instr (.pandn [] .mm2 (.reg .mm3)) [] := by decide
theorem test_decode_psraw : decode .a32 [0x0F, 0xE1, 0xD3] = .instr (.psraw [] .mm2 (.reg .mm3)) [] := by decide
theorem test_decode_psrad : decode .a32 [0x0F, 0xE2, 0xD3] = .instr (.psrad [] .mm2 (.reg .mm3)) [] := by decide
theorem test_decode_pmulhw : decode .a32 [0x0F, 0xE5, 0xD3] = .instr (.pmulhw [] .mm2 (.reg .mm3)) [] := by decide
theorem test_decode_psubsb : decode .a32 [0x0F, 0xE8, 0xD3] = .instr (.psubsb [] .mm2 (.reg .mm3)) [] := by decide
theorem test_decode_psubsw : decode .a32 [0x0F, 0xE9, 0xD3] = .instr (.psubsw [] .mm2 (.reg .mm3)) [] := by decide
theorem test_decode_por : decode .a32 [0x0F, 0xEB, 0xD3] = .instr (.por [] .mm2 (.reg .mm3)) [] := by decide
theorem test_decode_paddsb : decode .a32 [0x0F, 0xEC, 0xD3] = .instr (.paddsb [] .mm2 (.reg .mm3)) [] := by decide
theorem test_decode_paddsw : decode .a32 [0x0F, 0xED, 0xD3] = .instr (.paddsw [] .mm2 (.reg .mm3)) [] := by decide
theorem test_decode_pxor : decode .a32 [0x0F, 0xEF, 0xD3] = .instr (.pxor [] .mm2 (.reg .mm3)) [] := by decide
theorem test_decode_psllw : decode .a32 [0x0F, 0xF1, 0xD3] = .instr (.psllw [] .mm2 (.reg .mm3)) [] := by decide
theorem test_decode_pslld : decode .a32 [0x0F, 0xF2, 0xD3] = .instr (.pslld [] .mm2 (.reg .mm3)) [] := by decide
theorem test_decode_psllq : decode .a32 [0x0F, 0xF3, 0xD3] = .instr (.psllq [] .mm2 (.reg .mm3)) [] := by decide
theorem test_decode_pmaddwd : decode .a32 [0x0F, 0xF5, 0xD3] = .instr (.pmaddwd [] .mm2 (.reg .mm3)) [] := by decide
theorem test_decode_psubb : decode .a32 [0x0F, 0xF8, 0xD3] = .instr (.psubb [] .mm2 (.reg .mm3)) [] := by decide
theorem test_decode_psubw : decode .a32 [0x0F, 0xF9, 0xD3] = .instr (.psubw [] .mm2 (.reg .mm3)) [] := by decide
theorem test_decode_psubd : decode .a32 [0x0F, 0xFA, 0xD3] = .instr (.psubd [] .mm2 (.reg .mm3)) [] := by decide
theorem test_decode_paddb : decode .a32 [0x0F, 0xFC, 0xD3] = .instr (.paddb [] .mm2 (.reg .mm3)) [] := by decide
theorem test_decode_paddw : decode .a32 [0x0F, 0xFD, 0xD3] = .instr (.paddw [] .mm2 (.reg .mm3)) [] := by decide
theorem test_decode_paddd : decode .a32 [0x0F, 0xFE, 0xD3] = .instr (.paddd [] .mm2 (.reg .mm3)) [] := by decide
theorem test_decode_mov : decode .a32 [0xBE, 0x78, 0x56, 0x34, 0x12] = .instr (.mov .esi 0x12345678) [] := by decide
theorem test_decode_test : decode .a32 [0xF7, 0xC2, 0x00, 0x00, 0x80, 0x00] = .instr (.test .edx 0x00800000) [] := by decide
theorem test_decode_jnz : decode .a32 [0x75, 0x05] = .instr (.jnz 5) [] := by decide

/-- VP5: SIB, base ESI, index ECX, scale 4. -/
theorem test_decode_sib : decode .a32 [0x0F, 0x6F, 0x04, 0x8E] =
    .instr (.movqLoad [] .mm0 (.mem (.sib 2 .ecx .esi .absent))) [] := by decide
/-- VP5: no base. -/
theorem test_decode_sib_abs : decode .a32 [0x0F, 0x6F, 0x04, 0x25, 0x00, 0x10, 0x00, 0x00] =
    .instr (.movqLoad [] .mm0 (.mem (.sibAbs 0 .esp 0x1000))) [] := by decide
/-- VP7: 67H selects the 16-bit forms. -/
theorem test_decode_16 : decode .a32 [0x67, 0x0F, 0x6F, 0x06, 0x00, 0x10] =
    .instr (.movqLoad [.addrSize] .mm0 (.mem (.abs16 0x1000))) [] := by decide
/-- VP8: both overrides are kept, in order. -/
theorem test_decode_overrides : decode .a32 [0x26, 0x64, 0x0F, 0x6F, 0x06] =
    .instr (.movqLoad [.segment .es, .segment .fs] .mm0 (.mem (.base .esi .absent))) [] := by decide
/-- VH6, VP11: holes. -/
theorem test_decode_holes : [[0x0F, 0x71, 0xC8, 0x01], [0x0F, 0x73, 0xE0, 0x01], [0x0F, 0x71, 0x30, 0x04],
    [0x0F, 0x7C, 0xC0]].map (decode .a32) = List.replicate 4 .hole := by decide
/-- VD5, VP11: refusals. -/
theorem test_decode_refusals : [[0x66, 0xB8, 1, 0, 0, 0], [0xA9, 0, 0, 0x80, 0], [0xF7, 0x02, 0, 0, 0x80, 0], [0xD9, 0xE8],
    [0x90]].map (decode .a32) = [.prefixedBase, .notInTable, .notInTable, .floatingPoint, .notInTable] := by decide
/-- VP10: sixteen 66 in front of EMMS. -/
theorem test_decode_too_long : decode .a32 (List.replicate 16 0x66 ++ [0x0F, 0x77]) = .tooLong := by decide
/-- R109, R120: no length makes a prefixed base instruction, a hole or an unknown opcode anything else. -/
theorem test_decode_long_base : [[0xB8, 1, 0, 0, 0], [0x0F, 0xA2], [0x0F, 0x6C], [0x90]].map
    (fun bs => decode .a32 (List.replicate 16 0x66 ++ bs)) =
      [.prefixedBase, .prefixedBase, .hole, .notInTable] := by decide
theorem test_decode_truncated : decode .a32 [0x0F, 0x6F, 0x05, 0x00] = .truncated := by decide
/-- The table numbers bits from the first byte on. -/
theorem test_table_word : decodeTableWord 24 0xC16F0F = some (.movqLoad [] .mm0 (.reg .mm1)) := by decide

/-! ### One step: the start state Z of 95_test_vectors.md -/

/-- The parameters of Z. -/
def zParams : Params :=
  { resetParams with segRules := [], regions := [⟨⟨0, 0x10000⟩, .ram⟩] }

/-- All flags clear. -/
def noFlags : Flags := ⟨false, false, false, false, false, false⟩

/-- The state Z. -/
def z : State :=
  { State.reset with
    params := zParams, gpr := #v[0, 0, 0, 0, 0, 0, 0, 0], eip := 0x200, flags := noFlags, seg := #v[0, 0, 0, 0, 0, 0]
    tagWord := 0xFFFF, statusWord := 0x2800 }

/-- A state with the contents of a floating-point register put there from outside. -/
def State.putFp (s : State) (r : MmReg) (v : FpReg) : State := { s with fpr := s.fpr.set r.index v }

/-- A state with bytes of memory put there from outside. -/
def State.putMem (s : State) (a : Nat) (bs : List Byte) : State :=
  { s with mem := Memory.writeAll s.mem ((List.range bs.length).map (a + ·)) bs }

/-- What one step from the state, with these bytes at the pc, shows of the next state. -/
def after {α : Type} (bytes : List Byte) (s : State) (view : State → α) : Option α :=
  match step (s.withProgram bytes) with
  | .next t => some (view t)
  | _ => none

/-- What one step stops with. -/
def stopOf (s : State) : Option (Fault ⊕ Refusal) :=
  match step s with
  | .next _ => none
  | .fault f => some (.inl f)
  | .refused r => some (.inr r)

/-- The fault one step ends in, with these bytes at the pc. -/
def faultOf (bytes : List Byte) (s : State) : Option Fault := (stopOf (s.withProgram bytes)).bind Sum.getLeft?

/-- The refusal one step ends in, with these bytes at the pc. -/
def refusalOf (bytes : List Byte) (s : State) : Option Refusal :=
  (stopOf (s.withProgram bytes)).bind Sum.getRight?

/-- Z with values in MM0 and MM1. -/
def zOf (d v : QWord) : State := State.putFp (State.putFp z .mm0 (0#16 ++ d)) .mm1 (0#16 ++ v)

/-- FPR[0], the tag word and TOS after a step. -/
def shows (t : State) : FpReg × Word × BitVec 3 := (t.fp .mm0, t.tagWord, t.tos)

/-- R211. -/
theorem test_packsswb : after [0x0F, 0x63, 0xC1] (zOf 0x7FFF8000007FFF80 0x0080FF7F00000001) shows = some (0xFFFF7F8000017F807F80, 0, 0) := by decide
/-- R212. -/
theorem test_packssdw : after [0x0F, 0x6B, 0xC1] (zOf 0x7FFFFFFF80000000 0x00007FFFFFFF8000) shows = some (0xFFFF7FFF80007FFF8000, 0, 0) := by decide
/-- R213. -/
theorem test_packuswb : after [0x0F, 0x67, 0xC1] (zOf 0x7FFF8000007FFF80 0x008000FF01000001) shows = some (0xFFFF80FFFF01FF007F00, 0, 0) := by decide
/-- R215. -/
theorem test_punpckhbw : after [0x0F, 0x68, 0xC1] (zOf 0x0706050403020100 0x1716151413121110) shows = some (0xFFFF1707160615051404, 0, 0) := by decide
/-- R216. -/
theorem test_punpckhwd : after [0x0F, 0x69, 0xC1] (zOf 0x0706050403020100 0x1716151413121110) shows = some (0xFFFF1716070615140504, 0, 0) := by decide
/-- R217. -/
theorem test_punpckhdq : after [0x0F, 0x6A, 0xC1] (zOf 0x0706050403020100 0x1716151413121110) shows = some (0xFFFF1716151407060504, 0, 0) := by decide
/-- R218. -/
theorem test_punpcklbw : after [0x0F, 0x60, 0xC1] (zOf 0x0706050403020100 0xFFFFFFFF13121110) shows = some (0xFFFF1303120211011000, 0, 0) := by decide
/-- R219. -/
theorem test_punpcklwd : after [0x0F, 0x61, 0xC1] (zOf 0x0706050403020100 0xFFFFFFFF13121110) shows = some (0xFFFF1312030211100100, 0, 0) := by decide
/-- R220. -/
theorem test_punpckldq : after [0x0F, 0x62, 0xC1] (zOf 0x0706050403020100 0xFFFFFFFF13121110) shows = some (0xFFFF1312111003020100, 0, 0) := by decide
/-- R231. -/
theorem test_paddb : after [0x0F, 0xFC, 0xC1] (zOf 0x7F80FF0001FE807F 0x0180010001020180) shows = some (0xFFFF80000000020081FF, 0, 0) := by decide
/-- R232. -/
theorem test_paddw : after [0x0F, 0xFD, 0xC1] (zOf 0x7FFF8000FFFF0001 0x000180000001FFFF) shows = some (0xFFFF8000000000000000, 0, 0) := by decide
/-- R233. -/
theorem test_paddd : after [0x0F, 0xFE, 0xC1] (zOf 0x7FFFFFFFFFFFFFFF 0x0000000100000001) shows = some (0xFFFF8000000000000000, 0, 0) := by decide
/-- R234. -/
theorem test_paddsb : after [0x0F, 0xEC, 0xC1] (zOf 0x7F80FF0001FE807F 0x0180010001020180) shows = some (0xFFFF7F800000020081FF, 0, 0) := by decide
/-- R235. -/
theorem test_paddsw : after [0x0F, 0xED, 0xC1] (zOf 0x7FFF8000FFFF0001 0x000180000001FFFF) shows = some (0xFFFF7FFF800000000000, 0, 0) := by decide
/-- R236. -/
theorem test_paddusb : after [0x0F, 0xDC, 0xC1] (zOf 0x7F80FF0001FE807F 0x0180010001020180) shows = some (0xFFFF80FFFF0002FF81FF, 0, 0) := by decide
/-- R237. -/
theorem test_paddusw : after [0x0F, 0xDD, 0xC1] (zOf 0x7FFF8000FFFF0001 0x000180000001FFFF) shows = some (0xFFFF8000FFFFFFFFFFFF, 0, 0) := by decide
/-- R238. -/
theorem test_psubb : after [0x0F, 0xF8, 0xC1] (zOf 0x0080007F10FF8001 0x017F01FF20010102) shows = some (0xFFFFFF01FF80F0FE7FFF, 0, 0) := by decide
/-- R239. -/
theorem test_psubw : after [0x0F, 0xF9, 0xC1] (zOf 0x00008000FFFF7FFF 0x000100017FFFFFFF) shows = some (0xFFFFFFFF7FFF80008000, 0, 0) := by decide
/-- R240. -/
theorem test_psubd : after [0x0F, 0xFA, 0xC1] (zOf 0x0000000080000000 0x0000000100000001) shows = some (0xFFFFFFFFFFFF7FFFFFFF, 0, 0) := by decide
/-- R241. -/
theorem test_psubsb : after [0x0F, 0xE8, 0xC1] (zOf 0x0080007F10FF8001 0x017F01FF20010102) shows = some (0xFFFFFF80FF7FF0FE80FF, 0, 0) := by decide
/-- R242. -/
theorem test_psubsw : after [0x0F, 0xE9, 0xC1] (zOf 0x00008000FFFF7FFF 0x000100017FFFFFFF) shows = some (0xFFFFFFFF800080007FFF, 0, 0) := by decide
/-- R243. -/
theorem test_psubusb : after [0x0F, 0xD8, 0xC1] (zOf 0x0080007F10FF8001 0x017F01FF20010102) shows = some (0xFFFF0001000000FE7F00, 0, 0) := by decide
/-- R244. -/
theorem test_psubusw : after [0x0F, 0xD9, 0xC1] (zOf 0x00008000FFFF7FFF 0x000100017FFFFFFF) shows = some (0xFFFF00007FFF80000000, 0, 0) := by decide
/-- R245. -/
theorem test_pmulhw : after [0x0F, 0xE5, 0xC1] (zOf 0x80007FFFFFFF0002 0x80007FFF00010003) shows = some (0xFFFF40003FFFFFFF0000, 0, 0) := by decide
/-- R246. -/
theorem test_pmullw : after [0x0F, 0xD5, 0xC1] (zOf 0x80007FFFFFFF0002 0x80007FFF00010003) shows = some (0xFFFF00000001FFFF0006, 0, 0) := by decide
/-- R247. -/
theorem test_pmaddwd : after [0x0F, 0xF5, 0xC1] (zOf 0x8000800000020001 0x8000800000040003) shows = some (0xFFFF800000000000000B, 0, 0) := by decide
/-- R261. -/
theorem test_pcmpeqb : after [0x0F, 0x74, 0xC1] (zOf 0x0011223344556677 0x0010223044506670) shows = some (0xFFFFFF00FF00FF00FF00, 0, 0) := by decide
/-- R262. -/
theorem test_pcmpeqw : after [0x0F, 0x75, 0xC1] (zOf 0x0011223344556677 0x0011223044556670) shows = some (0xFFFFFFFF0000FFFF0000, 0, 0) := by decide
/-- R263. -/
theorem test_pcmpeqd : after [0x0F, 0x76, 0xC1] (zOf 0x0011223344556677 0x0011223344556670) shows = some (0xFFFFFFFFFFFF00000000, 0, 0) := by decide
/-- R264. -/
theorem test_pcmpgtb : after [0x0F, 0x64, 0xC1] (zOf 0x7F80000101FF8000 0x807F010000007F00) shows = some (0xFFFFFF0000FFFF000000, 0, 0) := by decide
/-- R265. -/
theorem test_pcmpgtw : after [0x0F, 0x65, 0xC1] (zOf 0x7FFF800000010000 0x80007FFF00000000) shows = some (0xFFFFFFFF0000FFFF0000, 0, 0) := by decide
/-- R266. -/
theorem test_pcmpgtd : after [0x0F, 0x66, 0xC1] (zOf 0x7FFFFFFF80000000 0x800000007FFFFFFF) shows = some (0xFFFFFFFFFFFF00000000, 0, 0) := by decide
/-- R267. -/
theorem test_pand : after [0x0F, 0xDB, 0xC1] (zOf 0xFF00FF00F0F0AAAA 0x0FF00FF0FFFF5555) shows = some (0xFFFF0F000F00F0F00000, 0, 0) := by decide
/-- R268. -/
theorem test_pandn : after [0x0F, 0xDF, 0xC1] (zOf 0xFF00FF00F0F0AAAA 0x0FF00FF0FFFF5555) shows = some (0xFFFF00F000F00F0F5555, 0, 0) := by decide
/-- R269. -/
theorem test_por : after [0x0F, 0xEB, 0xC1] (zOf 0xFF00FF00F0F0AAAA 0x0FF00FF0FFFF5555) shows = some (0xFFFFFFF0FFF0FFFFFFFF, 0, 0) := by decide
/-- R270. -/
theorem test_pxor : after [0x0F, 0xEF, 0xC1] (zOf 0xFF00FF00F0F0AAAA 0x0FF00FF0FFFF5555) shows = some (0xFFFFF0F0F0F00F0FFFFF, 0, 0) := by decide
/-- R282. -/
theorem test_psllw : after [0x0F, 0xF1, 0xC1] (zOf 0x8001F00F7FFF0180 0x0000000000000010) shows = some (0xFFFF0000000000000000, 0, 0) := by decide
/-- R283. -/
theorem test_pslld : after [0x0F, 0xF2, 0xC1] (zOf 0x8001F00F7FFF0180 0x0000000000000020) shows = some (0xFFFF0000000000000000, 0, 0) := by decide
/-- R284. -/
theorem test_psllq : after [0x0F, 0xF3, 0xC1] (zOf 0x8001F00F7FFF0180 0x0000000100000000) shows = some (0xFFFF0000000000000000, 0, 0) := by decide
/-- R285. -/
theorem test_psrlw : after [0x0F, 0xD1, 0xC1] (zOf 0x8001F00F7FFF0180 0x0000000000000010) shows = some (0xFFFF0000000000000000, 0, 0) := by decide
/-- R286. -/
theorem test_psrld : after [0x0F, 0xD2, 0xC1] (zOf 0x8001F00F7FFF0180 0x0000000000000020) shows = some (0xFFFF0000000000000000, 0, 0) := by decide
/-- R287. -/
theorem test_psrlq : after [0x0F, 0xD3, 0xC1] (zOf 0x8001F00F7FFF0180 0x0000000000000040) shows = some (0xFFFF0000000000000000, 0, 0) := by decide
/-- R288. -/
theorem test_psraw : after [0x0F, 0xE1, 0xC1] (zOf 0x8001F00F7FFF0180 0x00000000000000FF) shows = some (0xFFFFFFFFFFFF00000000, 0, 0) := by decide
/-- R289. -/
theorem test_psrad : after [0x0F, 0xE2, 0xC1] (zOf 0x8001F00F7FFF0180 0x0000000000000020) shows = some (0xFFFFFFFFFFFF00000000, 0, 0) := by decide
/-- R282, count 4. -/
theorem test_psllwImm : after [0x0F, 0x71, 0xF0, 4] (zOf 0x8001F00F7FFF0180 0) shows = some (0xFFFF001000F0FFF01800, 0, 0) := by decide
/-- R283, count 4. -/
theorem test_pslldImm : after [0x0F, 0x72, 0xF0, 4] (zOf 0x8001F00F7FFF0180 0) shows = some (0xFFFF001F00F0FFF01800, 0, 0) := by decide
/-- R284, count 4. -/
theorem test_psllqImm : after [0x0F, 0x73, 0xF0, 4] (zOf 0x8001F00F7FFF0180 0) shows = some (0xFFFF001F00F7FFF01800, 0, 0) := by decide
/-- R285, count 4. -/
theorem test_psrlwImm : after [0x0F, 0x71, 0xD0, 4] (zOf 0x8001F00F7FFF0180 0) shows = some (0xFFFF08000F0007FF0018, 0, 0) := by decide
/-- R286, count 4. -/
theorem test_psrldImm : after [0x0F, 0x72, 0xD0, 4] (zOf 0x8001F00F7FFF0180 0) shows = some (0xFFFF08001F0007FFF018, 0, 0) := by decide
/-- R287, count 4. -/
theorem test_psrlqImm : after [0x0F, 0x73, 0xD0, 4] (zOf 0x8001F00F7FFF0180 0) shows = some (0xFFFF08001F00F7FFF018, 0, 0) := by decide
/-- R288, count 4. -/
theorem test_psrawImm : after [0x0F, 0x71, 0xE0, 4] (zOf 0x8001F00F7FFF0180 0) shows = some (0xFFFFF800FF0007FF0018, 0, 0) := by decide
/-- R289, count 4. -/
theorem test_psradImm : after [0x0F, 0x72, 0xE0, 4] (zOf 0x8001F00F7FFF0180 0) shows = some (0xFFFFF8001F0007FFF018, 0, 0) := by decide

/-- VT1. -/
theorem test_movd_load : after [0x0F, 0x6E, 0xC8] ((zOf 0 0xFFFFFFFFFFFFFFFF).setX .eax 0x89ABCDEF)
    (fun t => (t.fp .mm1, t.tagWord, t.tos, t.eip)) = some (0xFFFF0000000089ABCDEF, 0, 0, 0x203) := by decide
/-- VT2: four bytes are read. -/
theorem test_movd_load_mem : after [0x0F, 0x6E, 0x06] (State.putMem (z.setX .esi 0x1000) 0x1000
    [0xEF, 0xCD, 0xAB, 0x89, 0x11]) (·.fp .mm0) = some 0xFFFF0000000089ABCDEF := by decide
/-- VC3. -/
theorem test_movd_store : after [0x0F, 0x7E, 0xD3] (State.putFp z .mm2 0x1122334455667788)
    (fun t => (t.x .ebx, t.fp .mm2, t.tagWord, t.eip)) = some (0x55667788, 0x1122334455667788, 0, 0x203) := by decide
/-- VT3: four bytes are written. -/
theorem test_movd_store_mem : after [0x0F, 0x7E, 0x07] (State.putMem ((zOf 0x1122334455667788 0).setX .edi 0x2000) 0x2000
    (List.replicate 8 0xFF)) (fun t => (List.range 8).map fun k => Memory.read t.mem (0x2000 + k)) =
    some [0x88, 0x77, 0x66, 0x55, 0xFF, 0xFF, 0xFF, 0xFF] := by decide
/-- VT4, VP8: through ES. -/
theorem test_movq_load : after [0x26, 0x0F, 0x6F, 0x06] (State.putMem (z.setX .esi 0x1000) 0x1000
    [0x88, 0x77, 0x66, 0x55, 0x44, 0x33, 0x22, 0x11]) (fun t => (t.fp .mm0, t.eip)) =
    some (0xFFFF1122334455667788, 0x204) := by decide
/-- VC2: a store, no exponent part written. -/
theorem test_movq_store : after [0x0F, 0x7F, 0x07] ((State.putFp z .mm0 0x3FFF8000000000000000).setX .edi 0x2000)
    (fun t => (t.mem.filter (fun c => decide (0x1000 < c.1)), t.fp .mm0, t.tagWord, t.tos)) =
    some ([(0x2007, 0x80)], 0x3FFF8000000000000000, 0, 0) := by decide
/-- VE2. -/
theorem test_emms : after [0x0F, 0x77] z (fun t => (t.tagWord, t.tos, t.eip)) = some (0xFFFF, 0, 0x202) := by decide
/-- VC5: CPUID reports the technology with CR0.EM set. -/
theorem test_cpuid : after [0x0F, 0xA2] { z.setX .eax 1 with cr0 := 4 } (fun t => (t.eip, t.tagWord)) =
    some (0x202, 0xFFFF) := by decide
/-- VD1. -/
theorem test_mov : after [0xBA, 0x00, 0x00, 0x80, 0x00] z (fun t => (t.x .edx, t.eip)) = some (0x00800000, 0x205) := by
  decide
/-- VD3. -/
theorem test_test : after [0xF7, 0xC0, 1, 0, 0, 0x80] (z.setX .eax 0xFFFFFFFF)
    (fun t => (t.flags.zf, t.flags.sf, t.flags.pf)) = some (false, true, false) := by decide
theorem test_test_zero : after [0xF7, 0xC2, 0, 0, 0x80, 0] (z.setX .edx 0x007FFFFF)
    (fun t => (t.flags.zf, t.flags.sf, t.flags.pf, t.eip)) = some (true, false, true, 0x206) := by decide
/-- VD4. -/
theorem test_jnz_taken : after [0x75, 0x80] { z with eip := 0x1000 } (·.eip) = some 0xF82 := by decide
theorem test_jnz_not_taken : after [0x75, 0x05] { z with eip := 0x100D, flags := { noFlags with zf := true } } (·.eip) = some 0x100F := by
  decide

/-! ### Exceptions and refusals -/

/-- VC4. -/
theorem test_lock : faultOf [0xF0, 0x0F, 0x7F, 0x07] z = some .invalidOpcode := by decide
/-- VC7 (b), (c). -/
theorem test_em : faultOf [0x0F, 0xFC, 0xC1] { z with cr0 := 4, fpExcPending := true } = some .invalidOpcode := by decide
theorem test_ts : faultOf [0x0F, 0xFC, 0xC1] { z with
    cr0 := 8
    fpExcPending := true
    params := { zParams with cr0TsModelled := true } } = some .deviceNotAvailable := by decide
/-- VC7 (e): the pending exception comes before the memory operand. -/
theorem test_pending : faultOf [0x0F, 0x6F, 0x06] { z.setX .esi 0x105000 with fpExcPending := true } =
    some (.numericError .int16) := by decide
/-- VC9: a store that faults on its second half. -/
theorem test_page_fault : faultOf [0x0F, 0x7F, 0x07] { z.setX .edi 0x2FFC with
    params := { zParams with pageRules := [⟨none, ⟨0x3000, 0x4000⟩, .pageFault 2⟩] } } = some (.pageFault 0x3000 2) := by
  decide
/-- VC11. -/
theorem test_alignment : faultOf [0x0F, 0x6F, 0x06] { z.setX .esi 0x1001 with
    params := { zParams with alignmentCheck := true } } = some (.memFault .alignmentCheck) := by decide
/-- VP8: a fault of ES only. -/
theorem test_segment_fault : faultOf [0x26, 0x0F, 0x6F, 0x06] { z with
    params := { zParams with segRules := [⟨some .es, none, none, ⟨0, 2 ^ 32⟩, .limit⟩] } } =
    some (.limitViolation .es) := by decide
/-- VM3. -/
theorem test_store_into_text : refusalOf [0x0F, 0x7F, 0x07] (z.setX .edi 0x200) = some (.storeIntoText 0x200) := by decide
theorem test_unmapped : refusalOf [0x0F, 0x6F, 0x06] (z.setX .esi 0x105000) = some (.unmappedAddress 0x105000) := by
  decide
theorem test_no_mmx : refusalOf [0x0F, 0x77] { z with params := { zParams with hasMmx := false } } =
    some .noMmxTechnology := by decide
/-- Reset has no program: the fetch is outside the text. -/
theorem test_reset_fetch : stopOf State.reset = some (.inr (.fetchOutsideText 0xFFFFFFF0)) := by decide
/-- R109: refused under sixteen prefixes too; the same in front of EMMS is VP10. -/
theorem test_long_base : refusalOf (List.replicate 16 0x66 ++ [0x0F, 0xA2]) z = some .prefixOnBaseInstruction := by decide
theorem test_too_long : faultOf (List.replicate 16 0x66 ++ [0x0F, 0x77]) z = some (.memFault .instructionTooLong) := by
  decide
/-- An operand past 2^32 is refused, not wrapped. -/
theorem test_past_4g : refusalOf [0x0F, 0x6F, 0x06] { z.setX .esi 0xFFFFFFFC with
    params := { zParams with regions := [⟨⟨0, 2 ^ 33⟩, .ram⟩] } } = some (.beyondLinearSpace 0x100000000) := by decide
/-- With the alignment check on, R79's fault comes first. -/
theorem test_past_4g_alignment : faultOf [0x0F, 0x6F, 0x06] { z.setX .esi 0xFFFFFFFC with
    params := { zParams with alignmentCheck := true } } = some (.memFault .alignmentCheck) := by decide
/-- A fetch past the code segment's limit is refused (R48); a memory operand past a limit faults (`test_segment_fault`). -/
theorem test_fetch_limit : stopOf { z.withProgram [0x0F, 0x77] with
    params := { (z.withProgram [0x0F, 0x77]).params with
      segRules := [⟨some .cs, none, none, ⟨0x201, 2 ^ 32⟩, .limit⟩] } } = some (.inr .fetchBeyondSegmentLimit) := by decide
/-- The run ends at `EndAddr` (R357). -/
theorem test_end : stopOf (z.withProgram []) = some (.inr .endOfRun) := by decide

/-! ### The hypotheses of the statements are met: one theorem for each statement that has hypotheses, every clause of it,
at a boundary where there is one. -/

open Sys2Proof.Claims

/-- The answer is this next value. -/
def yields {α : Type} [DecidableEq α] (x : Result α) (a : α) : Bool :=
  match x with
  | .next b => decide (b = a)
  | _ => false

/-- The answer is this fault. -/
def faults {α : Type} (x : Result α) (f : Fault) : Bool :=
  match x with
  | .fault g => decide (g = f)
  | _ => false

theorem yields_eq {α : Type} [DecidableEq α] {x : Result α} {a : α} (h : yields x a = true) : x = .next a := by
  unfold yields at h; split at h <;> simp_all

theorem faults_eq {α : Type} {x : Result α} {f : Fault} (h : faults x f = true) : x = .fault f := by
  unfold faults at h; split at h <;> simp_all

theorem fetches_of {s : State} {bytes : List Byte}
    (h : (List.range bytes.length).all (fun k => yields (fetchByte s k) (bytes.getD k 0)) = true) : fetches s bytes :=
  fun k hk => yields_eq (List.all_eq_true.1 h k (List.mem_range.2 hk))

/-- These bytes stand at the pc of this state, and the run has not ended. -/
def Stands (s : State) (bytes : List Byte) : Prop := s.params.endAddr ≠ some s.eip ∧ fetches s bytes

theorem stands_of {s : State} {bytes : List Byte} (h0 : s.params.endAddr ≠ some s.eip)
    (h : (List.range bytes.length).all (fun k => yields (fetchByte s k) (bytes.getD k 0)) = true) : Stands s bytes :=
  ⟨h0, fetches_of h⟩

/-- The longest instruction, 15 bytes, and a 16-bit default. -/
theorem witness_DecodeOfEncode :
    (Instr.paddb (List.replicate 7 .opSize) .mm0 (.mem (.sib 1 .eax .ebp (.d32 0)))).wellFormed .a32 = true ∧
    (Instr.paddb [] .mm0 (.mem (.base16 .bp (.d8 0)))).wellFormed .a16 = true := by decide

theorem witness_EncodeOfDecode : decode .a32 [0x67, 0x0F, 0xFC, 0x46, 0x80, 0x90] =
    .instr (.paddb [.addrSize] .mm0 (.mem (.base16 .bp (.d8 0x80)))) [0x90] := by decide

theorem witness_EncodedLength : (Instr.emms (List.replicate 13 .rep)).wellFormed .a32 = true ∧
    (Instr.jnz 0).wellFormed .a32 = true := by decide

/-- Z with fifteen prefixes and then a hole. -/
def zHole (h : List Byte) : State := z.withProgram (List.replicate 15 0x66 ++ h)

theorem witness_HolesRaiseInvalidOpcode :
    (isHole [0x0F, 0x6C] ∧ Stands (zHole [0x0F, 0x6C]) (List.replicate 15 0x66 ++ [0x0F, 0x6C])) ∧
    (isHole [0x0F, 0xFF] ∧ Stands (zHole [0x0F, 0xFF]) (List.replicate 15 0x66 ++ [0x0F, 0xFF])) ∧
    (isHole [0x0F, 0x71, 0xC8] ∧ Stands (zHole [0x0F, 0x71, 0xC8]) (List.replicate 15 0x66 ++ [0x0F, 0x71, 0xC8])) ∧
    (isHole [0x0F, 0x72, 0x90] ∧ Stands (zHole [0x0F, 0x72, 0x90]) (List.replicate 15 0x66 ++ [0x0F, 0x72, 0x90])) ∧
    (isHole [0x0F, 0x73, 0xE0] ∧ Stands (zHole [0x0F, 0x73, 0xE0]) (List.replicate 15 0x66 ++ [0x0F, 0x73, 0xE0])) :=
  ⟨⟨.inl ⟨0x6C, by decide, rfl⟩, stands_of (by decide) (by decide)⟩,
    ⟨.inl ⟨0xFF, by decide, rfl⟩, stands_of (by decide) (by decide)⟩,
    ⟨.inr ⟨0x71, 0xC8, rfl, by decide⟩, stands_of (by decide) (by decide)⟩,
    ⟨.inr ⟨0x72, 0x90, rfl, by decide⟩, stands_of (by decide) (by decide)⟩,
    ⟨.inr ⟨0x73, 0xE0, rfl, by decide⟩, stands_of (by decide) (by decide)⟩⟩

/-- EMMS of sixteen bytes, the least too long, and of eighteen, its opcode past the fifteenth byte (VP10). -/
theorem witness_TooLongInstructionFaults :
    (15 < (encode (.emms (List.replicate 14 .opSize))).length ∧
      Stands (z.withProgram (encode (.emms (List.replicate 14 .opSize)))) (encode (.emms (List.replicate 14 .opSize)))) ∧
    (15 < (encode (.emms (List.replicate 16 .opSize))).length ∧
      Stands (z.withProgram (encode (.emms (List.replicate 16 .opSize)))) (encode (.emms (List.replicate 16 .opSize)))) :=
  ⟨⟨by decide, stands_of (by decide) (by decide)⟩, by decide, stands_of (by decide) (by decide)⟩

/-- CPUID under one prefix, and under so many that its opcode is past the fifteenth byte. -/
theorem witness_PrefixOnBaseInstructionRefused : Instr.isMmx .cpuid = false ∧
    Stands (z.withProgram [0xF3, 0x0F, 0xA2]) ([Prefix.rep].map Prefix.byte ++ encode .cpuid) ∧
    Stands (z.withProgram (List.replicate 16 0xF3 ++ [0x0F, 0xA2]))
      ((List.replicate 16 Prefix.rep).map Prefix.byte ++ encode .cpuid) :=
  ⟨by decide, stands_of (by decide) (by decide), stands_of (by decide) (by decide)⟩

/-- MOVQ MM0, MM1 at the pc of Z. -/
theorem witness_StepRunsTheInstructionAtThePc : (Instr.movqLoad [] .mm0 (.reg .mm1)).wellFormed .a32 = true ∧
    Stands (z.withProgram [0x0F, 0x6F, 0xC1]) (encode (.movqLoad [] .mm0 (.reg .mm1))) :=
  ⟨by decide, stands_of (by decide) (by decide)⟩

/-- Z at the last address below 2^32, which is program text. -/
def zTop : State :=
  { z with
    eip := 0xFFFFFFFF
    params := { zParams with regions := [⟨⟨0, 2 ^ 32⟩, .ram⟩], text := [⟨0xFFFFFFFF, 2 ^ 32⟩] } }

/-- Both directions, at the last address. -/
theorem witness_FetchReadsTheProgramText : fetchByte zTop 0 = .next 0 ∧
    (zTop.eip.toNat + 0 < 2 ^ 32 ∧ translateBytes zTop .cs (zTop.eip + BitVec.ofNat 32 0) 1 .read = .next [0xFFFFFFFF] ∧
      inText zTop 0xFFFFFFFF = true) :=
  ⟨yields_eq (by decide), by decide, yields_eq (by decide), by decide⟩

/-- Z with EMMS at the pc, its second byte on a page that is not there. -/
def zSplit : State :=
  { z.withProgram [0x0F, 0x77] with
    params := { (z.withProgram [0x0F, 0x77]).params with pageRules := [⟨none, ⟨0x201, 0x1000⟩, .pageFault 0⟩] } }

theorem witness_FetchFaultComesFirst : (Instr.emms []).wellFormed .a32 = true ∧
    1 < (encode (.emms [])).length ∧ Stands zSplit ((encode (.emms [])).take 1) ∧
    fetchByte zSplit 1 = .fault (.pageFault 0x201 0) :=
  ⟨by decide, by decide, stands_of (by decide) (by decide), faults_eq (by decide)⟩

/-- EMMS at FFFFFFFFh: its second byte is past 2^32. -/
def zWrap : State := { zTop with mem := [(0xFFFFFFFF, 0x0F)] }

/-- Z with EMMS at the pc, its second byte past the code segment's limit. -/
def zLimit : State :=
  { z.withProgram [0x0F, 0x77] with
    params := { (z.withProgram [0x0F, 0x77]).params with
      segRules := [⟨some .cs, none, none, ⟨0x201, 2 ^ 32⟩, .limit⟩] } }

/-- Both clauses, at the first byte past the end. -/
theorem witness_FetchAcrossTheEndRefused : (Instr.emms []).wellFormed .a32 = true ∧ 1 < (encode (.emms [])).length ∧
    (Stands zWrap ((encode (.emms [])).take 1) ∧ 2 ^ 32 ≤ zWrap.eip.toNat + 1) ∧
    (Stands zLimit ((encode (.emms [])).take 1) ∧ zLimit.eip.toNat + 1 < 2 ^ 32 ∧
      linearOf zLimit .cs .read (zLimit.eip.toNat + 1) = .fault (.limitViolation .cs)) :=
  ⟨by decide, by decide, ⟨stands_of (by decide) (by decide), by decide⟩, stands_of (by decide) (by decide), by decide,
    faults_eq (by decide)⟩

/-- Z with MOVQ [2000h], MM0 at the pc, and 99h in MM0. -/
def zStore : State := State.putFp (z.withProgram [0x0F, 0x7F, 0x05, 0x00, 0x20, 0x00, 0x00]) .mm0 0x99

theorem witness_StepKeepsMemoryCanonical : Memory.wf zStore.mem = true ∧ Completes zStore := ⟨by decide, _, rfl⟩

/-- A byte of the text at each end of it. -/
theorem witness_StepKeepsTheProgram : Completes zStore ∧ inText zStore 0x200 = true ∧ inText zStore 0x206 = true :=
  ⟨⟨_, rfl⟩, by decide, by decide⟩

theorem witness_StepKeepsHostState : Completes zStore := ⟨_, rfl⟩

theorem witness_StepWritesOnlyStoredBytes : fetchInstr zStore = .next (.movqStore [] (.mem (.abs32 0x2000)) .mm0) ∧
    after [0x0F, 0x7F, 0x05, 0x00, 0x20, 0x00, 0x00] (State.putFp z .mm0 0x99)
      (fun t => decide (Memory.read t.mem 0x2000 ≠ Memory.read zStore.mem 0x2000)) = some true :=
  ⟨yields_eq (by decide), by decide⟩

/-- POR MM0, MM1 and EMMS run in Z. -/
theorem witness_MmxInstructionsSetTheTagWord : ((Instr.por [] .mm0 (.reg .mm1)).isMmx = true ∧
      isEmms (.por [] .mm0 (.reg .mm1)) = false ∧ ∃ t, exec (.por [] .mm0 (.reg .mm1)) z = .next t) ∧
    ((Instr.emms []).isMmx = true ∧ isEmms (.emms []) = true ∧ ∃ t, exec (.emms []) z = .next t) :=
  ⟨⟨by decide, by decide, _, rfl⟩, by decide, by decide, _, rfl⟩

/-- EMMS too. -/
theorem witness_MmxInstructionsClearTos : (Instr.emms []).isMmx = true ∧ ∃ t, exec (.emms []) z = .next t :=
  ⟨by decide, _, rfl⟩

/-- Both clauses: the destination, and another register. -/
theorem witness_ExponentPartsOnlyOfTheDestination : (Instr.por [] .mm0 (.reg .mm1)).isMmx = true ∧
    (∃ t, exec (.por [] .mm0 (.reg .mm1)) z = .next t) ∧ (Instr.por [] .mm0 (.reg .mm1)).mmDst = some .mm0 ∧
    (Instr.por [] .mm0 (.reg .mm1)).mmDst ≠ some .mm1 :=
  ⟨by decide, ⟨_, rfl⟩, by decide, by decide⟩

theorem witness_MmxInstructionsFrame : (Instr.movdStore [] (.reg .ebx) .mm1).isMmx = true ∧
    (∃ t, exec (.movdStore [] (.reg .ebx) .mm1) z = .next t) ∧
    (Instr.movdStore [] (.reg .ebx) .mm1).gpDst ≠ some .eax ∧ (Instr.movdStore [] (.reg .ebx) .mm1).storeDst = none :=
  ⟨by decide, ⟨_, rfl⟩, by decide, by decide⟩

/-- Z with CR0.EM set. -/
def zEm : State := { z with cr0 := 4 }
/-- Z with CR0.TS set and modelled. -/
def zTs : State := { z with cr0 := 8, params := { zParams with cr0TsModelled := true } }
/-- Z with a pending floating-point exception. -/
def zPending : State := { z with fpExcPending := true }
/-- Z with a page that is not there, from 3000h on. -/
def zPage : State := { z with params := { zParams with pageRules := [⟨none, ⟨0x3000, 0x4000⟩, .pageFault 2⟩] } }
/-- An operand whose last byte alone is on that page: `n` bytes. -/
def atEdge (n : Nat) : MemRef := .abs32 (BitVec.ofNat 32 (0x3001 - n))

/-- What the states above meet: the hypotheses of the checks, one line each. -/
theorem checks_met :
    z.params.hasMmx = true ∧
    (zEm.params.hasMmx = true ∧ zEm.em = true) ∧
    (zTs.params.hasMmx = true ∧ zTs.em = false ∧ zTs.params.cr0TsModelled = true ∧ zTs.ts = true) ∧
    (zPending.params.hasMmx = true ∧ zPending.em = false ∧ (zPending.params.cr0TsModelled && zPending.ts) = false ∧
      zPending.fpExcPending = true) := by decide

theorem witness_MmxChecksInOrder : (Instr.emms []).isMmx = true ∧ Prefix.lock ∈ (Instr.emms [.rep, .lock]).prefixes ∧
    Prefix.lock ∉ (Instr.emms []).prefixes ∧ zEm.em = true ∧ (zTs.em = false ∧ zTs.ts = true) ∧
    (zPending.em = false ∧ zPending.ts = false ∧ zPending.fpExcPending = true) := by decide

/-- Each exception is raised. -/
theorem witness_MmxExceptionsOnly : (Instr.movqLoad [] .mm0 (.mem (atEdge 8))).isMmx = true ∧
    exec (.movqLoad [] .mm0 (.mem (atEdge 8))) zPage = .fault (.pageFault 0x3000 2) ∧
    exec (.movqLoad [.lock] .mm0 (.mem (atEdge 8))) zPage = .fault .invalidOpcode ∧
    exec (.movqLoad [] .mm0 (.mem (atEdge 8))) zTs = .fault .deviceNotAvailable ∧
    exec (.movqLoad [] .mm0 (.mem (atEdge 8))) zPending = .fault (.numericError .int16) :=
  ⟨by decide, faults_eq (by decide), faults_eq (by decide), faults_eq (by decide), faults_eq (by decide)⟩

theorem witness_NoMmxTechnologyRefused : { zParams with hasMmx := false }.hasMmx = false ∧
    (Instr.emms []).isMmx = true ∧ Instr.isMmx .cpuid = false := by decide

/-- One of each form is a row of the map. -/
theorem witness_OperandSizeAndRepeatIgnored :
    isMmxBody (fun pfx => .por pfx .mm0 (.mem (.abs32 0))) ∧ isMmxBody (fun pfx => .movdLoad pfx .mm0 (.reg .eax)) ∧
    isMmxBody (fun pfx => .psllqImm pfx .mm7 0xFF) ∧ isMmxBody .emms :=
  ⟨.inl ⟨(0xEB, .por), by simp [mmRows], .mm0, .mem (.abs32 0), rfl⟩,
    .inr (.inl ⟨(0x6E, .movdLoad), by simp [gpRows], .mm0, .reg .eax, rfl⟩),
    .inr (.inr (.inl ⟨((0x73, 6), .psllqImm), by simp [shiRows], .mm7, 0xFF, rfl⟩)), .inr (.inr (.inr rfl))⟩

theorem witness_PrefixesIgnoredWithoutMemoryOperand :
    isMmxBody (fun pfx => .por pfx .mm0 (.reg .mm1)) ∧ (Instr.por [] .mm0 (.reg .mm1)).memRef = none ∧
    Prefix.addrSize ≠ .lock ∧ Prefix.segment .gs ≠ .lock ∧ isMmxBody .emms ∧ (Instr.emms []).memRef = none :=
  ⟨.inl ⟨(0xEB, .por), by simp [mmRows], .mm0, .reg .mm1, rfl⟩, by decide, by decide, by decide,
    .inr (.inr (.inr rfl)), by decide⟩

theorem witness_PrefixesInForce : (∀ g, Prefix.segment g ∉ [Prefix.opSize]) ∧
    (∀ h, Prefix.segment h ∉ ([] : List Prefix)) ∧ Prefix.addrSize ∉ [Prefix.segment .es] ∧
    Prefix.addrSize ∈ [Prefix.addrSize, Prefix.addrSize] ∧ (Rm16.bp = .bp → Disp16.d8 0 ≠ .absent) := by
  refine ⟨fun g => ?_, fun h => ?_, by decide, by decide, by decide⟩ <;> simp

theorem witness_EffectiveAddresses : Reg32.ebp ≠ .esp := by decide

theorem witness_FloatingPointCodeFinds : ((Instr.por [] .mm0 (.reg .mm1)).isMmx = true ∧
      isEmms (.por [] .mm0 (.reg .mm1)) = false ∧ (Instr.por [] .mm0 (.reg .mm1)).mmDst = some .mm0 ∧
      ∃ t, exec (.por [] .mm0 (.reg .mm1)) z = .next t) ∧
    ((Instr.emms []).isMmx = true ∧ isEmms (.emms []) = true ∧ ∃ t, exec (.emms []) z = .next t) :=
  ⟨⟨by decide, by decide, by decide, _, rfl⟩, by decide, by decide, _, rfl⟩

/-! The rules of the instructions: register and memory source, at the last address of memory, and each exception. -/

/-- The hypotheses of `commonExceptions` for an instruction with a memory form. -/
def MeetsCommon (mk : List Prefix → MemRef → Instr) (n : Nat) (kind : AccessKind) : Prop :=
  Prefix.lock ∈ (mk [.lock] (atEdge n)).prefixes ∧ Prefix.lock ∉ (mk [] (atEdge n)).prefixes ∧
  z.params.hasMmx = true ∧ (zEm.params.hasMmx = true ∧ zEm.em = true) ∧
  (zTs.params.hasMmx = true ∧ zTs.em = false ∧ zTs.params.cr0TsModelled = true ∧ zTs.ts = true) ∧
  (zPending.params.hasMmx = true ∧ zPending.em = false ∧ (zPending.params.cr0TsModelled && zPending.ts) = false ∧
    zPending.fpExcPending = true) ∧
  (mmxReady zPage = true ∧ (mk [] (atEdge n)).memRef = some (atEdge n) ∧
    translateBytes zPage (operandSeg (mk [] (atEdge n)).prefixes (atEdge n)) ((atEdge n).ea zPage) n kind =
      .fault (.pageFault 0x3000 2))

/-- The hypotheses of `rule64`. -/
def Meets64 (mk : List Prefix → MmReg → MmRm → Instr) : Prop :=
  MeetsCommon (fun pfx m => mk pfx .mm0 (.mem m)) 8 .read ∧ mmxReady z = true ∧ Prefix.lock ∉ ([] : List Prefix) ∧
  isSource64 [] (.reg .mm7) z 0 ∧ isSource64 [] (.mem (.abs32 0xFFF8)) z 0

/-- The hypotheses of `rule32`. -/
def Meets32 (mk : List Prefix → MmReg → MmRm → Instr) : Prop :=
  MeetsCommon (fun pfx m => mk pfx .mm0 (.mem m)) 4 .read ∧ mmxReady z = true ∧ Prefix.lock ∉ ([] : List Prefix) ∧
  isSource32 [] (.reg .mm7) z 0 ∧ isSource32 [] (.mem (.abs32 0xFFFC)) z 0

theorem source64_met : isSource64 [] (.reg .mm7) z 0 ∧ isSource64 [] (.mem (.abs32 0xFFF8)) z 0 :=
  ⟨by unfold isSource64; decide, _, yields_eq (a := [0xFFF8, 0xFFF9, 0xFFFA, 0xFFFB, 0xFFFC, 0xFFFD, 0xFFFE, 0xFFFF])
    (by decide), by unfold bytesAt64; decide⟩

theorem source32_met : isSource32 [] (.reg .mm7) z 0 ∧ isSource32 [] (.mem (.abs32 0xFFFC)) z 0 :=
  ⟨by unfold isSource32; decide, _, yields_eq (a := [0xFFFC, 0xFFFD, 0xFFFE, 0xFFFF])
    (by decide), by unfold bytesAt32; decide⟩

/-- `commonExceptions`, from the shape of the instruction. -/
theorem common_met {mk : List Prefix → MemRef → Instr} {n : Nat} {kind : AccessKind}
    (h : ∀ pfx m, (mk pfx m).prefixes = pfx ∧ (mk pfx m).memRef = some m)
    (hn : faults (translateBytes zPage (operandSeg [] (atEdge n)) ((atEdge n).ea zPage) n kind) (.pageFault 0x3000 2) =
      true) : MeetsCommon mk n kind := by
  obtain ⟨h1, h2, h3, h4⟩ := checks_met
  refine ⟨by rw [(h _ _).1]; decide, by rw [(h _ _).1]; decide, h1, h2, h3, h4, by decide, (h _ _).2, ?_⟩
  rw [(h _ _).1]
  exact faults_eq hn

theorem meets64 {mk : List Prefix → MmReg → MmRm → Instr}
    (h : ∀ pfx m, (mk pfx .mm0 (.mem m)).prefixes = pfx ∧ (mk pfx .mm0 (.mem m)).memRef = some m) : Meets64 mk :=
  ⟨common_met h (by decide), by decide, by decide, source64_met⟩

theorem meets32 {mk : List Prefix → MmReg → MmRm → Instr}
    (h : ∀ pfx m, (mk pfx .mm0 (.mem m)).prefixes = pfx ∧ (mk pfx .mm0 (.mem m)).memRef = some m) : Meets32 mk :=
  ⟨common_met h (by decide), by decide, by decide, source32_met⟩

/-- The hypotheses of `ruleImm` (there is no memory operand). -/
def MeetsImm (mk : List Prefix → MmReg → Byte → Instr) : Prop :=
  Prefix.lock ∈ (mk [.lock] .mm0 0xFF).prefixes ∧ Prefix.lock ∉ (mk [] .mm0 0xFF).prefixes ∧ mmxReady z = true ∧
  (zEm.params.hasMmx = true ∧ zEm.em = true) ∧
  (zTs.params.hasMmx = true ∧ zTs.em = false ∧ zTs.params.cr0TsModelled = true ∧ zTs.ts = true) ∧
  (zPending.params.hasMmx = true ∧ zPending.em = false ∧ (zPending.params.cr0TsModelled && zPending.ts) = false ∧
    zPending.fpExcPending = true)

theorem witness_EmmsEmptiesTheTagWord : MeetsImm (fun pfx _ _ => .emms pfx) ∧
    exec (.emms []) zPending = .fault (.numericError .int16) := by
  refine ⟨?_, faults_eq ?_⟩
  · unfold MeetsImm; decide
  · decide

/-- A register source and a memory source. -/
theorem witness_MovdLoad : MeetsCommon (fun pfx m => .movdLoad pfx .mm0 (.mem m)) 4 .read ∧ mmxReady z = true ∧
    isSourceGp [] (.reg .edi) z 0 ∧ isSourceGp [] (.mem (.abs32 0xFFFC)) z 0 :=
  ⟨common_met (fun _ _ => ⟨rfl, rfl⟩) (by decide), by decide, by unfold isSourceGp; decide,
    ⟨_, yields_eq (a := [0xFFFC, 0xFFFD, 0xFFFE, 0xFFFF]) (by decide), by unfold bytesAt32; decide⟩⟩

/-- Both clauses of `storesTo`, the last bytes of memory and the program text, for stores of `n` bytes. -/
def MeetsStore (n : Nat) : Prop :=
  (∃ addrs, translateBytes z .ds (BitVec.ofNat 32 (0x10000 - n)) n .write = .next addrs ∧
    ∀ a ∈ addrs, inText z a = false) ∧
  (mmxReady zStore = true ∧ ∃ addrs, translateBytes zStore .ds 0x206 n .write = .next addrs ∧
    ∃ a ∈ addrs, inText zStore a = true)

theorem witness_MovdStore : MeetsCommon (fun pfx m => .movdStore pfx (.mem m) .mm0) 4 .write ∧ mmxReady z = true ∧
    MeetsStore 4 :=
  ⟨common_met (fun _ _ => ⟨rfl, rfl⟩) (by decide), by decide,
    ⟨_, yields_eq (a := [0xFFFC, 0xFFFD, 0xFFFE, 0xFFFF]) (by decide), by decide⟩, by decide,
    ⟨_, yields_eq (a := [0x206, 0x207, 0x208, 0x209]) (by decide), 0x206, by decide, by decide⟩⟩

theorem witness_MovqLoad : Meets64 .movqLoad := meets64 fun _ _ => ⟨rfl, rfl⟩

theorem witness_MovqStore : MeetsCommon (fun pfx m => .movqStore pfx (.mem m) .mm0) 8 .write ∧ mmxReady z = true ∧
    MeetsStore 8 :=
  ⟨common_met (fun _ _ => ⟨rfl, rfl⟩) (by decide), by decide,
    ⟨_, yields_eq (a := [0xFFF8, 0xFFF9, 0xFFFA, 0xFFFB, 0xFFFC, 0xFFFD, 0xFFFE, 0xFFFF]) (by decide), by decide⟩,
    by decide, ⟨_, yields_eq (a := [0x206, 0x207, 0x208, 0x209, 0x20A, 0x20B, 0x20C, 0x20D]) (by decide), 0x206,
      by decide, by decide⟩⟩

theorem witness_PackInstructions :
    Meets64 .packsswb ∧ Meets64 .packssdw ∧ Meets64 .packuswb :=
  ⟨meets64 fun _ _ => ⟨rfl, rfl⟩,
    meets64 fun _ _ => ⟨rfl, rfl⟩,
    meets64 fun _ _ => ⟨rfl, rfl⟩⟩

theorem witness_UnpackHighInstructions :
    Meets64 .punpckhbw ∧ Meets64 .punpckhwd ∧ Meets64 .punpckhdq :=
  ⟨meets64 fun _ _ => ⟨rfl, rfl⟩,
    meets64 fun _ _ => ⟨rfl, rfl⟩,
    meets64 fun _ _ => ⟨rfl, rfl⟩⟩

theorem witness_UnpackLowInstructions :
    Meets32 .punpcklbw ∧ Meets32 .punpcklwd ∧ Meets32 .punpckldq :=
  ⟨meets32 fun _ _ => ⟨rfl, rfl⟩,
    meets32 fun _ _ => ⟨rfl, rfl⟩,
    meets32 fun _ _ => ⟨rfl, rfl⟩⟩

theorem witness_WrapAroundArithmetic :
    Meets64 .paddb ∧ Meets64 .paddw ∧ Meets64 .paddd ∧ Meets64 .psubb ∧ Meets64 .psubw ∧ Meets64 .psubd :=
  ⟨meets64 fun _ _ => ⟨rfl, rfl⟩,
    meets64 fun _ _ => ⟨rfl, rfl⟩,
    meets64 fun _ _ => ⟨rfl, rfl⟩,
    meets64 fun _ _ => ⟨rfl, rfl⟩,
    meets64 fun _ _ => ⟨rfl, rfl⟩,
    meets64 fun _ _ => ⟨rfl, rfl⟩⟩

theorem witness_SignedSaturatingArithmetic :
    Meets64 .paddsb ∧ Meets64 .paddsw ∧ Meets64 .psubsb ∧ Meets64 .psubsw :=
  ⟨meets64 fun _ _ => ⟨rfl, rfl⟩,
    meets64 fun _ _ => ⟨rfl, rfl⟩,
    meets64 fun _ _ => ⟨rfl, rfl⟩,
    meets64 fun _ _ => ⟨rfl, rfl⟩⟩

theorem witness_UnsignedSaturatingArithmetic :
    Meets64 .paddusb ∧ Meets64 .paddusw ∧ Meets64 .psubusb ∧ Meets64 .psubusw :=
  ⟨meets64 fun _ _ => ⟨rfl, rfl⟩,
    meets64 fun _ _ => ⟨rfl, rfl⟩,
    meets64 fun _ _ => ⟨rfl, rfl⟩,
    meets64 fun _ _ => ⟨rfl, rfl⟩⟩

theorem witness_MultiplyInstructions :
    Meets64 .pmulhw ∧ Meets64 .pmullw ∧ Meets64 .pmaddwd :=
  ⟨meets64 fun _ _ => ⟨rfl, rfl⟩,
    meets64 fun _ _ => ⟨rfl, rfl⟩,
    meets64 fun _ _ => ⟨rfl, rfl⟩⟩

theorem witness_CompareEqual :
    Meets64 .pcmpeqb ∧ Meets64 .pcmpeqw ∧ Meets64 .pcmpeqd :=
  ⟨meets64 fun _ _ => ⟨rfl, rfl⟩,
    meets64 fun _ _ => ⟨rfl, rfl⟩,
    meets64 fun _ _ => ⟨rfl, rfl⟩⟩

theorem witness_CompareGreater :
    Meets64 .pcmpgtb ∧ Meets64 .pcmpgtw ∧ Meets64 .pcmpgtd :=
  ⟨meets64 fun _ _ => ⟨rfl, rfl⟩,
    meets64 fun _ _ => ⟨rfl, rfl⟩,
    meets64 fun _ _ => ⟨rfl, rfl⟩⟩

theorem witness_LogicalInstructions :
    Meets64 .pand ∧ Meets64 .pandn ∧ Meets64 .por ∧ Meets64 .pxor :=
  ⟨meets64 fun _ _ => ⟨rfl, rfl⟩,
    meets64 fun _ _ => ⟨rfl, rfl⟩,
    meets64 fun _ _ => ⟨rfl, rfl⟩,
    meets64 fun _ _ => ⟨rfl, rfl⟩⟩

theorem witness_ShiftLeftLogical :
    Meets64 .psllw ∧ Meets64 .pslld ∧ Meets64 .psllq ∧ MeetsImm .psllwImm ∧ MeetsImm .pslldImm ∧
    MeetsImm .psllqImm := by
  refine ⟨meets64 fun _ _ => ⟨rfl, rfl⟩, meets64 fun _ _ => ⟨rfl, rfl⟩, meets64 fun _ _ => ⟨rfl, rfl⟩, ?_⟩
  unfold MeetsImm
  decide

theorem witness_ShiftRightLogical :
    Meets64 .psrlw ∧ Meets64 .psrld ∧ Meets64 .psrlq ∧ MeetsImm .psrlwImm ∧ MeetsImm .psrldImm ∧
    MeetsImm .psrlqImm := by
  refine ⟨meets64 fun _ _ => ⟨rfl, rfl⟩, meets64 fun _ _ => ⟨rfl, rfl⟩, meets64 fun _ _ => ⟨rfl, rfl⟩, ?_⟩
  unfold MeetsImm
  decide

theorem witness_ShiftRightArithmetic :
    Meets64 .psraw ∧ Meets64 .psrad ∧ MeetsImm .psrawImm ∧ MeetsImm .psradImm := by
  refine ⟨meets64 fun _ _ => ⟨rfl, rfl⟩, meets64 fun _ _ => ⟨rfl, rfl⟩, ?_⟩
  unfold MeetsImm
  decide

/-- EAX = 1, and two states that agree on EAX and `HasMMX`. -/
theorem witness_CpuidReports : (z.setX .eax 1).gpr[0] = 1 ∧ zEm.gpr[0] = z.gpr[0] ∧
    zEm.params.hasMmx = z.params.hasMmx ∧ (∃ t, exec .cpuid zEm = .next t) ∧ ∃ t, exec .cpuid z = .next t :=
  ⟨by decide, by decide, by decide, ⟨_, rfl⟩, _, rfl⟩

/-- A memory form of F7 /0. -/
theorem witness_TestSetsTheFlags : (0x02 : Byte).extractLsb' 6 2 ≠ 3 := by decide

theorem witness_JnzJumpsIfNotZero : z.flags.zf = false ∧ { z with flags := { noFlags with zf := true } }.flags.zf = true := by
  decide

/-- The last bytes of memory. -/
theorem witness_LittleEndianReadAndWrite : Memory.wf zStore.mem = true ∧
    memRead zStore .ds 0xFFFC 4 = .next [0, 0, 0, 0] ∧ (∃ t, memWrite zStore .ds 0xFFFC (toLe 4 0x12345678) = .next t) ∧
    [0xFFFC, 0xFFFD, 0xFFFE, 0xFFFF].Nodup :=
  ⟨by decide, yields_eq (by decide), ⟨_, rfl⟩, by decide⟩

theorem witness_MixedWidthAccess : Memory.wf z.mem = true ∧
    translateBytes z .ds 0xFFF8 8 .write = .next [0xFFF8, 0xFFF9, 0xFFFA, 0xFFFB, 0xFFFC, 0xFFFD, 0xFFFE, 0xFFFF] ∧
    [0xFFF8, 0xFFF9, 0xFFFA, 0xFFFB, 0xFFFC, 0xFFFD, 0xFFFE, 0xFFFF].Nodup ∧
    (∃ t, memWrite z .ds 0xFFF8 (toLe 8 (0x1122334455667788 : QWord).toNat) = .next t) ∧
    translateBytes z .ds 0xFFF8 8 .read = .next [0xFFF8, 0xFFF9, 0xFFFA, 0xFFFB, 0xFFFC, 0xFFFD, 0xFFFE, 0xFFFF] ∧
    translateBytes z .ds 0xFFF8 4 .read = .next [0xFFF8, 0xFFF9, 0xFFFA, 0xFFFB] ∧
    translateBytes z .ds (0xFFF8 + 4) 4 .read = .next [0xFFFC, 0xFFFD, 0xFFFE, 0xFFFF] :=
  ⟨by decide, yields_eq (by decide), by decide, ⟨_, rfl⟩, yields_eq (by decide), yields_eq (by decide),
    yields_eq (by decide)⟩

/-- Z over the whole space, with the alignment check. -/
def zFlat (check : Bool) : State :=
  { z with params := { zParams with regions := [⟨⟨0, 2 ^ 32⟩, .ram⟩], alignmentCheck := check } }

/-- Up to the last byte, and one byte past it; aligned and not. -/
theorem witness_FlatTranslation : (∀ c, (zFlat c).params.segRules = [] ∧ (zFlat c).params.pageRules = [] ∧
      (zFlat c).params.regions = [⟨⟨0, 2 ^ 32⟩, .ram⟩]) ∧
    (0xFFFFFFF8 : DWord).toNat + 8 ≤ 2 ^ 32 ∧ (zFlat false).params.alignmentCheck = false ∧
    (zFlat true).params.alignmentCheck = true ∧ (0xFFFFFFF8 : DWord).toNat % 8 = 0 ∧
    (0xFFFFFFF7 : DWord).toNat % 8 ≠ 0 ∧ (2 ^ 32 < (0xFFFFFFF9 : DWord).toNat + 8 ∧ (0xFFFFFFF9 : DWord).toNat % 8 ≠ 0) ∧
    (2 ^ 32 < (0xFFFFFFFF : DWord).toNat + 3 ∧ (0xFFFFFFFF : DWord).toNat % 3 = 0) := by
  refine ⟨fun c => ⟨rfl, rfl, rfl⟩, ?_⟩
  decide

/-- The first and the last byte of an operand, in each stage. -/
theorem witness_SegmentationBeforePaging :
    let s := { zPage with params := { zPage.params with segRules := [⟨some .es, none, none, ⟨0x2004, 0x2005⟩, .limit⟩] } }
    linearOf s .es .read (0x2004 + 0) = .fault (.limitViolation .es) ∧
    (linearOf s .es .read (0x2001 + 0) = .next 0x2001 ∧ linearOf s .es .read (0x2001 + 1) = .next 0x2002 ∧
      linearOf s .es .read (0x2001 + 2) = .next 0x2003 ∧
      linearOf s .es .read (0x2001 + 3) = .fault (.limitViolation .es)) ∧
    (s.params.alignmentCheck = false ∧ (∀ i, i < 8 → linearOf s .ds .read (0x2FFF + i) = .next (0x2FFF + i)) ∧
      physicalOf s .read 0x2FFF = .next 0x2FFF ∧ physicalOf s .read 0x3000 = .fault (.pageFault 0x3000 2)) :=
  ⟨rfl, ⟨rfl, rfl, rfl, rfl⟩, rfl, fun i hi => by interval_cases i <;> rfl, rfl, rfl⟩

/-- EMMS at the pc of Z with a pending exception, reported in one mode or the other. -/
def zResume (mode : NumericErrorMode) : State :=
  { z.withProgram [0x0F, 0x77] with
    fpExcPending := true
    params := { (z.withProgram [0x0F, 0x77]).params with numericErrorMode := mode } }

/-- Both modes. -/
theorem witness_InstructionResumesAfterNumericError : (Instr.emms []).isMmx = true ∧
    ∀ mode, (Instr.emms []).wellFormed (zResume mode).params.defaultAddrSize = true ∧
      Stands (zResume mode) (encode (.emms [])) ∧ Prefix.lock ∉ (Instr.emms []).prefixes ∧
      mmxReady { zResume mode with fpExcPending := false } = true ∧ (zResume mode).fpExcPending = true :=
  ⟨by decide, fun mode => by
    cases mode <;> exact ⟨by decide, stands_of (by decide) (by decide), by decide, by decide, by decide⟩⟩

theorem witness_ExceptionsArePrecise : (Fault.pageFault 0 0 = .pageFault 0 0) ∧
    (∀ l c, Fault.numericError .ferr ≠ .pageFault l c) := by simp

theorem witness_TaskSwitches : z.params.osKind = .preemptive ∧
    { zParams with osKind := .cooperative }.osKind = .cooperative := by decide

end Sys2Proof.Machine.Tests
end

/-! PROOFS, family 00_scope.md: what the encoder writes is what the decoder reads and the fetch brings (O8), the checks of
R150 come first (O24), and `Translate` without lines is the flat map (O54). -/

namespace Sys2Proof

/-! ### The form of an encoding, row by row of R118 -/

/-- The form an instruction's encoding has, with the row of the opcode map that the decoder finds it in. -/
inductive EncodingForm (i : Instr) : Prop
  | mm {op : Byte} {mk : List Prefix → MmReg → MmRm → Instr} {pfx : List Prefix} {r : MmReg} {rm : MmRm}
      (row : mmRows.lookup op = some mk) (eq : i = mk pfx r rm) (shape : i.shape = .rmMm pfx rm)
      (bytes : encode i = encodeRm pfx op r.num rm.field)
  | gp {op : Byte} {mk : List Prefix → MmReg → GpRm → Instr} {pfx : List Prefix} {r : MmReg} {rm : GpRm}
      (row : gpRows.lookup op = some mk) (eq : i = mk pfx r rm) (shape : i.shape = .rmGp pfx rm)
      (bytes : encode i = encodeRm pfx op r.num rm.field)
  | shi {op : Byte} {ext : BitVec 3} {mk : List Prefix → MmReg → Byte → Instr} {pfx : List Prefix} {r : MmReg}
      {imm : Byte} (row : shiRows.lookup (op, ext) = some mk) (eq : i = mk pfx r imm) (shape : i.shape = .shi pfx)
      (bytes : encode i = encodeShi pfx op ext r.num imm)
  | emms (pfx : List Prefix) (eq : i = .emms pfx)
  | base (h : i.isMmx = false)

/-- Every instruction has one of the five forms (R118). -/
theorem encodingForm (i : Instr) : EncodingForm i := by
  cases i with
  | punpcklbw => exact .mm (op := 0x60) rfl rfl rfl rfl
  | punpcklwd => exact .mm (op := 0x61) rfl rfl rfl rfl
  | punpckldq => exact .mm (op := 0x62) rfl rfl rfl rfl
  | packsswb => exact .mm (op := 0x63) rfl rfl rfl rfl
  | pcmpgtb => exact .mm (op := 0x64) rfl rfl rfl rfl
  | pcmpgtw => exact .mm (op := 0x65) rfl rfl rfl rfl
  | pcmpgtd => exact .mm (op := 0x66) rfl rfl rfl rfl
  | packuswb => exact .mm (op := 0x67) rfl rfl rfl rfl
  | punpckhbw => exact .mm (op := 0x68) rfl rfl rfl rfl
  | punpckhwd => exact .mm (op := 0x69) rfl rfl rfl rfl
  | punpckhdq => exact .mm (op := 0x6A) rfl rfl rfl rfl
  | packssdw => exact .mm (op := 0x6B) rfl rfl rfl rfl
  | movdLoad => exact .gp (op := 0x6E) rfl rfl rfl rfl
  | movqLoad => exact .mm (op := 0x6F) rfl rfl rfl rfl
  | psrlwImm => exact .shi (op := 0x71) (ext := 2) rfl rfl rfl rfl
  | psrawImm => exact .shi (op := 0x71) (ext := 4) rfl rfl rfl rfl
  | psllwImm => exact .shi (op := 0x71) (ext := 6) rfl rfl rfl rfl
  | psrldImm => exact .shi (op := 0x72) (ext := 2) rfl rfl rfl rfl
  | psradImm => exact .shi (op := 0x72) (ext := 4) rfl rfl rfl rfl
  | pslldImm => exact .shi (op := 0x72) (ext := 6) rfl rfl rfl rfl
  | psrlqImm => exact .shi (op := 0x73) (ext := 2) rfl rfl rfl rfl
  | psllqImm => exact .shi (op := 0x73) (ext := 6) rfl rfl rfl rfl
  | pcmpeqb => exact .mm (op := 0x74) rfl rfl rfl rfl
  | pcmpeqw => exact .mm (op := 0x75) rfl rfl rfl rfl
  | pcmpeqd => exact .mm (op := 0x76) rfl rfl rfl rfl
  | emms pfx => exact .emms pfx rfl
  | movdStore => exact .gp (op := 0x7E) rfl rfl rfl rfl
  | movqStore => exact .mm (op := 0x7F) rfl rfl rfl rfl
  | psrlw => exact .mm (op := 0xD1) rfl rfl rfl rfl
  | psrld => exact .mm (op := 0xD2) rfl rfl rfl rfl
  | psrlq => exact .mm (op := 0xD3) rfl rfl rfl rfl
  | pmullw => exact .mm (op := 0xD5) rfl rfl rfl rfl
  | psubusb => exact .mm (op := 0xD8) rfl rfl rfl rfl
  | psubusw => exact .mm (op := 0xD9) rfl rfl rfl rfl
  | pand => exact .mm (op := 0xDB) rfl rfl rfl rfl
  | paddusb => exact .mm (op := 0xDC) rfl rfl rfl rfl
  | paddusw => exact .mm (op := 0xDD) rfl rfl rfl rfl
  | pandn => exact .mm (op := 0xDF) rfl rfl rfl rfl
  | psraw => exact .mm (op := 0xE1) rfl rfl rfl rfl
  | psrad => exact .mm (op := 0xE2) rfl rfl rfl rfl
  | pmulhw => exact .mm (op := 0xE5) rfl rfl rfl rfl
  | psubsb => exact .mm (op := 0xE8) rfl rfl rfl rfl
  | psubsw => exact .mm (op := 0xE9) rfl rfl rfl rfl
  | por => exact .mm (op := 0xEB) rfl rfl rfl rfl
  | paddsb => exact .mm (op := 0xEC) rfl rfl rfl rfl
  | paddsw => exact .mm (op := 0xED) rfl rfl rfl rfl
  | pxor => exact .mm (op := 0xEF) rfl rfl rfl rfl
  | psllw => exact .mm (op := 0xF1) rfl rfl rfl rfl
  | pslld => exact .mm (op := 0xF2) rfl rfl rfl rfl
  | psllq => exact .mm (op := 0xF3) rfl rfl rfl rfl
  | pmaddwd => exact .mm (op := 0xF5) rfl rfl rfl rfl
  | psubb => exact .mm (op := 0xF8) rfl rfl rfl rfl
  | psubw => exact .mm (op := 0xF9) rfl rfl rfl rfl
  | psubd => exact .mm (op := 0xFA) rfl rfl rfl rfl
  | paddb => exact .mm (op := 0xFC) rfl rfl rfl rfl
  | paddw => exact .mm (op := 0xFD) rfl rfl rfl rfl
  | paddd => exact .mm (op := 0xFE) rfl rfl rfl rfl
  | cpuid => exact .base rfl
  | mov => exact .base rfl
  | test => exact .base rfl
  | jnz => exact .base rfl

/-- The encoding has the length of R117. -/
theorem length_encode (i : Instr) : (encode i).length = i.length := by
  cases encodingForm i with
  | mm row eq shape bytes => rw [bytes, Instr.length, shape, Laws.length_encodeMm]; rfl
  | gp row eq shape bytes => rw [bytes, Instr.length, shape, Laws.length_encodeGp]; rfl
  | shi row eq shape bytes => rw [bytes, Instr.length, shape, Laws.length_encodeShi]; rfl
  | emms pfx eq => exact eq ▸ Laws.EncodedLength.emms pfx
  | base h =>
    cases i with
    | cpuid => exact Laws.EncodedLength.cpuid
    | mov dst imm => exact Laws.EncodedLength.mov dst imm
    | test src imm => exact Laws.EncodedLength.test src imm
    | jnz rel => exact Laws.EncodedLength.jnz rel
    | _ => cases h

/-! ### The decoder on an encoding -/

/-- An opcode's first byte, one not in R102, is decoded under the prefixes in front of it (R108). -/
theorem decodeBytes_prefixes (dflt : AddrSize) (pfx : List Prefix) {b : Byte} (h : Prefix.ofByte b = none)
    (rest : List Byte) :
    decodeBytes dflt (pfx.map Prefix.byte ++ b :: rest) = decodeOpcode (effAddrSize dflt pfx) pfx (b :: rest) := by
  rw [decodeBytes, takePrefixes_append pfx h]

/-- ... and 0FH goes on to the second opcode byte (R110). -/
theorem decodeBytes_twoByte (dflt : AddrSize) (pfx : List Prefix) (rest : List Byte) :
    decodeBytes dflt (pfx.map Prefix.byte ++ 0x0F :: rest) = decodeTwoByte (effAddrSize dflt pfx) pfx rest := by
  rw [decodeBytes_prefixes dflt pfx (by decide), decodeOpcode, if_pos rfl]

/-- A row of `mmRows` decides its second opcode byte. -/
theorem decodeTwoByte_mm {op : Byte} {mk : List Prefix → MmReg → MmRm → Instr} (row : mmRows.lookup op = some mk)
    (size : AddrSize) (pfx : List Prefix) (rest : List Byte) :
    decodeTwoByte size pfx (op :: rest) = decodeRm size (fun r f => mk pfx r f.mm) rest := by
  have emms : op ≠ 0x77 := by rintro rfl; cases row
  have cpuid : op ≠ 0xA2 := by rintro rfl; cases row
  rw [decodeTwoByte, if_neg emms, if_neg cpuid, row]

theorem mem_of_lookup {α β : Type} [BEq α] [LawfulBEq α] {k : α} {v : β} {l : List (α × β)}
    (h : l.lookup k = some v) : (k, v) ∈ l := by
  obtain ⟨before, after, rfl, -⟩ := List.lookup_eq_some_iff.1 h
  simp

/-- A row of `gpRows` decides its second opcode byte. -/
theorem decodeTwoByte_gp {op : Byte} {mk : List Prefix → MmReg → GpRm → Instr} (row : gpRows.lookup op = some mk)
    (size : AddrSize) (pfx : List Prefix) (rest : List Byte) :
    decodeTwoByte size pfx (op :: rest) = decodeRm size (fun r f => mk pfx r f.gp) rest := by
  have bytes : op = 0x6E ∨ op = 0x7E :=
    (by decide : ∀ row ∈ gpRows, row.1 = 0x6E ∨ row.1 = 0x7E) _ (mem_of_lookup row)
  obtain rfl | rfl := bytes <;> cases row <;> rfl

/-- A row of `shiRows` has one of the three bytes of the shifts. -/
theorem byte_of_shiRow {op : Byte} {ext : BitVec 3} {mk : List Prefix → MmReg → Byte → Instr}
    (row : shiRows.lookup (op, ext) = some mk) : op ∈ shiBytes :=
  (by decide : ∀ row ∈ shiRows, row.1.1 ∈ shiBytes) _ (mem_of_lookup row)

/-- The bytes of the shifts by an immediate are in no other row. -/
theorem decodeTwoByte_shi {op : Byte} (h : op ∈ shiBytes) (size : AddrSize) (pfx : List Prefix) (rest : List Byte) :
    decodeTwoByte size pfx (op :: rest) = decodeShi op pfx rest := by
  simp only [shiBytes, List.mem_cons, List.not_mem_nil, or_false] at h
  obtain rfl | rfl | rfl := h <;> rfl

/-- An operand of format `RM` is read back, a memory operand where it can be spelt (R112, R113). -/
theorem takeModRm_field {size : AddrSize} {f : RmField} (h : ∀ m, f = .mem m → m.wellFormed size = true)
    (reg : BitVec 3) (rest : List Byte) : takeModRm size (f.bytes reg ++ rest) = some (reg, f, rest) := by
  cases f with
  | reg n => exact takeModRm_reg size reg n rest
  | mem m => exact takeModRm_mem (h m rfl) reg rest

/-- Format `RM` read back. -/
theorem decodeRm_field {size : AddrSize} {f : RmField} (h : ∀ m, f = .mem m → m.wellFormed size = true)
    (mk : MmReg → RmField → Instr) (r : MmReg) (rest : List Byte) :
    decodeRm size mk (f.bytes r.num ++ rest) = .instr (mk r f) rest := by
  simp only [decodeRm, takeModRm_field h, MmReg.ofNum_num]

/-- Format `SHI` read back. -/
theorem decodeShi_row {op : Byte} {ext : BitVec 3} {mk : List Prefix → MmReg → Byte → Instr}
    (row : shiRows.lookup (op, ext) = some mk) (pfx : List Prefix) (r : MmReg) (imm : Byte) (rest : List Byte) :
    decodeShi op pfx (modRm 3 ext r.num :: imm :: rest) = .instr (mk pfx r imm) rest := by
  simp only [decodeShi, modOf_modRm, regOf_modRm, rmOf_modRm, if_true, row, take8_cons, Decoded.ofOption, MmReg.ofNum_num]

theorem MmRm.field_eq_mem {rm : MmRm} {m : MemRef} : rm.field = .mem m ↔ rm.memRef = some m := by
  cases rm <;> simp [MmRm.field, MmRm.memRef]

theorem GpRm.field_eq_mem {rm : GpRm} {m : MemRef} : rm.field = .mem m ↔ rm.memRef = some m := by
  cases rm <;> simp [GpRm.field, GpRm.memRef]

/-- B8 to BF are MOV (R118). -/
theorem decodeOpcode_mov (size : AddrSize) (pfx : List Prefix) (r : Reg32) (rest : List Byte) :
    decodeOpcode size pfx ((0b10111#5 ++ r.num) :: rest) = noPrefix pfx (.ofOption (take32 rest) (.mov r)) := by
  cases r <;> rfl

/-- F7 with mod 11 and reg 000 is TEST (R118). -/
theorem decodeOpcode_test (size : AddrSize) (pfx : List Prefix) (r : Reg32) (rest : List Byte) :
    decodeOpcode size pfx (0xF7 :: modRm 3 0 r.num :: rest) = noPrefix pfx (.ofOption (take32 rest) (.test r)) := by
  cases r <;> rfl

/-- A base instruction is read back (R111), and admitted only without any prefixes (R109). -/
theorem decodeBytes_encode_base (dflt : AddrSize) (pfx : List Prefix) {i : Instr} (rest : List Byte)
    (h : i.isMmx = false) :
    decodeBytes dflt (pfx.map Prefix.byte ++ (encode i ++ rest)) = noPrefix pfx (.instr i rest) := by
  cases i with
  | cpuid => exact decodeBytes_twoByte dflt pfx (0xA2 :: rest)
  | mov dst imm =>
    have first : Prefix.ofByte (0b10111#5 ++ dst.num) = none := by cases dst <;> decide
    rw [encode, List.cons_append, decodeBytes_prefixes dflt pfx first, decodeOpcode_mov, take32_le32, Decoded.ofOption]
  | test src imm =>
    rw [encode, List.cons_append, List.cons_append, decodeBytes_prefixes dflt pfx (by decide), decodeOpcode_test,
      take32_le32, Decoded.ofOption]
  | jnz rel => exact decodeBytes_prefixes dflt pfx (by decide) (rel :: rest)
  | _ => cases h

/-- An instruction whose memory operand can be spelt under its prefixes is read back, whatever its length and whatever
follows it. -/
theorem decodeBytes_encode (dflt : AddrSize) (i : Instr) (rest : List Byte)
    (h : i.memRef.all (MemRef.wellFormed (effAddrSize dflt i.prefixes)) = true) :
    decodeBytes dflt (encode i ++ rest) = .instr i rest := by
  have spelt : ∀ m, i.memRef = some m → m.wellFormed (effAddrSize dflt i.prefixes) = true := by
    intro m hm; rwa [hm] at h
  rw [Instr.memRef, Instr.prefixes] at spelt
  cases encodingForm i with
  | mm row eq shape bytes =>
    simp only [shape, Shape.memRef, Shape.prefixes] at spelt
    rw [bytes, encodeRm, List.append_assoc, List.cons_append, List.cons_append, decodeBytes_twoByte, decodeTwoByte_mm row,
      decodeRm_field fun m hm => spelt m (MmRm.field_eq_mem.1 hm), MmRm.mm_field, eq]
  | gp row eq shape bytes =>
    simp only [shape, Shape.memRef, Shape.prefixes] at spelt
    rw [bytes, encodeRm, List.append_assoc, List.cons_append, List.cons_append, decodeBytes_twoByte, decodeTwoByte_gp row,
      decodeRm_field fun m hm => spelt m (GpRm.field_eq_mem.1 hm), GpRm.gp_field, eq]
  | shi row eq shape bytes =>
    rw [bytes, encodeShi, List.append_assoc]
    simp only [List.cons_append, List.nil_append]
    rw [decodeBytes_twoByte, decodeTwoByte_shi (byte_of_shiRow row), decodeShi_row row, eq]
  | emms pfx eq =>
    rw [eq, encode, List.append_assoc]
    exact decodeBytes_twoByte dflt pfx (0x77 :: rest)
  | base hbase => exact decodeBytes_encode_base dflt [] rest hbase

/-- A well-formed instruction is decoded from its bytes, whatever follows them (R108 to R118). -/
theorem decode_encode (dflt : AddrSize) (i : Instr) (rest : List Byte) (h : i.wellFormed dflt = true) :
    decode dflt (encode i ++ rest) = .instr i rest := by
  obtain ⟨spelt, short⟩ := Bool.and_eq_true_iff.1 h
  rw [decode, decodeBytes_encode dflt i rest spelt]
  exact if_neg (Nat.not_lt.2 (of_decide_eq_true short))

/-- A well-formed instruction is at most 15 bytes long (R108). -/
theorem length_encode_le {dflt : AddrSize} {i : Instr} (h : i.wellFormed dflt = true) :
    (encode i).length ≤ maxLength := by
  rw [length_encode]
  exact of_decide_eq_true (Bool.and_eq_true_iff.1 h).2

end Sys2Proof

namespace Sys2Proof.Machine

open Sys2Proof.Claims

/-! ### The fetch of bytes that stand at the pc -/

/-- Bytes that are each fetched from the `k`-th on are the first that `fetchBytes` gives, where it may go so far. -/
theorem fetchBytes_append {s : State} {bytes : List Byte} {n k : Nat}
    (h : ∀ j, j < bytes.length → fetchByte s (k + j) = .next (bytes.getD j 0)) (hn : bytes.length ≤ n) :
    ∃ rest, (fetchBytes s n k).1 = bytes ++ rest := by
  induction bytes generalizing n k with
  | nil => exact ⟨_, rfl⟩
  | cons b bytes ih =>
    obtain ⟨n, rfl⟩ := Nat.exists_eq_add_of_lt hn
    have first : fetchByte s k = .next b := h 0 (Nat.zero_lt_succ _)
    have others : ∀ j, j < bytes.length → fetchByte s (k + 1 + j) = .next (bytes.getD j 0) := fun j hj => by
      rw [Nat.add_right_comm]; exact h (j + 1) (Nat.succ_lt_succ hj)
    obtain ⟨rest, hrest⟩ := ih others (Nat.le_add_right bytes.length n)
    exact ⟨rest, by simp only [fetchBytes, first, hrest, List.cons_append]⟩

/-- Fifteen bytes are asked for, where these show what stands at the pc. -/
theorem fetchWindow_of_decoded {s : State}
    (h : decode s.params.defaultAddrSize (fetchBytes s maxLength 0).1 ≠ .truncated) :
    fetchWindow s = fetchBytes s maxLength 0 := by
  unfold fetchWindow
  split
  · contradiction
  · rfl

/-- A well-formed instruction whose bytes stand at the pc is the one that is fetched. -/
theorem fetchInstr_encode {s : State} {i : Instr} (hw : i.wellFormed s.params.defaultAddrSize = true)
    (h : fetches s (encode i)) : fetchInstr s = .next i := by
  obtain ⟨rest, hbytes⟩ := fetchBytes_append (k := 0) (by simpa [fetches] using h) (length_encode_le hw)
  have decoded : decode s.params.defaultAddrSize (fetchBytes s maxLength 0).1 = .instr i rest := by
    rw [hbytes, decode_encode _ i rest hw]
  have window := fetchWindow_of_decoded (s := s) (by rw [decoded]; nofun)
  rw [fetchInstr, window, decoded]

/-- Before the end of the run a step is the fetch and then the instruction's meaning (R25, R357). -/
theorem step_of_not_atEnd {s : State} (h : s.params.endAddr ≠ some s.eip) :
    step s = andThen (fetchInstr s) fun i => exec i s := by
  rw [step, atEnd, beq_eq_false_iff_ne.2 h]; rfl

/-! ### The checks come first -/

/-- Every MMX instruction begins with the checks of R150. -/
theorem exec_checks_first {i : Instr} (h : i.isMmx = true) (s : State) :
    ∃ rest : Unit → Result State, exec i s = andThen (mmxChecks i.prefixes s) rest := by
  obtain ⟨dst, α, read, compute, -, -, -, -, hx, -⟩ | ⟨dst, value, -, -, -, -, hx⟩ |
    ⟨m, n, bytes, -, -, -, -, -, -, -, hx⟩ | ⟨pfx, rfl⟩ := mmx_shapes i h
  · exact ⟨_, hx s⟩
  · exact ⟨_, hx s⟩
  · exact ⟨_, hx s⟩
  · exact ⟨_, rfl⟩

/-- Without the technology the checks refuse (R10). -/
theorem mmxChecks_of_no_mmx {s : State} (h : s.params.hasMmx = false) (pfx : List Prefix) :
    mmxChecks pfx s = .refused .noMmxTechnology := if_pos h

/-! ### The flat map -/

/-- Elements that are each answered by themselves. -/
theorem forEach_eq_self {α : Type} {f : α → Result α} {xs : List α} (h : ∀ x ∈ xs, f x = .next x) :
    forEach f xs = .next xs := by
  induction xs with
  | nil => rfl
  | cons x xs ih =>
    obtain ⟨hx, hxs⟩ := List.forall_mem_cons.1 h
    rw [forEach, hx, andThen_next, ih hxs, andThen_next]

/-- The elements in front of one that is refused are answered first, and the ones behind it are not asked. -/
theorem forEach_append_refused {α : Type} {f : α → Result α} {xs ys : List α} {x : α} {r : Refusal}
    (hxs : ∀ y ∈ xs, f y = .next y) (hx : f x = .refused r) : forEach f (xs ++ x :: ys) = .refused r := by
  induction xs with
  | nil => rw [List.nil_append, forEach, hx, andThen_refused]
  | cons y xs ih =>
    obtain ⟨hy, hxs⟩ := List.forall_mem_cons.1 hxs
    rw [List.cons_append, forEach, hy, andThen_next, ih hxs, andThen_refused]

/-- Without a line of segmentation an offset is its own linear address (R12). -/
theorem linearOf_flat {s : State} (h : s.params.segRules = []) (g : SegReg) (k : AccessKind) (offset : Nat) :
    linearOf s g k offset = .next offset := by
  rw [linearOf, h]; rfl

/-- Without a line of paging a 32-bit linear address is its own physical address (R12). -/
theorem physicalOf_flat {s : State} (h : s.params.pageRules = []) (k : AccessKind) {linear : Nat}
    (hl : linear < 2 ^ 32) : physicalOf s k linear = .next linear := by
  rw [physicalOf, if_neg (Nat.not_le.2 hl), h]; rfl

/-- Beyond 2^32 there is no linear address (R76). -/
theorem physicalOf_beyond (s : State) (k : AccessKind) {linear : Nat} (hl : 2 ^ 32 ≤ linear) :
    physicalOf s k linear = .refused (.beyondLinearSpace linear) := if_pos hl

/-- The whole 32-bit space is memory. -/
theorem checkMapped_flat {s : State} (h : s.params.regions = [⟨⟨0, 2 ^ 32⟩, .ram⟩]) {a : Nat} (ha : a < 2 ^ 32) :
    checkMapped s a = .next a := by
  have inRegion : AddrRange.has ⟨0, 2 ^ 32⟩ a = true := by simpa [AddrRange.has] using ha
  rw [checkMapped, h, List.find?_cons_of_pos (p := fun r : Region => r.addrs.has a) inRegion]

/-- The alignment check reads the first of `n` consecutive addresses (R79). -/
theorem checkAligned_range' (s : State) (a : Nat) {n : Nat} (hn : 0 < n) :
    checkAligned s (List.range' a n) =
      if s.params.alignmentCheck ∧ a % n ≠ 0 then raise (.memFault .alignmentCheck) else .next () := by
  obtain ⟨n, rfl⟩ := Nat.exists_eq_add_of_lt hn
  simp [checkAligned, List.range'_succ]

/-- `Translate` without a line of segmentation: the alignment check, paging and the memory map, on consecutive addresses. -/
theorem translateBytes_flat {s : State} (h : s.params.segRules = []) (g : SegReg) (ea : DWord) (n : Nat)
    (k : AccessKind) :
    translateBytes s g ea n k =
      andThen (checkAligned s (List.range' ea.toNat n)) fun _ =>
      andThen (forEach (physicalOf s k) (List.range' ea.toNat n)) fun phys => forEach (checkMapped s) phys := by
  rw [translateBytes, ← List.range'_eq_map_range, forEach_eq_self fun x _ => linearOf_flat h g k x, andThen_next]

/-- Paging of consecutive addresses that go past 2^32 is refused at 2^32, the first that is no linear address (R76). -/
theorem forEach_physicalOf_beyond {s : State} (h : s.params.pageRules = []) (k : AccessKind) {a n : Nat}
    (ha : a < 2 ^ 32) (hn : 2 ^ 32 < a + n) :
    forEach (physicalOf s k) (List.range' a n) = .refused (.beyondLinearSpace (2 ^ 32)) := by
  obtain ⟨below, hbelow⟩ : ∃ below, a + below = 2 ^ 32 := ⟨2 ^ 32 - a, by omega⟩
  obtain ⟨above, rfl⟩ : ∃ above, n = below + (above + 1) := ⟨n - below - 1, by omega⟩
  have cut : List.range' a (below + (above + 1)) =
      List.range' a below ++ 2 ^ 32 :: List.range' (2 ^ 32 + 1) above := by
    rw [← List.range'_append_1, hbelow, List.range'_succ]
  rw [cut]
  refine forEach_append_refused (fun x hx => physicalOf_flat h k ?_) (physicalOf_beyond s k le_rfl)
  have := (List.mem_range'_1.1 hx).2
  omega

end Sys2Proof.Machine

namespace Sys2Proof.Proofs

open Sys2Proof.Machine Sys2Proof.Claims

/-! ### The statements -/

/-- Settles O8: the fetch brings the instruction, and the run has not ended. -/
theorem stepRunsTheInstructionAtThePc : Obligations.StepRunsTheInstructionAtThePc := by
  intro s i hw hend h
  rw [step_of_not_atEnd hend, fetchInstr_encode hw h, andThen_next]

/-- Settles O24: the checks, which refuse, come first in an MMX instruction, and a base instruction has none. -/
theorem noMmxTechnologyRefused : Obligations.NoMmxTechnologyRefused := by
  intro i s hno
  constructor
  · intro hmmx
    obtain ⟨rest, hx⟩ := exec_checks_first hmmx s
    rw [hx, mmxChecks_of_no_mmx hno, andThen_refused]
  · intro hbase
    obtain ⟨t, ht, -⟩ := base_next i hbase s
    exact ⟨t, ht⟩

/-- Settles O54: by the alignment check, and then by whether the operand stays below 2^32. -/
theorem flatTranslation : Obligations.FlatTranslation := by
  intro s g ea n k hseg hpage hmap hn
  rw [translateBytes_flat hseg, checkAligned_range' s _ hn, ← List.range'_eq_map_range]
  constructor
  · intro aligned
    have passes : ¬(s.params.alignmentCheck = true ∧ ea.toNat % n ≠ 0) := fun ⟨on, misaligned⟩ =>
      aligned.elim (fun off => Bool.noConfusion (on.symm.trans off)) misaligned
    rw [if_neg passes, andThen_next]
    constructor
    · intro below
      have inSpace : ∀ a ∈ List.range' ea.toNat n, a < 2 ^ 32 := fun a ha =>
        Nat.lt_of_lt_of_le (List.mem_range'_1.1 ha).2 below
      rw [forEach_eq_self fun a ha => physicalOf_flat hpage k (inSpace a ha), andThen_next,
        forEach_eq_self fun a ha => checkMapped_flat hmap (inSpace a ha)]
    · intro beyond
      rw [forEach_physicalOf_beyond hpage k ea.isLt beyond, andThen_refused]
  · intro on misaligned
    rw [if_pos ⟨on, misaligned⟩, raise, andThen_fault]

end Sys2Proof.Proofs

/-! PROOFS, family 10_state.md: every step keeps memory canonical (O14), a fetch that fails among an instruction's bytes
decides the step (O11), what an instruction byte is (O9), the exponent parts (O20), and reset (O12, O13). -/

namespace Sys2Proof

/-! ### The decoder and the bytes behind

What the decoder has made of some bytes it makes of them whatever follows. So an encoding cut short is nothing yet: if it
were anything, the whole encoding would be that too, with bytes left over. -/

theorem take8_append {bs rest : List Byte} {v : Byte} (more : List Byte) (h : take8 bs = some (v, rest)) :
    take8 (bs ++ more) = some (v, rest ++ more) := by
  rw [take8_eq_some h]; rfl

theorem take32_append {bs rest : List Byte} {v : DWord} (more : List Byte) (h : take32 bs = some (v, rest)) :
    take32 (bs ++ more) = some (v, rest ++ more) := by
  rw [take32_eq_some h, List.append_assoc, take32_le32]

theorem takeModRm_append {size : AddrSize} {bs rest : List Byte} {reg : BitVec 3} {f : RmField} (more : List Byte)
    (h : takeModRm size bs = some (reg, f, rest)) : takeModRm size (bs ++ more) = some (reg, f, rest ++ more) := by
  obtain ⟨rfl, spelt⟩ := takeModRm_eq_some h
  rw [List.append_assoc, takeModRm_field spelt]

/-- What the decoder made of some bytes, with more bytes behind them. -/
def Decoded.followedBy (more : List Byte) : Decoded → Decoded
  | .instr i rest => .instr i (rest ++ more)
  | d => d

/-- The bytes decide: once they are not cut short, more bytes behind them are left over and change nothing. -/
def DecidedByFront (dec : List Byte → Decoded) : Prop :=
  ∀ (bs more : List Byte), dec bs ≠ .truncated → dec (bs ++ more) = (dec bs).followedBy more

/-- What no byte behind can change. -/
theorem decidedByFront_const {d : Decoded} (h : d.followedBy = fun _ => d) : DecidedByFront fun _ => d :=
  fun _ more _ => (congrFun h more).symm

theorem decidedByFront_ite {c : Prop} [Decidable c] {dec dec' : List Byte → Decoded} (h : DecidedByFront dec)
    (h' : DecidedByFront dec') : DecidedByFront fun bs => if c then dec bs else dec' bs := by
  split_ifs
  · exact h
  · exact h'

theorem decidedByFront_noPrefix {dec : List Byte → Decoded} (pfx : List Prefix) (h : DecidedByFront dec) :
    DecidedByFront fun bs => noPrefix pfx (dec bs) := by
  cases pfx with
  | nil => exact h
  | cons p pfx => exact decidedByFront_const rfl

theorem decidedByFront_instr (i : Instr) : DecidedByFront (.instr i) := fun _ _ _ => rfl

theorem decidedByFront_imm8 (mk : Byte → Instr) : DecidedByFront fun bs => .ofOption (take8 bs) mk := by
  intro bs more h
  cases ht : take8 bs with
  | none => simp [ht, Decoded.ofOption] at h
  | some x => simp only [ht, take8_append more ht, Decoded.ofOption, Decoded.followedBy]

theorem decidedByFront_imm32 (mk : DWord → Instr) : DecidedByFront fun bs => .ofOption (take32 bs) mk := by
  intro bs more h
  cases ht : take32 bs with
  | none => simp [ht, Decoded.ofOption] at h
  | some x => simp only [ht, take32_append more ht, Decoded.ofOption, Decoded.followedBy]

theorem decidedByFront_decodeRm (size : AddrSize) (mk : MmReg → RmField → Instr) :
    DecidedByFront (decodeRm size mk) := by
  intro bs more h
  cases ht : takeModRm size bs with
  | none => simp [decodeRm, ht] at h
  | some x => simp only [decodeRm, ht, takeModRm_append more ht, Decoded.followedBy]

/-- A decoder that begins with one byte: the rest decides under each. -/
theorem decidedByFront_cons {dec : List Byte → Decoded} (hnil : dec [] = .truncated)
    (hcons : ∀ b, DecidedByFront fun bs => dec (b :: bs)) : DecidedByFront dec := by
  intro bs more h
  cases bs with
  | nil => exact absurd hnil h
  | cons b bs => exact hcons b bs more h

theorem decidedByFront_decodeShi (op : Byte) (pfx : List Prefix) : DecidedByFront (decodeShi op pfx) := by
  refine decidedByFront_cons rfl fun m => ?_
  simp only [decodeShi]
  split_ifs
  · cases shiRows.lookup (op, regOf m) with
    | some mk => exact decidedByFront_imm8 _
    | none => exact decidedByFront_const rfl
  · exact decidedByFront_const rfl

theorem decidedByFront_decodeTwoByte (size : AddrSize) (pfx : List Prefix) :
    DecidedByFront (decodeTwoByte size pfx) := by
  refine decidedByFront_cons rfl fun op => ?_
  simp only [decodeTwoByte]
  refine decidedByFront_ite (decidedByFront_instr _) ?_
  refine decidedByFront_ite (decidedByFront_noPrefix pfx (decidedByFront_instr _)) ?_
  cases mmRows.lookup op with
  | some mk => exact decidedByFront_decodeRm size _
  | none =>
    cases gpRows.lookup op with
    | some mk => exact decidedByFront_decodeRm size _
    | none =>
      refine decidedByFront_ite (decidedByFront_decodeShi op pfx) ?_
      exact decidedByFront_ite (decidedByFront_const rfl) (decidedByFront_const rfl)

theorem decidedByFront_decodeTest (pfx : List Prefix) : DecidedByFront (decodeTest pfx) := by
  refine decidedByFront_cons rfl fun m => ?_
  simp only [decodeTest]
  split_ifs
  · exact decidedByFront_noPrefix pfx (decidedByFront_imm32 _)
  · exact decidedByFront_const rfl

theorem decidedByFront_decodeOpcode (size : AddrSize) (pfx : List Prefix) :
    DecidedByFront (decodeOpcode size pfx) := by
  refine decidedByFront_cons rfl fun b => ?_
  simp only [decodeOpcode]
  split_ifs
  · exact decidedByFront_decodeTwoByte size pfx
  · exact decidedByFront_noPrefix pfx (decidedByFront_imm32 _)
  · exact decidedByFront_decodeTest pfx
  · exact decidedByFront_noPrefix pfx (decidedByFront_imm8 _)
  · exact decidedByFront_const rfl
  · exact decidedByFront_const rfl

/-- What follows the opcode does not change which prefixes are in front of it (R108). -/
theorem takePrefixes_append_more {bs : List Byte} (more : List Byte) (h : (takePrefixes bs).2 ≠ []) :
    takePrefixes (bs ++ more) = ((takePrefixes bs).1, (takePrefixes bs).2 ++ more) := by
  induction bs with
  | nil => exact absurd rfl h
  | cons b bs ih =>
    rw [List.cons_append]
    unfold takePrefixes at h ⊢
    cases hb : Prefix.ofByte b with
    | some p =>
      simp only [hb] at h ⊢
      rw [ih h]
    | none => rfl

theorem decidedByFront_decodeBytes (dflt : AddrSize) : DecidedByFront (decodeBytes dflt) := by
  intro bs more h
  have opcode : (takePrefixes bs).2 ≠ [] := fun e => h (by rw [decodeBytes, e]; rfl)
  rw [decodeBytes, takePrefixes_append_more more opcode]
  exact decidedByFront_decodeOpcode _ _ _ more h

theorem decidedByFront_decode (dflt : AddrSize) : DecidedByFront (decode dflt) := by
  intro bs more h
  have decided : decodeBytes dflt bs ≠ .truncated := fun e => h (by rw [decode, e])
  rw [decode, decode, decidedByFront_decodeBytes dflt bs more decided]
  cases decodeBytes dflt bs with
  | instr i rest => simp only [Decoded.followedBy]; split <;> rfl
  | _ => rfl

/-- An encoding cut short is nothing yet (R108 to R118). -/
theorem decode_take_encode {dflt : AddrSize} {i : Instr} (hw : i.wellFormed dflt = true) {k : Nat}
    (hk : k < (encode i).length) : decode dflt ((encode i).take k) = .truncated := by
  by_contra decided
  have whole : decode dflt ((encode i).take k ++ (encode i).drop k) = .instr i [] := by
    rw [List.take_append_drop]; simpa using decode_encode dflt i [] hw
  rw [decidedByFront_decode dflt _ _ decided] at whole
  cases hd : decode dflt ((encode i).take k) with
  | instr j rest =>
    rw [hd, Decoded.followedBy, Decoded.instr.injEq] at whole
    have none_left : (encode i).drop k = [] := (List.append_eq_nil_iff.1 whole.2).2
    exact absurd (List.drop_eq_nil_iff.1 none_left) (Nat.not_le.2 hk)
  | _ => rw [hd] at whole; cases whole

end Sys2Proof

namespace Sys2Proof.Machine

open Sys2Proof.Claims

/-! ### The fetch of one byte -/

/-- `Translate` of one byte gives one address (R12). -/
theorem translateBytes_one {s : State} {g : SegReg} {ea : DWord} {k : AccessKind} {addrs : List Nat}
    (h : translateBytes s g ea 1 k = .next addrs) : ∃ a, addrs = [a] :=
  List.length_eq_one_iff.1 (translateBytes_length h)

/-- The address of an instruction byte: below 2^32, and what `Translate` gives through CS (R48). -/
theorem fetchAddr_eq_next {s : State} {k a : Nat} :
    fetchAddr s k = .next a ↔
      s.eip.toNat + k < 2 ^ 32 ∧ translateBytes s .cs (s.eip + BitVec.ofNat 32 k) 1 .read = .next [a] := by
  unfold fetchAddr
  split_ifs with beyond
  · simp only [false_iff, not_and]
    omega
  · simp only [andThen_eq_next, refuseAtLimit_eq_next, Host.Outcome.next.injEq]
    constructor
    · rintro ⟨addrs, h, rfl⟩
      obtain ⟨a, rfl⟩ := translateBytes_one h
      exact ⟨Nat.lt_of_not_le beyond, h⟩
    · rintro ⟨-, h⟩
      exact ⟨[a], h, rfl⟩

/-- An instruction byte: what memory holds at its address, which is program text (R48, R87). -/
theorem fetchByte_eq_next {s : State} {k : Nat} {b : Byte} :
    fetchByte s k = .next b ↔ ∃ a, fetchAddr s k = .next a ∧ inText s a = true ∧ b = Memory.read s.mem a := by
  simp only [fetchByte, andThen_eq_next]
  refine exists_congr fun a => and_congr_right fun _ => ?_
  split_ifs with text
  · simp [text, eq_comm]
  · simp [text]

/-- At 2^32 there is no instruction byte (R48). -/
theorem fetchByte_across4G {s : State} {k : Nat} (h : 2 ^ 32 ≤ s.eip.toNat + k) :
    fetchByte s k = .refused .fetchAcross4G := by
  rw [fetchByte, fetchAddr, if_pos h, andThen_refused]

/-- Where segmentation of the first byte raises an exception, so does `Translate` (R309). -/
theorem translateBytes_of_linearOf_fault {s : State} {g : SegReg} {ea : DWord} {k : AccessKind} {f : Fault}
    (h : linearOf s g k ea.toNat = .fault f) (n : Nat) : translateBytes s g ea (n + 1) k = .fault f := by
  rw [translateBytes, List.range_succ_eq_map, List.map_cons, forEach, Nat.add_zero, h]
  rfl

/-- Past the limit of the code segment there is no instruction byte (R48). -/
theorem fetchByte_beyondLimit {s : State} {k : Nat} {g : SegReg} (below : s.eip.toNat + k < 2 ^ 32)
    (h : linearOf s .cs .read (s.eip.toNat + k) = .fault (.limitViolation g)) :
    fetchByte s k = .refused .fetchBeyondSegmentLimit := by
  have ea : (s.eip + BitVec.ofNat 32 k).toNat = s.eip.toNat + k := by
    rw [BitVec.toNat_add, BitVec.toNat_ofNat, Nat.add_mod_mod, Nat.mod_eq_of_lt below]
  rw [fetchByte, fetchAddr, if_neg (Nat.not_le.2 below), translateBytes_of_linearOf_fault (by rw [ea]; exact h)]
  rfl

/-! ### A fetch that stops among an instruction's bytes -/

/-- The answer of a fetch, or of a step, that was stopped. -/
def stoppedBy {α : Type} : Fault ⊕ Refusal → Result α
  | .inl f => .fault f
  | .inr r => .refused r

@[simp] theorem andThen_stoppedBy {α β : Type} (e : Fault ⊕ Refusal) (f : α → Result β) :
    andThen (stoppedBy e) f = stoppedBy e := by
  cases e <;> rfl

/-- The bytes in front of one that cannot be fetched, and what stopped the fetch there. -/
theorem fetchBytes_stopped {s : State} {bytes : List Byte} {n k : Nat} {e : Fault ⊕ Refusal}
    (h : ∀ j, j < bytes.length → fetchByte s (k + j) = .next (bytes.getD j 0))
    (stop : fetchByte s (k + bytes.length) = stoppedBy e) (hn : bytes.length < n) :
    fetchBytes s n k = (bytes, some e) := by
  induction bytes generalizing n k with
  | nil =>
    obtain _ | n := n
    · cases hn
    · rw [List.length_nil, Nat.add_zero] at stop
      cases e <;> simp only [fetchBytes, stop, stoppedBy]
  | cons b bytes ih =>
    obtain _ | n := n
    · cases hn
    have first : fetchByte s k = .next b := h 0 (Nat.zero_lt_succ _)
    have others : ∀ j, j < bytes.length → fetchByte s (k + 1 + j) = .next (bytes.getD j 0) := fun j hj => by
      rw [Nat.add_right_comm]; exact h (j + 1) (Nat.succ_lt_succ hj)
    have rest := ih others (by rw [Nat.add_right_comm]; exact stop) (Nat.lt_of_succ_lt_succ hn)
    rw [fetchBytes, first, rest]

/-- What stopped a fetch of at most fifteen bytes stops the fetch of all. -/
theorem fetchWindow_of_stopped {s : State} {bytes : List Byte} {e : Fault ⊕ Refusal}
    (h : fetchBytes s maxLength 0 = (bytes, some e)) : fetchWindow s = (bytes, some e) := by
  rw [fetchWindow, h]
  split
  · contradiction
  · rfl

/-- A fetch that is stopped at a byte the instruction needs is stopped (R48, R309). -/
theorem fetchInstr_stopped {s : State} {i : Instr} {k : Nat} {e : Fault ⊕ Refusal}
    (hw : i.wellFormed s.params.defaultAddrSize = true) (hk : k < (encode i).length)
    (h : fetches s ((encode i).take k)) (stop : fetchByte s k = stoppedBy e) : fetchInstr s = stoppedBy e := by
  have len : ((encode i).take k).length = k := List.length_take_of_le hk.le
  have short : k < maxLength := hk.trans_le (length_encode_le hw)
  have bytes : fetchBytes s maxLength 0 = ((encode i).take k, some e) :=
    fetchBytes_stopped (by simpa [fetches] using h) (by rw [Nat.zero_add, len]; exact stop) (by rw [len]; exact short)
  rw [fetchInstr, fetchWindow_of_stopped bytes, decode_take_encode hw hk]
  cases e <;> rfl

/-- ... and the step is that stop. -/
theorem step_stopped {s : State} {i : Instr} {k : Nat} {e : Fault ⊕ Refusal}
    (hw : i.wellFormed s.params.defaultAddrSize = true) (hend : s.params.endAddr ≠ some s.eip)
    (hk : k < (encode i).length) (h : fetches s ((encode i).take k)) (stop : fetchByte s k = stoppedBy e) :
    step s = stoppedBy e := by
  rw [step_of_not_atEnd hend, fetchInstr_stopped hw hk h stop, andThen_stoppedBy]

/-! ### What a completed instruction leaves -/

/-- A step that answers a next state ran the instruction that was fetched. -/
theorem exec_of_step_next {s t : State} (h : step s = .next t) : ∃ i, fetchInstr s = .next i ∧ exec i s = .next t := by
  rw [step] at h
  split_ifs at h
  exact andThen_eq_next.1 h

/-- What EMMS does, where it completes (R171). -/
theorem execEmms_eq_next {pfx : List Prefix} {s t : State} :
    execEmms pfx s = .next t ↔
      mmxReady s = true ∧ Prefix.lock ∉ pfx ∧ t = commit tagsEmpty (zo2Length pfx) s := by
  simp only [execEmms, andThen_eq_next, mmxChecks_eq_next, Host.Outcome.next.injEq, exists_const, and_assoc,
    eq_comm (b := t)]

/-- What a completed instruction leaves of memory: all of it, or a store of the instruction's operand (R77, R84, R87). -/
theorem mem_of_exec_next {i : Instr} {s t : State} (h : exec i s = .next t) :
    t.mem = s.mem ∨ ∃ m n addrs bytes, i.storeDst = some (m, n) ∧
      translateBytes s (operandSeg i.prefixes m) (m.ea s) n .write = .next addrs ∧
      (∀ a ∈ addrs, inText s a = false) ∧ t.mem = Memory.writeAll s.mem addrs bytes := by
  cases hmmx : i.isMmx with
  | false =>
    obtain ⟨u, hu, -, -, -, -, -, -, -, -, -, -, -, hmem⟩ := base_next i hmmx s
    obtain rfl : u = t := by simpa [hu] using h
    exact .inl hmem
  | true =>
    obtain ⟨dst, α, read, compute, -, -, -, -, hx, -⟩ | ⟨dst, value, -, -, -, -, hx⟩ |
      ⟨m, n, bytes, -, -, hstore, -, -, -, hlen, hx⟩ | ⟨pfx, rfl⟩ := mmx_shapes i hmmx
    · obtain ⟨-, -, v, -, rfl⟩ := mmxToReg_eq_next.1 ((hx s).symm.trans h)
      exact .inl rfl
    · obtain ⟨-, -, rfl⟩ := mmxToGp_eq_next.1 ((hx s).symm.trans h)
      exact .inl rfl
    · obtain ⟨-, -, addrs, htr, htext, rfl⟩ := mmxToMem_eq_next.1 ((hx s).symm.trans h)
      exact .inr ⟨m, n, addrs, bytes s, hstore, hlen s ▸ htr, htext, rfl⟩
    · obtain ⟨-, -, rfl⟩ := execEmms_eq_next.1 h
      exact .inl rfl

/-- What a completed MMX instruction leaves of the physical registers: its destination alone is written, with ones in the
exponent part (R36, R148). -/
theorem fp_of_exec_next {i : Instr} {s t : State} (hmmx : i.isMmx = true) (h : exec i s = .next t) (r : MmReg) :
    (i.mmDst = some r → ∃ v : QWord, t.fp r = 0xFFFF#16 ++ v) ∧ (i.mmDst ≠ some r → t.fp r = s.fp r) := by
  obtain ⟨dst, α, read, compute, hdst, -, -, -, hx, -⟩ | ⟨dst, value, hdst, -, -, -, hx⟩ |
    ⟨m, n, bytes, hdst, -, -, -, -, -, -, hx⟩ | ⟨pfx, rfl⟩ := mmx_shapes i hmmx
  · obtain ⟨-, -, v, -, rfl⟩ := mmxToReg_eq_next.1 ((hx s).symm.trans h)
    simp only [hdst, ne_eq, Option.some.injEq, fp_commit]
    constructor
    · rintro rfl
      exact ⟨_, fp_setMm_same ..⟩
    · intro other
      exact fp_setMm_other s _ (Ne.symm other)
  · obtain ⟨-, -, rfl⟩ := mmxToGp_eq_next.1 ((hx s).symm.trans h)
    simp [hdst]
  · obtain ⟨-, -, addrs, -, -, rfl⟩ := mmxToMem_eq_next.1 ((hx s).symm.trans h)
    simp [hdst, State.fp]
  · obtain ⟨-, -, rfl⟩ := execEmms_eq_next.1 h
    simp [Instr.mmDst]

end Sys2Proof.Machine

namespace Sys2Proof.Proofs

open Sys2Proof.Machine Sys2Proof.Claims

/-! ### The statements -/

/-- Settles O14: memory is as it was, or bytes were written, and either is canonical. -/
theorem stepKeepsMemoryCanonical : Obligations.StepKeepsMemoryCanonical := by
  intro s t hwf hstep
  obtain ⟨i, -, hx⟩ := exec_of_step_next hstep
  obtain kept | ⟨m, n, addrs, bytes, -, -, -, stored⟩ := mem_of_exec_next hx
  · rw [kept]; exact hwf
  · rw [stored]; exact Memory.wf_writeAll addrs bytes hwf

/-- Settles O11: the byte past the end is refused, and the bytes in front of it are no whole instruction. -/
theorem fetchAcrossTheEndRefused : Obligations.FetchAcrossTheEndRefused := by
  intro s i k hw hend hk h
  constructor
  · intro across
    exact step_stopped (e := .inr .fetchAcross4G) hw hend hk h (fetchByte_across4G across)
  · intro g below beyond
    exact step_stopped (e := .inr .fetchBeyondSegmentLimit) hw hend hk h (fetchByte_beyondLimit below beyond)

/-- Settles O20: a register written with ones in its exponent part has them, and no other is written. -/
theorem exponentPartsOnlyOfTheDestination : Obligations.ExponentPartsOnlyOfTheDestination := by
  intro i s t hmmx hx r
  obtain ⟨written, kept⟩ := fp_of_exec_next hmmx hx r
  refine ⟨fun hdst => ?_, kept⟩
  obtain ⟨v, hv⟩ := written hdst
  rw [State.exponentPart, hv]
  exact extract_append_high 0xFFFF#16 v

/-- Settles O9: by the address of the byte, and what stands there. -/
theorem fetchReadsTheProgramText : Obligations.FetchReadsTheProgramText := by
  intro s k b
  simp only [fetchByte_eq_next, fetchAddr_eq_next, and_assoc, exists_and_left]

/-- Settles O12: each field of the reset state, and each register of a file, by its value. -/
theorem resetState : Obligations.ResetState := by
  refine ⟨rfl, rfl, fun r hr => ?_, fun r => ?_, fun r => ?_, rfl, rfl, rfl, rfl, rfl, rfl, rfl, fun _ => rfl, rfl⟩
  · cases r with
    | edx => exact absurd rfl hr
    | _ => rfl
  · cases r <;> rfl
  · cases r <;> rfl

/-- Settles O13: the memory of the reset state lists nothing. -/
theorem resetMemoryCanonical : Obligations.ResetMemoryCanonical := rfl

end Sys2Proof.Proofs

/-! PROOFS, family 20_memory.md: no step changes the program (O15), a step writes its operand's bytes only (O17), and
the little-endian order of what is read and written (O52, O53). -/

namespace Sys2Proof.Machine

/-! ### The bytes of a number -/

/-- Byte `k` of a list is digit `k` of the number it makes (R72). -/
theorem fromLe_digit {bs : List Byte} {k : Nat} (hk : k < bs.length) : fromLe bs / 256 ^ k % 256 = bs[k].toNat := by
  induction bs generalizing k with
  | nil => cases hk
  | cons b bs ih =>
    have hb : b.toNat < 256 := b.isLt
    cases k with
    | zero => simp only [fromLe, pow_zero, Nat.div_one, List.getElem_cons_zero]; omega
    | succ k =>
      have tail : (b.toNat + 256 * fromLe bs) / 256 = fromLe bs := by omega
      rw [fromLe, pow_succ', ← Nat.div_div_eq_div_mul, tail]
      exact ih (Nat.lt_of_succ_lt_succ hk)

/-- As many bytes are those of memory exactly where they are the digits of the number they make (R72). -/
theorem map_read_eq_iff {m : List Host.Cell} {addrs : List Nat} {bs : List Byte} :
    addrs.map (Memory.read m) = bs ↔ bs.length = addrs.length ∧
      ∀ k, k < addrs.length → fromLe bs / 256 ^ k % 256 = (Memory.read m (addrs.getD k 0)).toNat := by
  constructor
  · rintro rfl
    refine ⟨List.length_map _, fun k hk => ?_⟩
    rw [fromLe_digit (by simpa using hk), List.getElem_map, List.getD_eq_getElem _ _ hk]
  · rintro ⟨len, digits⟩
    refine List.ext_getElem (by rw [List.length_map, len]) fun k hk hk' => ?_
    have ha : k < addrs.length := len ▸ hk'
    have digit := digits k ha
    rw [fromLe_digit hk', List.getD_eq_getElem _ _ ha] at digit
    rw [List.getElem_map]
    exact (BitVec.eq_of_toNat_eq digit).symm

/-- The first bytes of a number are those of its low part (R75). -/
theorem take_toLe (m n v : Nat) : (toLe (m + n) v).take m = toLe m v := by
  induction m generalizing v with
  | zero => rfl
  | succ m ih => rw [Nat.succ_add, toLe, toLe, List.take_succ_cons, ih]

/-- ... and those after them are its high part's (R75). -/
theorem drop_toLe (m n v : Nat) : (toLe (m + n) v).drop m = toLe n (v / 256 ^ m) := by
  induction m generalizing v with
  | zero => simp
  | succ m ih => rw [Nat.succ_add, toLe, List.drop_succ_cons, ih, Nat.div_div_eq_div_mul, ← pow_succ']

/-- Byte `k` of a number is one of its `n` low bytes (R73). -/
theorem digit_mod_pow (v : Nat) {n k : Nat} (hk : k < n) : v % 256 ^ n / 256 ^ k % 256 = v / 256 ^ k % 256 := by
  have factors : 256 ^ n = 256 ^ k * 256 ^ (n - k) := by rw [← pow_add, Nat.add_sub_cancel' hk.le]
  rw [factors, Nat.mod_mul_right_div_self]
  exact Nat.mod_mod_of_dvd _ (dvd_pow_self 256 (Nat.sub_ne_zero_of_lt hk))

/-- The four bytes from bit `i` of a 64-bit value on make the 32 bits from there (R75). -/
theorem ofNat_fromLe_toLe_four (v : QWord) (i : Nat) :
    BitVec.ofNat 32 (fromLe (toLe 4 (v.toNat / 2 ^ i))) = v.extractLsb' i 32 := by
  rw [fromLe_toLe]
  refine BitVec.eq_of_toNat_eq ?_
  rw [BitVec.toNat_ofNat, BitVec.extractLsb'_toNat, Nat.shiftRight_eq_div_pow]
  exact Nat.mod_mod _ _

/-! ### A read after a write -/

/-- A store changes neither the parameters nor a segment register, so `Translate` answers as before (R12, R73). -/
theorem translateBytes_of_memWrite {s t : State} {g : SegReg} {ea : DWord} {bytes : List Byte}
    (h : memWrite s g ea bytes = .next t) (g' : SegReg) (ea' : DWord) (n : Nat) (k : AccessKind) :
    translateBytes t g' ea' n k = translateBytes s g' ea' n k := by
  obtain ⟨addrs, -, -, rfl⟩ := memWrite_eq_next.1 h
  exact translateBytes_congr rfl rfl g' ea' n k

/-- The bytes of a store stand at the addresses that `Translate` gave, where these differ (R73). -/
theorem map_read_of_memWrite {s t : State} {g : SegReg} {ea : DWord} {bytes : List Byte} {addrs : List Nat}
    (hwf : Memory.wf s.mem = true) (htr : translateBytes s g ea bytes.length .write = .next addrs) (hnd : addrs.Nodup)
    (h : memWrite s g ea bytes = .next t) : addrs.map (Memory.read t.mem) = bytes := by
  obtain ⟨written, htr', -, rfl⟩ := memWrite_eq_next.1 h
  obtain rfl : addrs = written := by simpa [htr] using htr'
  exact Memory.read_writeAll_same hwf hnd (translateBytes_length htr)

/-- A read after a store gives what then stands at the addresses of the read (R22). -/
theorem memRead_of_memWrite {s t : State} {g g' : SegReg} {ea ea' : DWord} {n : Nat} {bytes : List Byte}
    {addrs : List Nat} (h : memWrite s g ea bytes = .next t) (htr : translateBytes s g' ea' n .read = .next addrs) :
    memRead t g' ea' n = .next (addrs.map (Memory.read t.mem)) :=
  memRead_eq_next.2 ⟨addrs, by rw [translateBytes_of_memWrite h, htr], rfl⟩

/-! ### What a completed instruction leaves -/

/-- Program text is a parameter (R87). -/
theorem inText_congr {s t : State} (h : t.params = s.params) (a : Nat) : inText t a = inText s a := by
  rw [inText, inText, h]

/-- No instruction writes a parameter (R30). -/
theorem params_of_exec_next {i : Instr} {s t : State} (h : exec i s = .next t) : t.params = s.params := by
  cases hmmx : i.isMmx with
  | false =>
    obtain ⟨u, hu, hparams, -⟩ := base_next i hmmx s
    obtain rfl : u = t := by simpa [hu] using h
    exact hparams
  | true =>
    obtain ⟨dst, α, read, compute, -, -, -, -, hx, -⟩ | ⟨dst, value, -, -, -, -, hx⟩ |
      ⟨m, n, bytes, -, -, -, -, -, -, -, hx⟩ | ⟨pfx, rfl⟩ := mmx_shapes i hmmx
    · obtain ⟨-, -, v, -, rfl⟩ := mmxToReg_eq_next.1 ((hx s).symm.trans h)
      simp
    · obtain ⟨-, -, rfl⟩ := mmxToGp_eq_next.1 ((hx s).symm.trans h)
      simp
    · obtain ⟨-, -, addrs, -, -, rfl⟩ := mmxToMem_eq_next.1 ((hx s).symm.trans h)
      simp
    · obtain ⟨-, -, rfl⟩ := execEmms_eq_next.1 h
      simp

/-- A byte that a completed instruction changed is one that it stores (R77, R84), and no program text (R87). -/
theorem stored_of_read_ne {i : Instr} {s t : State} (h : exec i s = .next t) {a : Nat}
    (changed : Memory.read t.mem a ≠ Memory.read s.mem a) :
    ∃ m n addrs, i.storeDst = some (m, n) ∧
      translateBytes s (operandSeg i.prefixes m) (m.ea s) n .write = .next addrs ∧ a ∈ addrs ∧ inText s a = false := by
  obtain kept | ⟨m, n, addrs, bytes, hstore, htr, htext, stored⟩ := mem_of_exec_next h
  · exact absurd (by rw [kept]) changed
  · have here : a ∈ addrs := by
      by_contra elsewhere
      exact changed (by rw [stored, Memory.read_writeAll_other bytes elsewhere])
    exact ⟨m, n, addrs, hstore, htr, here, htext a here⟩

end Sys2Proof.Machine

namespace Sys2Proof.Proofs

open Sys2Proof.Machine Sys2Proof.Claims

/-! ### The statements -/

/-- Settles O15: the text is a parameter, and a byte that changed is none of the text. -/
theorem stepKeepsTheProgram : Obligations.StepKeepsTheProgram := by
  intro s t hstep
  obtain ⟨i, -, hx⟩ := exec_of_step_next hstep
  have params := params_of_exec_next hx
  refine ⟨params, fun a text => ⟨by rw [inText_congr params, text], ?_⟩⟩
  by_contra changed
  obtain ⟨-, -, -, -, -, -, noText⟩ := stored_of_read_ne hx changed
  exact absurd text (by simp [noText])

/-- Settles O17: the step ran the instruction that was fetched, and a byte that it changed is one that it stores. -/
theorem stepWritesOnlyStoredBytes : Obligations.StepWritesOnlyStoredBytes := by
  intro s t i hfetch hstep a changed
  obtain ⟨j, hfetch', hx⟩ := exec_of_step_next hstep
  obtain rfl : i = j := by simpa [hfetch] using hfetch'
  obtain ⟨m, n, addrs, hstore, htr, here, -⟩ := stored_of_read_ne hx changed
  exact ⟨m, n, addrs, hstore, htr, here⟩

/-- Settles O52: a read by its bytes as digits; a write by its frame, and by reading back what it wrote. -/
theorem littleEndianReadAndWrite : Obligations.LittleEndianReadAndWrite := by
  constructor
  · intro s g ea n bs
    rw [memRead_eq_next]
    refine exists_congr fun addrs => and_congr_right fun htr => ?_
    rw [map_read_eq_iff, translateBytes_length htr]
  · intro s t g ea n v hwf hwrite
    obtain ⟨addrs, htr, -, ht⟩ := memWrite_eq_next.1 hwrite
    have htr' : translateBytes s g ea n .write = .next addrs := by rwa [length_toLe] at htr
    refine ⟨addrs, htr', fun a elsewhere => ?_, fun hnd k hk => ?_⟩
    · rw [ht]; exact Memory.read_writeAll_other _ elsewhere
    · obtain ⟨-, digits⟩ := map_read_eq_iff.1 (map_read_of_memWrite hwf htr hnd hwrite)
      rw [← digits k (by rwa [translateBytes_length htr']), fromLe_toLe, digit_mod_pow v hk]

/-- Settles O53: the bytes read back are those of the value, of its low half or of its high half. -/
theorem mixedWidthAccess : Obligations.MixedWidthAccess := by
  intro s t g ea v addrs hwf htr hnd hwrite
  have stored : addrs.map (Memory.read t.mem) = toLe 8 v.toNat := map_read_of_memWrite hwf htr hnd hwrite
  refine ⟨fun whole => ⟨_, memRead_of_memWrite hwrite whole, ?_⟩, fun low => ⟨_, memRead_of_memWrite hwrite low, ?_⟩,
    fun high => ⟨_, memRead_of_memWrite hwrite high, ?_⟩⟩
  · have bound : v.toNat < 256 ^ 8 := v.isLt
    rw [stored, fromLe_toLe, Nat.mod_eq_of_lt bound, BitVec.ofNat_toNat, BitVec.setWidth_eq]
  · rw [List.map_take, stored, take_toLe 4 4]
    simpa using ofNat_fromLe_toLe_four v 0
  · rw [List.map_drop, stored, drop_toLe 4 4]
    exact ofNat_fromLe_toLe_four v 32

end Sys2Proof.Proofs

/-! PROOFS, family 30_encoding.md: the decoder and the encoder are inverse to each other (O1, O2, O3, O4), what is at the
pc and is no instruction that runs (O5, O6, O7), which prefixes an instruction reads (O25, O26, O27), and effective
addresses as numbers (O28). -/

namespace Sys2Proof

/-! ### What the decoder accepts -/

theorem noPrefix_eq_instr {pfx : List Prefix} {d : Decoded} {i : Instr} {rest : List Byte} :
    noPrefix pfx d = .instr i rest ↔ pfx = [] ∧ d = .instr i rest := by
  cases pfx <;> simp [noPrefix]

theorem ofOption_eq_instr {α : Type} {x : Option (α × List Byte)} {mk : α → Instr} {i : Instr} {rest : List Byte} :
    Decoded.ofOption x mk = .instr i rest ↔ ∃ v, x = some (v, rest) ∧ mk v = i := by
  cases x <;> simp [Decoded.ofOption, Prod.ext_iff, and_comm]

/-- Format `RM`: what is accepted is the operands' bytes, and a memory operand in it can be spelt (R112, R113). -/
theorem decodeRm_eq_instr {size : AddrSize} {mk : MmReg → RmField → Instr} {bs rest : List Byte} {i : Instr}
    (h : decodeRm size mk bs = .instr i rest) :
    ∃ r f, mk r f = i ∧ bs = f.bytes r.num ++ rest ∧ ∀ m, f = .mem m → m.wellFormed size = true := by
  unfold decodeRm at h
  split at h
  · rename_i x ht
    obtain ⟨rfl, rfl⟩ := Decoded.instr.inj h
    obtain ⟨rfl, spelt⟩ := takeModRm_eq_some ht
    exact ⟨MmReg.ofNum x.1, x.2.1, rfl, by rw [MmReg.num_ofNum], spelt⟩
  · cases h

/-- Format `SHI`: what is accepted is a row of `shiRows` with its operands (R118). -/
theorem decodeShi_eq_instr {op : Byte} {pfx : List Prefix} {bs rest : List Byte} {i : Instr}
    (h : decodeShi op pfx bs = .instr i rest) :
    ∃ ext mk r imm, shiRows.lookup (op, ext) = some mk ∧ mk pfx r imm = i ∧
      bs = modRm 3 ext r.num :: imm :: rest := by
  match bs, h with
  | m :: bs, h =>
    simp only [decodeShi] at h
    split_ifs at h with h3
    split at h
    · rename_i mk row
      obtain ⟨imm, himm, rfl⟩ := ofOption_eq_instr.1 h
      refine ⟨regOf m, mk, MmReg.ofNum (rmOf m), imm, row, rfl, ?_⟩
      rw [take8_eq_some himm, MmReg.num_ofNum, ← h3, modRm_fields]
    · cases h

/-- What a row of `mmRows` makes is encoded with the row's opcode (R118). -/
theorem encode_of_mmRow : ∀ row ∈ mmRows, ∀ pfx r rm,
    encode (row.2 pfx r rm) = encodeRm pfx row.1 r.num rm.field ∧ (row.2 pfx r rm).shape = .rmMm pfx rm := by
  simp only [mmRows, List.forall_mem_cons, List.not_mem_nil, false_imp_iff, implies_true, and_true]
  and_intros <;> exact fun _ _ _ => ⟨rfl, rfl⟩

/-- ... and what a row of `gpRows` makes. -/
theorem encode_of_gpRow : ∀ row ∈ gpRows, ∀ pfx r rm,
    encode (row.2 pfx r rm) = encodeRm pfx row.1 r.num rm.field ∧ (row.2 pfx r rm).shape = .rmGp pfx rm := by
  simp only [gpRows, List.forall_mem_cons, List.not_mem_nil, false_imp_iff, implies_true, and_true]
  and_intros <;> exact fun _ _ _ => ⟨rfl, rfl⟩

/-- ... and what a row of `shiRows` makes, with its opcode extension too. -/
theorem encode_of_shiRow : ∀ row ∈ shiRows, ∀ pfx r imm,
    encode (row.2 pfx r imm) = encodeShi pfx row.1.1 row.1.2 r.num imm ∧ (row.2 pfx r imm).shape = .shi pfx := by
  simp only [shiRows, List.forall_mem_cons, List.not_mem_nil, false_imp_iff, implies_true, and_true]
  and_intros <;> exact fun _ _ _ => ⟨rfl, rfl⟩

/-- Behind these prefixes the bytes are those of the instruction and then the rest, and its memory operand can be spelt
in this address size. -/
structure ReadAs (size : AddrSize) (pfx : List Prefix) (bs : List Byte) (i : Instr) (rest : List Byte) : Prop where
  prefixes : i.prefixes = pfx
  bytes : pfx.map Prefix.byte ++ bs = encode i ++ rest
  spelt : ∀ m, i.memRef = some m → m.wellFormed size = true

/-- An instruction without a memory operand needs its bytes only. -/
theorem ReadAs.of_memRef_none {size : AddrSize} {pfx : List Prefix} {bs rest : List Byte} {i : Instr}
    (prefixes : i.prefixes = pfx) (bytes : pfx.map Prefix.byte ++ bs = encode i ++ rest) (h : i.memRef = none) :
    ReadAs size pfx bs i rest :=
  ⟨prefixes, bytes, by simp [h]⟩

/-- A row of `mmRows`, read with its operands. -/
theorem readAs_of_mmRow {size : AddrSize} {op : Byte} {mk : List Prefix → MmReg → MmRm → Instr}
    (row : mmRows.lookup op = some mk) {pfx : List Prefix} {bs rest : List Byte} {i : Instr}
    (h : decodeRm size (fun r f => mk pfx r f.mm) bs = .instr i rest) : ReadAs size pfx (0x0F :: op :: bs) i rest := by
  obtain ⟨r, f, rfl, rfl, spelt⟩ := decodeRm_eq_instr h
  obtain ⟨bytes, shape⟩ := encode_of_mmRow _ (mem_of_lookup row) pfx r f.mm
  refine ⟨by rw [Instr.prefixes, shape]; rfl, by simp [bytes, encodeRm, RmField.field_mm], fun m hm => spelt m ?_⟩
  rw [← RmField.field_mm f, MmRm.field_eq_mem]
  rwa [Instr.memRef, shape] at hm

/-- A row of `gpRows`, read with its operands. -/
theorem readAs_of_gpRow {size : AddrSize} {op : Byte} {mk : List Prefix → MmReg → GpRm → Instr}
    (row : gpRows.lookup op = some mk) {pfx : List Prefix} {bs rest : List Byte} {i : Instr}
    (h : decodeRm size (fun r f => mk pfx r f.gp) bs = .instr i rest) : ReadAs size pfx (0x0F :: op :: bs) i rest := by
  obtain ⟨r, f, rfl, rfl, spelt⟩ := decodeRm_eq_instr h
  obtain ⟨bytes, shape⟩ := encode_of_gpRow _ (mem_of_lookup row) pfx r f.gp
  refine ⟨by rw [Instr.prefixes, shape]; rfl, by simp [bytes, encodeRm, RmField.field_gp], fun m hm => spelt m ?_⟩
  rw [← RmField.field_gp f, GpRm.field_eq_mem]
  rwa [Instr.memRef, shape] at hm

theorem readAs_decodeShi {size : AddrSize} {op : Byte} {pfx : List Prefix} {bs rest : List Byte} {i : Instr}
    (h : decodeShi op pfx bs = .instr i rest) : ReadAs size pfx (0x0F :: op :: bs) i rest := by
  obtain ⟨ext, mk, r, imm, row, rfl, rfl⟩ := decodeShi_eq_instr h
  obtain ⟨bytes, shape⟩ := encode_of_shiRow _ (mem_of_lookup row) pfx r imm
  exact .of_memRef_none (by rw [Instr.prefixes, shape]; rfl) (by simp [bytes, encodeShi])
    (by rw [Instr.memRef, shape]; rfl)

theorem readAs_decodeTwoByte {size : AddrSize} {pfx : List Prefix} {bs rest : List Byte} {i : Instr}
    (h : decodeTwoByte size pfx bs = .instr i rest) : ReadAs size pfx (0x0F :: bs) i rest := by
  match bs, h with
  | op :: bs, h =>
    simp only [decodeTwoByte] at h
    by_cases hemms : op = 0x77
    · rw [if_pos hemms] at h
      obtain ⟨rfl, rfl⟩ := Decoded.instr.inj h
      exact .of_memRef_none rfl (by simp [encode, hemms]) rfl
    by_cases hcpuid : op = 0xA2
    · rw [if_neg hemms, if_pos hcpuid] at h
      obtain ⟨rfl, hi⟩ := noPrefix_eq_instr.1 h
      obtain ⟨rfl, rfl⟩ := Decoded.instr.inj hi
      exact .of_memRef_none rfl (by rw [hcpuid]; rfl) rfl
    rw [if_neg hemms, if_neg hcpuid] at h
    split at h
    · rename_i mk row
      exact readAs_of_mmRow row h
    · split at h
      · rename_i mk row
        exact readAs_of_gpRow row h
      · split_ifs at h
        exact readAs_decodeShi h

/-- The bytes B8 to BF hold the register's number (R118). -/
theorem movByte_fields {b : Byte} (h : b.extractLsb' 3 5 = 0b10111#5) : 0b10111#5 ++ rmOf b = b := by
  revert b; decide

theorem readAs_decodeOpcode {size : AddrSize} {pfx : List Prefix} {bs rest : List Byte} {i : Instr}
    (h : decodeOpcode size pfx bs = .instr i rest) : ReadAs size pfx bs i rest := by
  match bs, h with
  | b :: bs, h =>
    simp only [decodeOpcode] at h
    split_ifs at h with htwo hmov htest hjnz
    · exact htwo ▸ readAs_decodeTwoByte h
    · obtain ⟨rfl, hi⟩ := noPrefix_eq_instr.1 h
      obtain ⟨imm, himm, rfl⟩ := ofOption_eq_instr.1 hi
      refine .of_memRef_none rfl ?_ rfl
      simp only [take32_eq_some himm, encode, Reg32.num_ofNum, movByte_fields hmov]
      rfl
    · match bs, h with
      | m :: bs, h =>
        simp only [decodeTest] at h
        split_ifs at h with hm
        obtain ⟨rfl, hi⟩ := noPrefix_eq_instr.1 h
        obtain ⟨imm, himm, rfl⟩ := ofOption_eq_instr.1 hi
        refine .of_memRef_none rfl ?_ rfl
        simp only [take32_eq_some himm, encode, Reg32.num_ofNum, ← hm.1, ← hm.2, modRm_fields, htest]
        rfl
    · obtain ⟨rfl, hi⟩ := noPrefix_eq_instr.1 h
      obtain ⟨rel, hrel, rfl⟩ := ofOption_eq_instr.1 hi
      exact .of_memRef_none rfl (by rw [take8_eq_some hrel, hjnz]; rfl) rfl

/-- What the decoder accepts is well formed, and the bytes are its encoding and then the rest (R108, R118, R123). -/
theorem encode_of_decode {dflt : AddrSize} {bs rest : List Byte} {i : Instr} (h : decode dflt bs = .instr i rest) :
    i.wellFormed dflt = true ∧ bs = encode i ++ rest := by
  unfold decode at h
  split at h
  · rename_i j rest' hj
    split_ifs at h with long
    obtain ⟨rfl, rfl⟩ := Decoded.instr.inj h
    obtain ⟨prefixes, bytes, spelt⟩ := readAs_decodeOpcode hj
    rw [takePrefixes_bytes] at bytes
    rw [← prefixes] at spelt
    exact ⟨by simpa [Instr.wellFormed, Option.all_eq_true] using ⟨spelt, Nat.not_lt.1 long⟩, bytes⟩
  · rename_i other
    exact absurd h (other i rest)

/-! ### Holes, long instructions and prefixed base instructions -/

/-- A second opcode byte of a hole is in no row (R118, R120). -/
theorem holeBytes_in_no_row : ∀ op ∈ holeBytes, op ≠ 0x77 ∧ op ≠ 0xA2 ∧ mmRows.lookup op = none ∧
    gpRows.lookup op = none ∧ op ∉ shiBytes := by
  simp only [← Option.isNone_iff_eq_none]
  decide

/-- ... and so the decoder stops there. -/
theorem decodeTwoByte_hole {op : Byte} (h : op ∈ holeBytes) (size : AddrSize) (pfx : List Prefix) (rest : List Byte) :
    decodeTwoByte size pfx (op :: rest) = .hole := by
  obtain ⟨emms, cpuid, mm, gp, shi⟩ := holeBytes_in_no_row op h
  rw [decodeTwoByte, if_neg emms, if_neg cpuid, mm, gp]
  exact (if_neg shi).trans (if_pos h)

/-- A shift by an immediate needs mod 11 and an extension of its row (R120, R290). -/
theorem decodeShi_hole {op m : Byte} (h : modOf m ≠ 3 ∨ shiRows.lookup (op, regOf m) = none) (pfx : List Prefix)
    (rest : List Byte) : decodeShi op pfx (m :: rest) = .hole := by
  rw [decodeShi]
  split_ifs with h3
  · rw [h.resolve_left (not_not.2 h3)]
  · rfl

/-- ... and so it is behind the 0FH of any of the three opcodes. -/
theorem decodeTwoByte_shiHole {op m : Byte} (hop : op ∈ shiBytes)
    (h : modOf m ≠ 3 ∨ shiRows.lookup (op, regOf m) = none) (size : AddrSize) (pfx : List Prefix) (rest : List Byte) :
    decodeTwoByte size pfx (op :: m :: rest) = .hole := by
  rw [decodeTwoByte_shi hop, decodeShi_hole h]

/-- What no row of `shiRows` has. -/
theorem shiRows_lookup_none :
    (∀ ext ∈ [0#3, 1#3, 3#3, 5#3, 7#3], shiRows.lookup (0x71, ext) = none ∧ shiRows.lookup (0x72, ext) = none) ∧
    ∀ ext ∈ [0#3, 1#3, 3#3, 4#3, 5#3, 7#3], shiRows.lookup (0x73, ext) = none := by
  simp only [← Option.isNone_iff_eq_none]
  decide

/-- A hole is one under any prefixes and whatever follows it (R120, log 23). -/
theorem decode_hole (dflt : AddrSize) (pfx : List Prefix) {h : List Byte} (hh : Claims.isHole h) (rest : List Byte) :
    decode dflt (pfx.map Prefix.byte ++ h ++ rest) = .hole := by
  suffices decodeBytes dflt (pfx.map Prefix.byte ++ h ++ rest) = .hole by rw [decode, this]
  rw [List.append_assoc]
  obtain ⟨op, hop, rfl⟩ | ⟨op, m, rfl, hm⟩ := hh
  · exact (decodeBytes_twoByte dflt pfx (op :: rest)).trans (decodeTwoByte_hole hop _ pfx rest)
  · obtain ⟨ext71_72, ext73⟩ := shiRows_lookup_none
    refine (decodeBytes_twoByte dflt pfx (op :: m :: rest)).trans ?_
    obtain ⟨rfl | rfl, hm⟩ | ⟨rfl, hm⟩ := hm
    · exact decodeTwoByte_shiHole (by decide) (hm.imp_right fun h => (ext71_72 _ h).1) _ pfx rest
    · exact decodeTwoByte_shiHole (by decide) (hm.imp_right fun h => (ext71_72 _ h).2) _ pfx rest
    · exact decodeTwoByte_shiHole (by decide) (hm.imp_right (ext73 _)) _ pfx rest

/-- An instruction of more than 15 bytes is too long (R108). -/
theorem decode_encode_tooLong {dflt : AddrSize} {i : Instr}
    (spelt : i.memRef.all (MemRef.wellFormed (effAddrSize dflt i.prefixes)) = true)
    (long : maxLength < (encode i).length) : decode dflt (encode i) = .tooLong := by
  have decoded := decodeBytes_encode dflt i [] spelt
  rw [List.append_nil] at decoded
  rw [length_encode] at long
  rw [decode, decoded]
  exact if_pos long

/-- A base instruction behind prefixes is admitted at no length (R109). -/
theorem decode_prefixed_base (dflt : AddrSize) (p : Prefix) (pfx : List Prefix) {i : Instr} (h : i.isMmx = false) :
    decode dflt ((p :: pfx).map Prefix.byte ++ encode i) = .prefixedBase := by
  have decoded := decodeBytes_encode_base dflt (p :: pfx) [] h
  rw [List.append_nil] at decoded
  rw [decode, decoded]
  rfl

/-- With bytes behind, the decoder's answer is one that is no instruction exactly where it is that without them. -/
theorem Decoded.followedBy_eq_iff {d e : Decoded} (he : ∀ i rest, e ≠ .instr i rest) (more : List Byte) :
    d.followedBy more = e ↔ d = e := by
  cases d with
  | instr i rest => exact iff_of_false (he i (rest ++ more)).symm (he i rest).symm
  | _ => exact Iff.rfl

/-- An encoding of a well-formed instruction, written out as bytes, decodes to it. -/
theorem decode_of_encode_eq {dflt : AddrSize} {i : Instr} {bs : List Byte} (hw : i.wellFormed dflt = true)
    (h : encode i = bs) : decode dflt bs = .instr i [] := by
  simpa [h] using decode_encode dflt i [] hw

/-! ### Prefixes in force -/

theorem segOverride_append (p q : List Prefix) : segOverride (p ++ q) = (segOverride q).or (segOverride p) := by
  induction p with
  | nil => simp [segOverride]
  | cons x p ih =>
    cases x with
    | segment g => rw [List.cons_append, segOverride, segOverride, ih, Option.or_assoc]
    | _ => exact ih

/-- Only a segment override overrides (R105). -/
theorem segOverride_cons_other {x : Prefix} (h : ∀ g, x ≠ .segment g) (p : List Prefix) :
    segOverride (x :: p) = segOverride p := by
  cases x with
  | segment g => exact absurd rfl (h g)
  | _ => rfl

theorem segOverride_eq_none {p : List Prefix} (h : ∀ g, Prefix.segment g ∉ p) : segOverride p = none := by
  induction p with
  | nil => rfl
  | cons x p ih =>
    rw [segOverride_cons_other fun g e => h g (e ▸ List.mem_cons_self)]
    exact ih fun g hg => h g (List.mem_cons_of_mem x hg)

/-- SS goes with the bases ESP and EBP (R115). -/
theorem Reg32.stackBase_iff (b : Reg32) : b.stackBase = true ↔ b = .ebp ∨ b = .esp := by
  cases b <;> decide

theorem MemRef.defaultSeg_base16 (rm : Rm16) (d : Disp16) :
    (MemRef.base16 rm d).defaultSeg = if rm = .bpsi ∨ rm = .bpdi ∨ rm = .bp then .ss else .ds := by
  cases rm <;> rfl

end Sys2Proof

namespace Sys2Proof.Machine

open Sys2Proof.Claims

/-! ### The fetch of more bytes than are asked for at first -/

/-- Of bytes that are each fetched from the `k`-th on, `fetchBytes` gives as many as it is asked for. -/
theorem fetchBytes_take {s : State} {bytes : List Byte} {n k : Nat}
    (h : ∀ j, j < bytes.length → fetchByte s (k + j) = .next (bytes.getD j 0)) (hn : n ≤ bytes.length) :
    fetchBytes s n k = (bytes.take n, none) := by
  induction n generalizing bytes k with
  | zero => rfl
  | succ n ih =>
    obtain _ | ⟨b, bytes⟩ := bytes
    · cases hn
    have first : fetchByte s k = .next b := h 0 (Nat.zero_lt_succ _)
    have others : ∀ j, j < bytes.length → fetchByte s (k + 1 + j) = .next (bytes.getD j 0) := fun j hj => by
      rw [Nat.add_right_comm]; exact h (j + 1) (Nat.succ_lt_succ hj)
    rw [fetchBytes, first, ih others (Nat.le_of_succ_le_succ hn)]
    rfl

/-- Bytes that are fetched all stand below 2^32 (R48). -/
theorem length_le_of_fetches {s : State} {bytes : List Byte} (h : fetches s bytes) : bytes.length ≤ 2 ^ 32 := by
  by_contra hlen
  have below := fetchByte_lt (h (2 ^ 32) (Nat.lt_of_not_le hlen))
  omega

/-- Bytes at the pc that the decoder makes something of, but no instruction, are what is fetched there, however many. -/
theorem decode_fetchWindow {s : State} {bytes : List Byte} {d : Decoded} (h : fetches s bytes)
    (hd : decode s.params.defaultAddrSize bytes = d) (decided : d ≠ .truncated) (final : ∀ i rest, d ≠ .instr i rest) :
    decode s.params.defaultAddrSize (fetchWindow s).1 = d := by
  have fetched : ∀ j, j < bytes.length → fetchByte s (0 + j) = .next (bytes.getD j 0) := by simpa [fetches] using h
  have beyond : ∀ rest, decode s.params.defaultAddrSize (bytes ++ rest) = d := fun rest => by
    rw [decidedByFront_decode _ _ rest (hd ▸ decided), hd, Decoded.followedBy_eq_iff final]
  obtain few | many := Nat.le_total bytes.length maxLength
  · obtain ⟨rest, hbytes⟩ := fetchBytes_append fetched few
    have window := fetchWindow_of_decoded (s := s) (by rw [hbytes, beyond]; exact decided)
    rw [window, hbytes, beyond]
  · have first := fetchBytes_take fetched many
    by_cases cut : decode s.params.defaultAddrSize (bytes.take maxLength) = .truncated
    · obtain ⟨rest, hbytes⟩ := fetchBytes_append fetched (n := 2 ^ 32 + 1) (by have := length_le_of_fetches h; omega)
      have window : fetchWindow s = fetchAll s := by rw [fetchWindow, first, cut]
      rw [window, fetchAll, hbytes, beyond]
    · have window := fetchWindow_of_decoded (s := s) (by rwa [first])
      rw [window, first, ← Decoded.followedBy_eq_iff final (bytes.drop maxLength), ← decidedByFront_decode _ _ _ cut,
        List.take_append_drop, hd]

/-! ### Ignored prefixes -/

theorem shiftedBy_andThen {α : Type} {n : Nat} {x : Result α} {f g : α → Result State}
    (h : ∀ a, shiftedBy n (f a) (g a)) : shiftedBy n (andThen x f) (andThen x g) := by
  cases x with
  | next a => exact h a
  | fault e => rfl
  | refused r => rfl

/-- A longer instruction ends further on (R48). -/
theorem shiftedBy_commit (tags : Word) (length n : Nat) (s : State) :
    shiftedBy n (.next (commit tags length s)) (.next (commit tags (length + n) s)) := by
  have eip : s.eip + BitVec.ofNat 32 (length + n) = s.eip + BitVec.ofNat 32 length + BitVec.ofNat 32 n := by
    rw [BitVec.ofNat_add, BitVec.add_assoc]
  simp [shiftedBy, commit, State.advance, eip]

/-- The checks read of the prefixes whether LOCK is one of them (R141). -/
theorem mmxChecks_congr {p p' : List Prefix} (h : .lock ∈ p' ↔ .lock ∈ p) (s : State) :
    mmxChecks p' s = mmxChecks p s := by
  simp only [mmxChecks, h]

/-- Other prefixes in front of an instruction: `n` more, LOCK among these where it was among those, and its memory operand,
if it has one, in the same segment. -/
structure SameBut (n : Nat) (mem : Option MemRef) (p p' : List Prefix) : Prop where
  length : p'.length = p.length + n
  lock : .lock ∈ p' ↔ .lock ∈ p
  seg : ∀ m, mem = some m → operandSeg p' m = operandSeg p m

/-- The instruction does the same under other prefixes, and ends further on. -/
def IgnoresPrefixes (mk : List Prefix → Instr) : Prop :=
  ∀ n p p' s, SameBut n (mk []).memRef p p' → shiftedBy n (exec (mk p) s) (exec (mk p') s)

theorem shiftedBy_mmxToReg {α : Type} {n : Nat} {p p' : List Prefix} (lock : .lock ∈ p' ↔ .lock ∈ p)
    {length length' : Nat} (len : length' = length + n) (dst : MmReg) {read read' : State → Result α}
    (compute : QWord → α → QWord) {s : State} (hread : read' s = read s) :
    shiftedBy n (mmxToReg p length dst read compute s) (mmxToReg p' length' dst read' compute s) := by
  rw [mmxToReg, mmxToReg, mmxChecks_congr lock, hread, len]
  exact shiftedBy_andThen fun _ => shiftedBy_andThen fun _ => shiftedBy_commit ..

theorem shiftedBy_mmxToGp {n : Nat} {p p' : List Prefix} (lock : .lock ∈ p' ↔ .lock ∈ p)
    {length length' : Nat} (len : length' = length + n) (dst : Reg32) (value : State → DWord) (s : State) :
    shiftedBy n (mmxToGp p length dst value s) (mmxToGp p' length' dst value s) := by
  rw [mmxToGp, mmxToGp, mmxChecks_congr lock, len]
  exact shiftedBy_andThen fun _ => shiftedBy_commit ..

theorem shiftedBy_mmxToMem {n : Nat} {p p' : List Prefix} (lock : .lock ∈ p' ↔ .lock ∈ p)
    {length length' : Nat} (len : length' = length + n) {dst : MemRef} (seg : operandSeg p' dst = operandSeg p dst)
    (bytes : State → List Byte) (s : State) :
    shiftedBy n (mmxToMem p length dst bytes s) (mmxToMem p' length' dst bytes s) := by
  rw [mmxToMem, mmxToMem, mmxChecks_congr lock, seg, len]
  exact shiftedBy_andThen fun _ => shiftedBy_andThen fun _ => shiftedBy_commit ..

theorem readMm64_congr {p p' : List Prefix} {src : MmRm}
    (seg : ∀ m, src.memRef = some m → operandSeg p' m = operandSeg p m) (s : State) :
    readMm64 p' src s = readMm64 p src s := by
  cases src with
  | reg r => rfl
  | mem m => rw [readMm64, readMm64, load64, load64, seg m rfl]

theorem readMm32_congr {p p' : List Prefix} {src : MmRm}
    (seg : ∀ m, src.memRef = some m → operandSeg p' m = operandSeg p m) (s : State) :
    readMm32 p' src s = readMm32 p src s := by
  cases src with
  | reg r => rfl
  | mem m => rw [readMm32, readMm32, load32, load32, seg m rfl]

theorem readGp32_congr {p p' : List Prefix} {src : GpRm}
    (seg : ∀ m, src.memRef = some m → operandSeg p' m = operandSeg p m) (s : State) :
    readGp32 p' src s = readGp32 p src s := by
  cases src with
  | reg r => rfl
  | mem m => rw [readGp32, readGp32, load32, load32, seg m rfl]

theorem rmLength_add {n : Nat} {p p' : List Prefix} (h : p'.length = p.length + n) (extra : Nat) :
    rmLength p' extra = rmLength p extra + n := by
  simp only [rmLength, h]; omega

theorem IgnoresPrefixes.rm64 {mk : List Prefix → Instr} {dst : MmReg} {src : MmRm} {compute : QWord → QWord → QWord}
    (mem : (mk []).memRef = src.memRef) (hx : ∀ p s, exec (mk p) s = mmxRm64 p dst src compute s) :
    IgnoresPrefixes mk := by
  intro n p p' s same
  rw [hx, hx]
  exact shiftedBy_mmxToReg same.lock (rmLength_add same.length _) dst compute (readMm64_congr (mem ▸ same.seg) s)

theorem IgnoresPrefixes.rm32 {mk : List Prefix → Instr} {dst : MmReg} {src : MmRm} {compute : QWord → DWord → QWord}
    (mem : (mk []).memRef = src.memRef) (hx : ∀ p s, exec (mk p) s = mmxRm32 p dst src compute s) :
    IgnoresPrefixes mk := by
  intro n p p' s same
  rw [hx, hx]
  exact shiftedBy_mmxToReg same.lock (rmLength_add same.length _) dst compute (readMm32_congr (mem ▸ same.seg) s)

theorem IgnoresPrefixes.imm {mk : List Prefix → Instr} {dst : MmReg} {imm : Byte} {compute : QWord → Nat → QWord}
    (hx : ∀ p s, exec (mk p) s = mmxImm p dst imm compute s) : IgnoresPrefixes mk := by
  intro n p p' s same
  rw [hx, hx]
  exact shiftedBy_mmxToReg same.lock (by simp only [shiLength, same.length]; omega) dst compute rfl

theorem IgnoresPrefixes.movqStore (dst : MmRm) (src : MmReg) : IgnoresPrefixes fun p => .movqStore p dst src := by
  intro n p p' s same
  show shiftedBy n (execMovqStore p dst src s) (execMovqStore p' dst src s)
  cases dst with
  | reg r =>
    rw [execMovqStore, execMovqStore]
    exact shiftedBy_mmxToReg same.lock (rmLength_add same.length 0) r _ rfl
  | mem m =>
    rw [execMovqStore, execMovqStore]
    exact shiftedBy_mmxToMem same.lock (rmLength_add same.length m.extra) (same.seg m rfl) _ s

theorem IgnoresPrefixes.movdStore (dst : GpRm) (src : MmReg) : IgnoresPrefixes fun p => .movdStore p dst src := by
  intro n p p' s same
  show shiftedBy n (execMovdStore p dst src s) (execMovdStore p' dst src s)
  cases dst with
  | reg r =>
    rw [execMovdStore, execMovdStore]
    exact shiftedBy_mmxToGp same.lock (rmLength_add same.length 0) r _ s
  | mem m =>
    rw [execMovdStore, execMovdStore]
    exact shiftedBy_mmxToMem same.lock (rmLength_add same.length m.extra) (same.seg m rfl) _ s

theorem IgnoresPrefixes.movdLoad (dst : MmReg) (src : GpRm) : IgnoresPrefixes fun p => .movdLoad p dst src := by
  intro n p p' s same
  show shiftedBy n (execMovdLoad p dst src s) (execMovdLoad p' dst src s)
  rw [execMovdLoad, execMovdLoad]
  exact shiftedBy_mmxToReg same.lock (rmLength_add same.length src.extra) dst _ (readGp32_congr same.seg s)

theorem IgnoresPrefixes.emms : IgnoresPrefixes .emms := by
  intro n p p' s same
  show shiftedBy n (execEmms p s) (execEmms p' s)
  rw [execEmms, execEmms, mmxChecks_congr same.lock, zo2Length, zo2Length, same.length, Nat.add_right_comm _ n 2]
  exact shiftedBy_andThen fun _ => shiftedBy_commit ..

/-- Row by row, an instruction of `mmRows` is of form `mm, mm/m64` or `mm, mm/m32`, or it is the store of MOVQ (R118). -/
theorem ignoresPrefixes_mmRow : ∀ row ∈ mmRows, ∀ r rm, IgnoresPrefixes fun p => row.2 p r rm := by
  simp only [mmRows, List.forall_mem_cons, List.not_mem_nil, false_imp_iff, implies_true, and_true]
  exact ⟨
    fun r rm => .rm32 rfl fun p s => (rfl : execPunpcklbw p r rm s = _),
    fun r rm => .rm32 rfl fun p s => (rfl : execPunpcklwd p r rm s = _),
    fun r rm => .rm32 rfl fun p s => (rfl : execPunpckldq p r rm s = _),
    fun r rm => .rm64 rfl fun p s => (rfl : execPacksswb p r rm s = _),
    fun r rm => .rm64 rfl fun p s => (rfl : execPcmpgtb p r rm s = _),
    fun r rm => .rm64 rfl fun p s => (rfl : execPcmpgtw p r rm s = _),
    fun r rm => .rm64 rfl fun p s => (rfl : execPcmpgtd p r rm s = _),
    fun r rm => .rm64 rfl fun p s => (rfl : execPackuswb p r rm s = _),
    fun r rm => .rm64 rfl fun p s => (rfl : execPunpckhbw p r rm s = _),
    fun r rm => .rm64 rfl fun p s => (rfl : execPunpckhwd p r rm s = _),
    fun r rm => .rm64 rfl fun p s => (rfl : execPunpckhdq p r rm s = _),
    fun r rm => .rm64 rfl fun p s => (rfl : execPackssdw p r rm s = _),
    fun r rm => .rm64 rfl fun p s => (rfl : execMovqLoad p r rm s = _),
    fun r rm => .rm64 rfl fun p s => (rfl : execPcmpeqb p r rm s = _),
    fun r rm => .rm64 rfl fun p s => (rfl : execPcmpeqw p r rm s = _),
    fun r rm => .rm64 rfl fun p s => (rfl : execPcmpeqd p r rm s = _),
    fun r rm => .movqStore rm r,
    fun r rm => .rm64 rfl fun p s => (rfl : execPsrlw p r rm s = _),
    fun r rm => .rm64 rfl fun p s => (rfl : execPsrld p r rm s = _),
    fun r rm => .rm64 rfl fun p s => (rfl : execPsrlq p r rm s = _),
    fun r rm => .rm64 rfl fun p s => (rfl : execPmullw p r rm s = _),
    fun r rm => .rm64 rfl fun p s => (rfl : execPsubusb p r rm s = _),
    fun r rm => .rm64 rfl fun p s => (rfl : execPsubusw p r rm s = _),
    fun r rm => .rm64 rfl fun p s => (rfl : execPand p r rm s = _),
    fun r rm => .rm64 rfl fun p s => (rfl : execPaddusb p r rm s = _),
    fun r rm => .rm64 rfl fun p s => (rfl : execPaddusw p r rm s = _),
    fun r rm => .rm64 rfl fun p s => (rfl : execPandn p r rm s = _),
    fun r rm => .rm64 rfl fun p s => (rfl : execPsraw p r rm s = _),
    fun r rm => .rm64 rfl fun p s => (rfl : execPsrad p r rm s = _),
    fun r rm => .rm64 rfl fun p s => (rfl : execPmulhw p r rm s = _),
    fun r rm => .rm64 rfl fun p s => (rfl : execPsubsb p r rm s = _),
    fun r rm => .rm64 rfl fun p s => (rfl : execPsubsw p r rm s = _),
    fun r rm => .rm64 rfl fun p s => (rfl : execPor p r rm s = _),
    fun r rm => .rm64 rfl fun p s => (rfl : execPaddsb p r rm s = _),
    fun r rm => .rm64 rfl fun p s => (rfl : execPaddsw p r rm s = _),
    fun r rm => .rm64 rfl fun p s => (rfl : execPxor p r rm s = _),
    fun r rm => .rm64 rfl fun p s => (rfl : execPsllw p r rm s = _),
    fun r rm => .rm64 rfl fun p s => (rfl : execPslld p r rm s = _),
    fun r rm => .rm64 rfl fun p s => (rfl : execPsllq p r rm s = _),
    fun r rm => .rm64 rfl fun p s => (rfl : execPmaddwd p r rm s = _),
    fun r rm => .rm64 rfl fun p s => (rfl : execPsubb p r rm s = _),
    fun r rm => .rm64 rfl fun p s => (rfl : execPsubw p r rm s = _),
    fun r rm => .rm64 rfl fun p s => (rfl : execPsubd p r rm s = _),
    fun r rm => .rm64 rfl fun p s => (rfl : execPaddb p r rm s = _),
    fun r rm => .rm64 rfl fun p s => (rfl : execPaddw p r rm s = _),
    fun r rm => .rm64 rfl fun p s => (rfl : execPaddd p r rm s = _)⟩

/-- The rows of `gpRows` are the two directions of MOVD. -/
theorem ignoresPrefixes_gpRow : ∀ row ∈ gpRows, ∀ r rm, IgnoresPrefixes fun p => row.2 p r rm := by
  simp only [gpRows, List.forall_mem_cons, List.not_mem_nil, false_imp_iff, implies_true, and_true]
  exact ⟨fun r rm => .movdLoad r rm, fun r rm => .movdStore rm r⟩

/-- Row by row, an instruction of `shiRows` is of form `mm, imm8`. -/
theorem ignoresPrefixes_shiRow : ∀ row ∈ shiRows, ∀ r imm, IgnoresPrefixes fun p => row.2 p r imm := by
  simp only [shiRows, List.forall_mem_cons, List.not_mem_nil, false_imp_iff, implies_true, and_true]
  exact ⟨
    fun r imm => .imm fun p s => (rfl : execPsrlwImm p r imm s = _),
    fun r imm => .imm fun p s => (rfl : execPsrawImm p r imm s = _),
    fun r imm => .imm fun p s => (rfl : execPsllwImm p r imm s = _),
    fun r imm => .imm fun p s => (rfl : execPsrldImm p r imm s = _),
    fun r imm => .imm fun p s => (rfl : execPsradImm p r imm s = _),
    fun r imm => .imm fun p s => (rfl : execPslldImm p r imm s = _),
    fun r imm => .imm fun p s => (rfl : execPsrlqImm p r imm s = _),
    fun r imm => .imm fun p s => (rfl : execPsllqImm p r imm s = _)⟩

/-- Every MMX instruction reads of its prefixes LOCK, the segment of its memory operand, and how many they are (R102 to
R108). -/
theorem ignoresPrefixes_of_isMmxBody {mk : List Prefix → Instr} (h : isMmxBody mk) : IgnoresPrefixes mk := by
  obtain ⟨row, hrow, r, rm, rfl⟩ | ⟨row, hrow, r, rm, rfl⟩ | ⟨row, hrow, r, imm, rfl⟩ | rfl := h
  · exact ignoresPrefixes_mmRow row hrow r rm
  · exact ignoresPrefixes_gpRow row hrow r rm
  · exact ignoresPrefixes_shiRow row hrow r imm
  · exact .emms

/-- One more, not LOCK, that leaves the segment in force. -/
theorem SameBut.one_more {mem : Option MemRef} {p q : List Prefix} {x : Prefix} (lock : x ≠ .lock)
    (seg : ∀ m, mem = some m → operandSeg (p ++ x :: q) m = operandSeg (p ++ q) m) :
    SameBut 1 mem (p ++ q) (p ++ x :: q) :=
  ⟨by simp only [List.length_append, List.length_cons]; omega, by simp [lock.symm], seg⟩

/-! ### Effective addresses as numbers -/

/-- A sign-extended bit vector is its signed value, modulo the new width (R113). -/
theorem toNat_signExtend_eq_emod {n : Nat} (v : BitVec n) (w : Nat) :
    ((v.signExtend w).toNat : Int) = v.toInt % 2 ^ w := by
  rw [BitVec.signExtend, BitVec.toNat_ofInt, Nat.cast_pow, Nat.cast_ofNat]
  exact Int.toNat_of_nonneg (Int.emod_nonneg _ (by positivity))

theorem toNat_disp32 (d : Disp32) : (d.value.toNat : Int) = disp32 d % 2 ^ 32 := by
  cases d with
  | absent => rfl
  | d8 d => exact toNat_signExtend_eq_emod d 32
  | d32 d => simp only [Disp32.value, disp32]; omega

theorem toNat_disp16 (d : Disp16) : (d.value.toNat : Int) = disp16 d % 2 ^ 16 := by
  cases d with
  | absent => rfl
  | d8 d => exact toNat_signExtend_eq_emod d 16
  | d16 d => simp only [Disp16.value, disp16]; omega

theorem toNat_lowHalf (s : State) (r : Reg32) : (lowHalf s r).toNat = (s.x r).toNat % 2 ^ 16 := by
  simp [lowHalf]

/-- The low halves of the base registers add to what the registers add to, modulo 2^16 (R113). -/
theorem toNat_base16 (s : State) (rm : Rm16) : ((rm.value s).toNat : Int) = base16 s rm % 2 ^ 16 := by
  cases rm <;> simp only [Rm16.value, base16, BitVec.toNat_add, toNat_lowHalf] <;> omega

theorem toNat_sibIndex {x : Reg32} (h : x ≠ .esp) (s : State) (scale : BitVec 2) :
    (sibIndex s scale x).toNat = (s.x x).toNat * 2 ^ scale.toNat % 2 ^ 32 := by
  rw [sibIndex, if_neg h, BitVec.toNat_shiftLeft, Nat.shiftLeft_eq]

/-- Index ESP is none, whatever the scale (R113). -/
theorem sibIndex_esp (s : State) (scale : BitVec 2) : sibIndex s scale .esp = 0#32 := if_pos rfl

end Sys2Proof.Machine

namespace Sys2Proof.Proofs

open Sys2Proof.Machine Sys2Proof.Claims

/-! ### The statements -/

/-- Settles O1: the form of each encoding is read back, and it is short enough. -/
theorem decodeOfEncode : Obligations.DecodeOfEncode := decode_encode

/-- Settles O2: each branch of the decoder accepts the bytes of one row of the opcode map. -/
theorem encodeOfDecode : Obligations.EncodeOfDecode := fun _ _ _ _ => encode_of_decode

/-- Settles O3: the length is that of R117, and no bytes at all would decode as an instruction cut short. -/
theorem encodedLength : Obligations.EncodedLength := by
  refine fun i => ⟨length_encode i, fun dflt hw => ⟨?_, length_encode_le hw⟩⟩
  rw [Nat.one_le_iff_ne_zero, ne_eq, List.length_eq_zero_iff]
  intro empty
  have decoded := decode_encode dflt i [] hw
  rw [empty] at decoded
  cases decoded

/-- Settles O4: each word is the encoding of its instruction, which is well formed. -/
theorem knownWordsDecode : Obligations.KnownWordsDecode := by
  and_intros <;> exact decode_of_encode_eq rfl rfl

/-- Settles O5: the bytes up to the hole are decoded as one, and the fetch brings them. -/
theorem holesRaiseInvalidOpcode : Obligations.HolesRaiseInvalidOpcode := by
  intro dflt pfx h rest hh
  refine ⟨decode_hole dflt pfx hh rest, fun s hend _ hf => ?_⟩
  have hole : decode s.params.defaultAddrSize (pfx.map Prefix.byte ++ h) = .hole := by
    simpa using decode_hole s.params.defaultAddrSize pfx hh []
  rw [step_of_not_atEnd hend, fetchInstr, decode_fetchWindow hf hole (by simp) (by simp)]
  rfl

/-- Settles O6: the bytes are decoded as too long, and the fetch brings them. -/
theorem tooLongInstructionFaults : Obligations.TooLongInstructionFaults := by
  intro s i long spelt hend hf
  rw [step_of_not_atEnd hend, fetchInstr, decode_fetchWindow hf (decode_encode_tooLong spelt long) (by simp) (by simp)]
  rfl

/-- Settles O7: the bytes are refused at any length, and the fetch brings them. -/
theorem prefixOnBaseInstructionRefused : Obligations.PrefixOnBaseInstructionRefused := by
  intro s i p pfx hbase hend hf
  rw [step_of_not_atEnd hend, fetchInstr, decode_fetchWindow hf (decode_prefixed_base _ p pfx hbase) (by simp) (by simp)]
  rfl

/-- Settles O25: such a byte is no LOCK and no override, so the same segment stays in force. -/
theorem operandSizeAndRepeatIgnored : Obligations.OperandSizeAndRepeatIgnored := by
  intro mk p q x s hmk hx
  have lock : x ≠ .lock := by rintro rfl; simp at hx
  have noSeg : ∀ g, x ≠ .segment g := by rintro g rfl; simp at hx
  refine ignoresPrefixes_of_isMmxBody hmk _ _ _ s (.one_more lock fun m _ => ?_)
  rw [operandSeg, operandSeg, segOverride_append, segOverride_cons_other noSeg, ← segOverride_append]

/-- Settles O26: without a memory operand only LOCK and the length are read. -/
theorem prefixesIgnoredWithoutMemoryOperand : Obligations.PrefixesIgnoredWithoutMemoryOperand := by
  intro mk p q x s hmk hmem lock
  exact ignoresPrefixes_of_isMmxBody hmk _ _ _ s (.one_more lock (by simp [hmem]))

/-- Settles O27: the overrides of a concatenation are those of its last part, if it has any. -/
theorem prefixesInForce : Obligations.PrefixesInForce := by
  intro p q m
  refine ⟨fun h => ?_, fun g h => ?_, fun b d => ?_, fun _ => rfl, fun sc x b d => ?_, fun _ _ _ => rfl,
    fun rm d _ => MemRef.defaultSeg_base16 rm d, fun _ => rfl, fun h => ?_, fun h => ?_⟩
  · rw [operandSeg, segOverride_eq_none h]; rfl
  · rw [operandSeg, segOverride_append, segOverride, segOverride_eq_none h]; rfl
  · simp only [MemRef.defaultSeg, Reg32.stackBase_iff]
  · simp only [MemRef.defaultSeg, Reg32.stackBase_iff]
  · simp only [effAddrSize, if_neg h, and_self]
  · simp only [effAddrSize, if_pos h]; exact ⟨rfl, rfl⟩

/-- Settles O28: each form by its parts as numbers. -/
theorem effectiveAddresses : Obligations.EffectiveAddresses := by
  intro s b x sc d d32 rm d' d16
  have disp := toNat_disp32 d
  have disp' := toNat_disp16 d'
  have base := toNat_base16 s rm
  refine ⟨?_, rfl, fun h => ?_, ?_, fun h => ?_, ?_, ?_, ?_⟩
  · simp only [MemRef.ea, BitVec.toNat_add]; omega
  · simp only [MemRef.ea, BitVec.toNat_add, toNat_sibIndex h]; push_cast; omega
  · rw [MemRef.ea, sibIndex_esp, BitVec.add_zero, BitVec.toNat_add]; omega
  · rw [MemRef.ea, BitVec.toNat_add, toNat_sibIndex h, Nat.add_mod_mod]
  · rw [MemRef.ea, sibIndex_esp, BitVec.add_zero]
  · simp only [MemRef.ea, BitVec.toNat_setWidth, BitVec.toNat_add]; omega
  · simp only [MemRef.ea, BitVec.toNat_setWidth]; omega

end Sys2Proof.Proofs

/-! PROOFS, family 40_mmx_common.md: what a completed MMX instruction writes and what it leaves (O16, O18, O19, O21), the
checks before it (O22), exceptions that write next to nothing (O57), and the return from a numeric error (O58). -/

namespace Sys2Proof.Machine

open Sys2Proof.Claims

/-! ### What a completed MMX instruction writes -/

/-- The tag word an MMX instruction commits (R146): Empty for EMMS, else Valid. -/
def committedTags (i : Instr) : Word := if isEmms i then tagsEmpty else tagsValid

/-- A completed MMX instruction has committed, past its own length, a state in which only registers and memory were
written: of the integer registers its destination alone, and memory only where it stores (R146 to R149). -/
theorem commit_of_exec_next {i : Instr} {s t : State} (hmmx : i.isMmx = true) (h : exec i s = .next t) :
    ∃ gpr fpr mem, t = commit (committedTags i) i.length { s with gpr := gpr, fpr := fpr, mem := mem } ∧
      (∀ r, i.gpDst ≠ some r → gpr[r.index] = s.x r) ∧ (i.storeDst = none → mem = s.mem) := by
  obtain ⟨dst, α, read, compute, -, hgp, hstore, hemms, hx, -⟩ | ⟨dst, value, -, hgp, hstore, hemms, hx⟩ |
    ⟨m, n, bytes, -, hgp, hstore, -, -, hemms, -, hx⟩ | ⟨pfx, rfl⟩ := mmx_shapes i hmmx
  · obtain ⟨-, -, v, -, rfl⟩ := mmxToReg_eq_next.1 ((hx s).symm.trans h)
    exact ⟨s.gpr, _, s.mem, by rw [committedTags, hemms]; rfl, fun _ _ => rfl, fun _ => rfl⟩
  · obtain ⟨-, -, rfl⟩ := mmxToGp_eq_next.1 ((hx s).symm.trans h)
    refine ⟨_, s.fpr, s.mem, by rw [committedTags, hemms]; rfl, fun r hr => ?_, fun _ => rfl⟩
    have other : r ≠ dst := by rintro rfl; exact hr hgp
    exact x_setX_other s _ other
  · obtain ⟨-, -, addrs, -, -, rfl⟩ := mmxToMem_eq_next.1 ((hx s).symm.trans h)
    exact ⟨s.gpr, s.fpr, _, by rw [committedTags, hemms]; rfl, fun _ _ => rfl, by simp [hstore]⟩
  · obtain ⟨-, -, rfl⟩ := execEmms_eq_next.1 h
    exact ⟨s.gpr, s.fpr, s.mem, rfl, fun _ _ => rfl, fun _ => rfl⟩

/-! ### The checks, one by one -/

/-- An exception of the checks is the instruction's (R150). -/
theorem exec_fault_of_checks {i : Instr} {s : State} {f : Fault} (hmmx : i.isMmx = true)
    (h : mmxChecks i.prefixes s = .fault f) : exec i s = .fault f := by
  obtain ⟨rest, hx⟩ := exec_checks_first hmmx s
  rw [hx, h, andThen_fault]

/-- LOCK (R141). -/
theorem mmxChecks_lock {pfx : List Prefix} {s : State} (has : s.params.hasMmx = true) (lock : Prefix.lock ∈ pfx) :
    mmxChecks pfx s = .fault .invalidOpcode := by
  simp [mmxChecks, raise, has, lock]

/-- CR0.EM, with LOCK or without (R142). -/
theorem mmxChecks_em {pfx : List Prefix} {s : State} (has : s.params.hasMmx = true) (em : s.em = true) :
    mmxChecks pfx s = .fault .invalidOpcode := by
  simp [mmxChecks, raise, has, em]

/-- CR0.TS, where it is modelled (R143). -/
theorem mmxChecks_ts {pfx : List Prefix} {s : State} (has : s.params.hasMmx = true) (lock : Prefix.lock ∉ pfx)
    (em : s.em = false) (ts : (s.params.cr0TsModelled && s.ts) = true) :
    mmxChecks pfx s = .fault .deviceNotAvailable := by
  simp only [mmxChecks, raise, has, lock, em, ts, if_true, if_false, Bool.true_eq_false, Bool.false_eq_true]

/-- A pending floating-point exception (R144). -/
theorem mmxChecks_pending {pfx : List Prefix} {s : State} (has : s.params.hasMmx = true) (lock : Prefix.lock ∉ pfx)
    (em : s.em = false) (ts : (s.params.cr0TsModelled && s.ts) = false) (pending : s.fpExcPending = true) :
    mmxChecks pfx s = .fault (.numericError s.params.numericErrorMode) := by
  simp only [mmxChecks, raise, has, lock, em, ts, pending, if_true, if_false, Bool.true_eq_false, Bool.false_eq_true]

/-- The machine is ready where the technology is there and none of the conditions of R142 to R144 holds. -/
theorem mmxReady_iff {s : State} : mmxReady s = true ↔ s.params.hasMmx = true ∧ s.em = false ∧
    (s.params.cr0TsModelled && s.ts) = false ∧ s.fpExcPending = false := by
  simp only [mmxReady, Bool.and_eq_true, Bool.not_eq_true', and_assoc]

/-! ### The exceptions of an MMX instruction -/

/-- A result is an exception exactly where one part is, and the parts before it went on. -/
theorem andThen_eq_fault {α β : Type} {x : Result α} {f : α → Result β} {e : Fault} :
    andThen x f = .fault e ↔ x = .fault e ∨ ∃ a, x = .next a ∧ f a = .fault e := by
  cases x <;> simp [andThen]

/-- A last part that always goes on raises nothing. -/
theorem andThen_next_eq_fault {α β : Type} {x : Result α} {f : α → β} {e : Fault} :
    (andThen x fun a => .next (f a)) = .fault e ↔ x = .fault e := by
  cases x <;> simp [andThen]

/-- An exception of `forEach` is that of one of the elements. -/
theorem forEach_fault {α β : Type} {f : α → Result β} {xs : List α} {e : Fault} (h : forEach f xs = .fault e) :
    ∃ x ∈ xs, f x = .fault e := by
  induction xs with
  | nil => cases h
  | cons x xs ih =>
    rw [forEach, andThen_eq_fault] at h
    obtain here | ⟨_, -, later⟩ := h
    · exact ⟨x, List.mem_cons_self, here⟩
    · obtain ⟨y, hy, hf⟩ := ih (andThen_next_eq_fault.1 later)
      exact ⟨y, List.mem_cons_of_mem x hy, hf⟩

/-- The exceptions of a memory access (R304). -/
def Fault.ofAccess : Fault → Bool
  | .pageFault _ _ | .segmentNotPresent _ | .limitViolation _ | .memFault _ => true
  | .invalidOpcode | .deviceNotAvailable | .numericError _ => false

theorem linearOf_fault {s : State} {g : SegReg} {k : AccessKind} {offset : Nat} {f : Fault}
    (h : linearOf s g k offset = .fault f) : f.ofAccess = true := by
  unfold linearOf at h
  split at h
  · cases h
  · split at h <;> cases h <;> rfl

theorem physicalOf_fault {s : State} {k : AccessKind} {linear : Nat} {f : Fault}
    (h : physicalOf s k linear = .fault f) : f.ofAccess = true := by
  unfold physicalOf at h
  split_ifs at h
  split at h
  · cases h
  · split at h <;> cases h <;> rfl

theorem checkAligned_fault {s : State} {linears : List Nat} {f : Fault} (h : checkAligned s linears = .fault f) :
    f.ofAccess = true := by
  unfold checkAligned at h
  split_ifs at h
  cases h
  rfl

/-- The memory map refuses, and raises nothing (R76, R81). -/
theorem checkMapped_ne_fault (s : State) (a : Nat) (f : Fault) : checkMapped s a ≠ .fault f := by
  unfold checkMapped
  split
  · nofun
  · split <;> nofun

/-- `Translate` raises exceptions of a memory access only (R12, R304). -/
theorem translateBytes_fault {s : State} {g : SegReg} {ea : DWord} {n : Nat} {k : AccessKind} {f : Fault}
    (h : translateBytes s g ea n k = .fault f) : f.ofAccess = true := by
  simp only [translateBytes, andThen_eq_fault] at h
  obtain segment | ⟨_, -, aligned | ⟨_, -, page | ⟨_, -, map⟩⟩⟩ := h
  · obtain ⟨_, -, hf⟩ := forEach_fault segment
    exact linearOf_fault hf
  · exact checkAligned_fault aligned
  · obtain ⟨_, -, hf⟩ := forEach_fault page
    exact physicalOf_fault hf
  · obtain ⟨a, -, hf⟩ := forEach_fault map
    exact absurd hf (checkMapped_ne_fault s a f)

/-- An MMX instruction raises what the checks raise, or what the translation of its memory operand does (R150, R300). -/
theorem exec_mmx_fault {i : Instr} {s : State} {f : Fault} (hmmx : i.isMmx = true) (h : exec i s = .fault f) :
    mmxChecks i.prefixes s = .fault f ∨ ∃ m n k, i.memRef = some m ∧ (n = 4 ∨ n = 8) ∧
      translateBytes s (operandSeg i.prefixes m) (m.ea s) n k = .fault f := by
  obtain ⟨dst, α, read, compute, -, -, -, -, hx, source⟩ | ⟨dst, value, -, -, -, -, hx⟩ |
    ⟨m, n, bytes, -, -, -, hmem, hn, -, hlen, hx⟩ | ⟨pfx, rfl⟩ := mmx_shapes i hmmx
  · rw [hx, mmxToReg, andThen_eq_fault] at h
    obtain checks | ⟨_, -, hread⟩ := h
    · exact .inl checks
    · obtain ⟨m, n, hmem, hn, htr⟩ := source s f (andThen_next_eq_fault.1 hread)
      exact .inr ⟨m, n, .read, hmem, hn, htr⟩
  · exact .inl (andThen_next_eq_fault.1 ((hx s).symm.trans h))
  · rw [hx, mmxToMem, andThen_eq_fault] at h
    obtain checks | ⟨_, -, hwrite⟩ := h
    · exact .inl checks
    · exact .inr ⟨m, n, .write, hmem, hn, hlen s ▸ memWrite_eq_fault.1 (andThen_next_eq_fault.1 hwrite)⟩
  · exact .inl (andThen_next_eq_fault.1 (h : execEmms pfx s = .fault f))

/-- Where the checks pass, an MMX instruction raises exceptions of its memory access only (R153, R300). -/
theorem ofAccess_of_exec_fault {i : Instr} {s : State} {f : Fault} (hmmx : i.isMmx = true) (ready : mmxReady s = true)
    (lock : Prefix.lock ∉ i.prefixes) (h : exec i s = .fault f) : f.ofAccess = true := by
  obtain checks | ⟨_, _, _, -, -, htr⟩ := exec_mmx_fault hmmx h
  · rw [mmxChecks_eq_next (u := ()).2 ⟨ready, lock⟩] at checks
    cases checks
  · exact translateBytes_fault htr

/-! ### Taking an exception, and going on after it -/

/-- A numeric error writes FERR#, and only in that mode (R306). -/
theorem takeException_numericError (mode : NumericErrorMode) (s : State) :
    takeException (.numericError mode) s = { s with ferr := s.ferr || decide (mode = .ferr) } := by
  cases mode with
  | int16 => rw [decide_eq_false (by decide), Bool.or_false]; rfl
  | ferr => rw [decide_eq_true rfl, Bool.or_true]; rfl

/-- With a handler a step goes on after an exception (R313). -/
theorem stepHandled_of_fault {s : State} {f : Fault} (h : step s = .fault f) (handler : Fault → State → State) :
    stepHandled handler s = .next (returnFromException (handler f) f s) := by
  rw [stepHandled, h]

/-- The fetch reads the pc, the segment registers, memory and the parameters only (R48). -/
theorem fetchByte_congr {s t : State} (params : t.params = s.params) (seg : t.seg = s.seg) (eip : t.eip = s.eip)
    (mem : t.mem = s.mem) (k : Nat) : fetchByte t k = fetchByte s k := by
  simp only [fetchByte, fetchAddr, eip, mem, translateBytes_congr params seg, inText_congr params]

/-- The instruction whose bytes stand at the pc is the step (R25). -/
theorem step_of_fetches {s : State} {i : Instr} (hw : i.wellFormed s.params.defaultAddrSize = true)
    (hend : s.params.endAddr ≠ some s.eip) (h : fetches s (encode i)) : step s = exec i s := by
  rw [step_of_not_atEnd hend, fetchInstr_encode hw h, andThen_next]

end Sys2Proof.Machine

namespace Sys2Proof.Proofs

open Sys2Proof.Machine Sys2Proof.Claims

/-! ### The statements -/

/-- Settles O16: a base instruction writes none of these fields, and the commit of an MMX instruction TOS only. -/
theorem stepKeepsHostState : Obligations.StepKeepsHostState := by
  intro s t hstep
  obtain ⟨i, -, hx⟩ := exec_of_step_next hstep
  cases hmmx : i.isMmx with
  | false =>
    obtain ⟨u, hu, params, seg, -, -, status, control, pointer, cr0, cr2, pending, ferr, -⟩ := base_next i hmmx s
    obtain rfl : u = t := by simpa [hu] using hx
    exact ⟨params, cr0, cr2, seg, control, pointer, pending, ferr, fun _ _ => by rw [status]⟩
  | true =>
    obtain ⟨gpr, fpr, mem, rfl, -, -⟩ := commit_of_exec_next hmmx hx
    exact ⟨rfl, rfl, rfl, rfl, rfl, rfl, rfl, rfl, clearTos_other s.statusWord⟩

/-- Settles O18: the tag word is the committed one. -/
theorem mmxInstructionsSetTheTagWord : Obligations.MmxInstructionsSetTheTagWord := by
  intro i s t hmmx hx
  obtain ⟨gpr, fpr, mem, rfl, -, -⟩ := commit_of_exec_next hmmx hx
  constructor
  · intro other
    rw [committedTags, other]
    exact ⟨rfl, tag_commit_valid _ _⟩
  · intro emms
    rw [committedTags, emms]
    exact ⟨rfl, tag_commit_empty _ _⟩

/-- Settles O19: the commit clears TOS in the status word. -/
theorem mmxInstructionsClearTos : Obligations.MmxInstructionsClearTos := by
  intro i s t hmmx hx
  obtain ⟨gpr, fpr, mem, rfl, -, -⟩ := commit_of_exec_next hmmx hx
  exact ⟨tos_commit _ _ _, clearTos_other s.statusWord⟩

/-- Settles O21: the commit writes the tag word, TOS and the pc, and before it only registers and memory are written. -/
theorem mmxInstructionsFrame : Obligations.MmxInstructionsFrame := by
  intro i s t hmmx hx
  obtain ⟨gpr, fpr, mem, rfl, others, kept⟩ := commit_of_exec_next hmmx hx
  refine ⟨rfl, clearTos_other s.statusWord, rfl, rfl, rfl, rfl, rfl, rfl, rfl, others, fun nostore a => ?_, ?_⟩
  · rw [commit_mem, kept nostore]
  · rw [commit_eip, length_encode]

/-- Settles O22: the checks come first, and each is reached where those before it pass. -/
theorem mmxChecksInOrder : Obligations.MmxChecksInOrder := by
  intro i s hmmx has
  refine ⟨fun lock => ?_, fun em => ?_, fun lock em modelled ts => ?_, fun lock em ts pending => ?_⟩
  · exact exec_fault_of_checks hmmx (mmxChecks_lock has lock)
  · exact exec_fault_of_checks hmmx (mmxChecks_em has em)
  · exact exec_fault_of_checks hmmx (mmxChecks_ts has lock em (by rw [modelled, ts]; rfl))
  · exact exec_fault_of_checks hmmx (mmxChecks_pending has lock em ts pending)

/-- Settles O58: the pending exception is the last of the checks, and a fetch does not read what the handler wrote. -/
theorem instructionResumesAfterNumericError : Obligations.InstructionResumesAfterNumericError := by
  intro s t i hmmx hw hend hf lock ready pending ht
  obtain ⟨has, em, ts, -⟩ := mmxReady_iff.1 ready
  have raised : step s = .fault (.numericError s.params.numericErrorMode) := by
    rw [step_of_fetches hw hend hf]
    exact exec_fault_of_checks hmmx (mmxChecks_pending has lock em ts pending)
  have ready' : mmxReady t = true := ht ▸ ready
  have fetched : fetches t (encode i) := fun k hk => by
    rw [ht]; exact (fetchByte_congr rfl rfl rfl rfl k).trans (hf k hk)
  refine ⟨raised, ?_, step_of_fetches (ht ▸ hw) (ht ▸ hend) fetched, fun f hx mode => ?_⟩
  · rw [stepHandled_of_fault raised, returnFromException, takeException_numericError, ht]
  · rintro rfl
    exact Bool.noConfusion (ofAccess_of_exec_fault hmmx ready' lock hx)

/-- Settles O57: a page fault writes CR2, a numeric error FERR#, and every other exception nothing. -/
theorem exceptionsArePrecise : Obligations.ExceptionsArePrecise := by
  intro f s
  cases f with
  | pageFault l c =>
    refine ⟨rfl, ?_, fun other => absurd rfl (other l c), .inl, fun h => h.resolve_right nofun⟩
    rintro _ _ ⟨⟩
    rfl
  | numericError mode =>
    rw [takeException_numericError]
    exact ⟨rfl, nofun, fun _ => rfl, by simp⟩
  | _ => exact ⟨rfl, nofun, fun _ => rfl, .inl, fun h => h.resolve_right nofun⟩

end Sys2Proof.Proofs

/-! PROOFS, family 41_emms.md: what EMMS does (O30), from what the checks of every MMX instruction do and what it commits. -/

namespace Sys2Proof.Machine

open Sys2Proof.Claims

/-! ### The state that is committed -/

/-- The state that `commit` leaves, past the instruction's own length, is the one the statements name (R146, R147, R48). -/
theorem commit_length_eq_afterMmx (tags : Word) (i : Instr) (s : State) :
    commit tags i.length s = afterMmx tags i s := by
  rw [afterMmx, length_encode]
  rfl

/-! ### The common exceptions -/

/-- The exceptions of the checks, each under its condition (R141 to R144). -/
theorem mmxChecks_fault {pfx : List Prefix} {s : State} {f : Fault} (h : mmxChecks pfx s = .fault f) :
    (f = .invalidOpcode ∧ (Prefix.lock ∈ pfx ∨ s.em = true)) ∨
    (f = .deviceNotAvailable ∧ s.params.cr0TsModelled = true ∧ s.ts = true ∧ s.em = false) ∨
    (f = .numericError s.params.numericErrorMode ∧ s.fpExcPending = true) := by
  unfold mmxChecks at h
  split_ifs at h with noMmx lock em ts pending <;> cases h
  · exact .inl ⟨rfl, .inl lock⟩
  · exact .inl ⟨rfl, .inr em⟩
  · obtain ⟨modelled, set⟩ := Bool.and_eq_true_iff.1 ts
    exact .inr (.inl ⟨rfl, modelled, set, Bool.eq_false_of_not_eq_true em⟩)
  · exact .inr (.inr ⟨rfl, pending⟩)

/-- Every MMX instruction has the common exceptions, if it raises those of its memory operand where the checks pass. -/
theorem commonExceptions_of_operand {i : Instr} {n : Nat} {kind : AccessKind} (hmmx : i.isMmx = true)
    (operand : ∀ s m f, Prefix.lock ∉ i.prefixes → mmxReady s = true → i.memRef = some m →
      translateBytes s (operandSeg i.prefixes m) (m.ea s) n kind = .fault f → exec i s = .fault f) :
    commonExceptions i n kind := by
  intro s has
  obtain ⟨lock, em, ts, pending⟩ := Proofs.mmxChecksInOrder i s hmmx has
  exact ⟨fun h => h.elim lock em, ts, pending, fun noLock ready m f => operand s m f noLock ready⟩

/-- ... so it has them if it has no memory operand. -/
theorem commonExceptions_of_memRef_none {i : Instr} {n : Nat} {kind : AccessKind} (hmmx : i.isMmx = true)
    (hmem : i.memRef = none) : commonExceptions i n kind :=
  commonExceptions_of_operand hmmx fun _ _ _ _ _ present => by rw [hmem] at present; cases present

/-- Without a memory operand an MMX instruction raises the exceptions of the checks only (R300). -/
theorem mmxChecks_fault_of_exec_fault {i : Instr} {s : State} {f : Fault} (hmmx : i.isMmx = true)
    (hmem : i.memRef = none) (h : exec i s = .fault f) : mmxChecks i.prefixes s = .fault f := by
  obtain checks | ⟨m, _, _, present, -, -⟩ := exec_mmx_fault hmmx h
  · exact checks
  · rw [hmem] at present; cases present

end Sys2Proof.Machine

namespace Sys2Proof.Proofs

open Sys2Proof.Machine Sys2Proof.Claims

/-! ### The statements -/

/-- Settles O30: EMMS has no memory operand, so only the checks raise, and where they pass it commits the empty tags. -/
theorem emmsEmptiesTheTagWord : Obligations.EmmsEmptiesTheTagWord := by
  intro pfx
  refine ⟨rfl, commonExceptions_of_memRef_none rfl rfl, fun s f h => ?_, fun s ready lock => ?_⟩
  · obtain ⟨invalid, -⟩ | ⟨device, -⟩ | ⟨numeric, -⟩ := mmxChecks_fault (mmxChecks_fault_of_exec_fault rfl rfl h)
    · exact .inl invalid
    · exact .inr (.inl device)
    · exact .inr (.inr numeric)
  · have committed : commit tagsEmpty (zo2Length pfx) s = afterMmx 0xFFFF (.emms pfx) s :=
      commit_length_eq_afterMmx tagsEmpty (.emms pfx) s
    rw [← committed]
    exact ⟨execEmms_eq_next.2 ⟨ready, lock, rfl⟩, tos_commit _ _ _, tag_commit_empty _ _, fp_commit _ _ _⟩

end Sys2Proof.Proofs

/-! PROOFS, family 42_cpuid_detection.md: what CPUID, MOV, TEST and JNZ do (O48 to O51), from the bytes of an immediate, the
values CPUID returns, the flags of TEST and the target of JNZ. -/

namespace Sys2Proof

/-! ### The bytes of an immediate -/

/-- The byte from bit `k` of a number on is a field of the bit vector (R73). -/
theorem ofNat_div_pow_eq_extractLsb' {w : Nat} (v : BitVec w) (n k : Nat) :
    BitVec.ofNat n (v.toNat / 2 ^ k) = v.extractLsb' k n := by
  rw [← Nat.shiftRight_eq_div_pow]
  rfl

/-- The encoder's four fields are the four bytes of the number (R73). -/
theorem toLe_four_eq_le32 (v : DWord) : Machine.toLe 4 v.toNat = le32 v := by
  simp only [Machine.toLe, le32, Nat.div_div_eq_div_mul, ← ofNat_div_pow_eq_extractLsb', pow_zero, Nat.div_one]
  rfl

/-- `B8+rd`: adding a register's number to B8H puts it in the three low bits (R111). -/
theorem movByte_eq_add (n : BitVec 3) : 0b10111#5 ++ n = 0xB8 + n.setWidth 8 := by
  revert n
  decide

/-! ### The forms near TEST that are not in the table -/

/-- F7 whose ModRM is not mod 11 with reg 000 is not in the table (R120, R184). -/
theorem decodeTest_notInTable {m : Byte} (h : ¬(modOf m = 3 ∧ regOf m = 0)) (pfx : List Prefix) (rest : List Byte) :
    decodeTest pfx (m :: rest) = .notInTable := if_neg h

/-- A first byte that is none of R102's is the opcode's (R110), so the opcode map decides. -/
theorem decode_eq_notInTable {dflt : AddrSize} {b : Byte} {rest : List Byte} (notPrefix : Prefix.ofByte b = none)
    (h : decodeOpcode (effAddrSize dflt []) [] (b :: rest) = .notInTable) : decode dflt (b :: rest) = .notInTable := by
  have opcode := decodeBytes_prefixes dflt [] notPrefix rest
  rw [List.map_nil, List.nil_append, h] at opcode
  rw [decode, opcode]

end Sys2Proof

namespace Sys2Proof.Machine

/-! ### CPUID -/

/-- Bit 23 of the feature flags is `HasMMX`, whatever the drawn bits are (R181). -/
theorem featureFlags_bit23 (s : State) : s.featureFlags.getLsbD 23 = s.params.hasMmx := by
  rw [State.featureFlags]
  split_ifs with has <;> simp [has]

/-- CPUID's EDX is a function of EAX and `HasMMX` (R180, R181). -/
theorem cpuidEdx_congr {s t : State} (eax : s.x .eax = t.x .eax) (has : s.params.hasMmx = t.params.hasMmx) :
    cpuidEdx s = cpuidEdx t := by
  simp only [cpuidEdx, State.featureFlags, eax, has]

/-- What the four registers hold after CPUID (R180). -/
theorem x_of_cpuid_next {s t : State} (h : exec .cpuid s = .next t) :
    t.x .eax = Config.cpuidDraw .eax (s.x .eax) ∧ t.x .ecx = Config.cpuidDraw .ecx (s.x .eax) ∧
    t.x .edx = cpuidEdx s ∧ t.x .ebx = Config.cpuidDraw .ebx (s.x .eax) := by
  cases h
  simp [State.x, Reg32.index]

/-! ### TEST -/

/-- PF is set exactly where the low byte has an even number of ones (R184). -/
theorem evenParity_eq_decide (t : DWord) :
    evenParity t = decide (Even ((Finset.range 8).filter fun k => t.getLsbD k = true).card) := by
  have ones : ((Finset.range 8).filter fun k => t.getLsbD k = true).card =
      ((List.range 8).filter fun k => t.getLsbD k).length := by
    simp only [Finset.card_def, Finset.filter_val, Finset.range_val, Multiset.range, Multiset.filter_coe,
      Multiset.coe_card, Bool.decide_eq_true]
  rw [evenParity, ones, beq_eq_decide]
  exact decide_eq_decide.2 Nat.even_iff.symm

/-- The flags of a conjunction, in the terms of R184. -/
theorem testFlags_and (a b : DWord) (af : Bool) :
    testFlags (a &&& b) af = {
      cf := false
      pf := decide (Even ((Finset.range 8).filter fun k => (a &&& b).getLsbD k = true).card)
      af := af
      zf := decide (a &&& b = 0)
      sf := a.getLsbD 31 && b.getLsbD 31
      of := false } := by
  rw [testFlags, evenParity_eq_decide, beq_eq_decide, BitVec.getLsbD_and]

/-! ### JNZ -/

/-- Where JNZ goes (R185). -/
def jnzTarget (rel : Byte) (s : State) : DWord :=
  if s.flags.zf then s.eip + 2 else s.eip + 2 + rel.signExtend 32

/-- JNZ completes in every state and changes the pc only (R185). -/
theorem exec_jnz (rel : Byte) (s : State) : exec (.jnz rel) s = .next { s with eip := jnzTarget rel s } := by
  change execJnz rel s = _
  rw [execJnz, jnzTarget]
  split_ifs <;> rfl

/-- The pc after an instruction of two bytes, as a number (R48). -/
theorem toNat_add_two (v : DWord) : ((v + 2).toNat : Int) = ((v.toNat : Int) + 2) % 2 ^ 32 := by
  rw [BitVec.toNat_add]
  rfl

theorem toNat_jnzTarget_taken {rel : Byte} {s : State} (h : s.flags.zf = false) :
    ((jnzTarget rel s).toNat : Int) = ((s.eip.toNat : Int) + 2 + rel.toInt) % 2 ^ 32 := by
  have displacement := toNat_signExtend_eq_emod rel 32
  have following := toNat_add_two s.eip
  rw [jnzTarget, h, if_neg Bool.false_ne_true, BitVec.toNat_add]
  omega

theorem toNat_jnzTarget_notTaken {rel : Byte} {s : State} (h : s.flags.zf = true) :
    ((jnzTarget rel s).toNat : Int) = ((s.eip.toNat : Int) + 2) % 2 ^ 32 := by
  rw [jnzTarget, if_pos h, toNat_add_two]

end Sys2Proof.Machine

namespace Sys2Proof.Proofs

open Sys2Proof.Machine

/-! ### The statements -/

/-- Settles O50: the flags are those of the conjunction with AF as drawn, and the other forms fail the decoder's test of
ModRM or match no opcode. -/
theorem testSetsTheFlags : Obligations.TestSetsTheFlags := by
  refine ⟨fun src imm => ⟨?_, fun s => ⟨(Config.draw 1 s.drawCount).getLsbD 0, ?_⟩⟩, fun dflt m rest memory => ?_,
    fun dflt rest => ?_⟩
  · rw [toLe_four_eq_le32]
    rfl
  · rw [← testFlags_and]
    rfl
  · exact decode_eq_notInTable (by decide) (decodeTest_notInTable (fun register => memory register.1) [] rest)
  · exact decode_eq_notInTable (by decide) rfl

/-- Settles O48: EDX holds the feature flags where EAX is 1, and each value depends on EAX and `HasMMX` only. -/
theorem cpuidReports : Obligations.CpuidReports := by
  refine ⟨rfl, fun s => ⟨_, _, _, cpuidEdx s, rfl, fun one => ?_⟩, fun s t s' t' eax has hs ht r hr => ?_⟩
  · have features : cpuidEdx s = s.featureFlags := if_pos one
    rw [features, featureFlags_bit23]
  · have sameEax : s.x .eax = t.x .eax := eax
    obtain ⟨eaxS, ecxS, edxS, ebxS⟩ := x_of_cpuid_next hs
    obtain ⟨eaxT, ecxT, edxT, ebxT⟩ := x_of_cpuid_next ht
    rw [← sameEax] at eaxT ecxT ebxT
    obtain rfl | rfl | rfl | rfl := hr
    · exact eaxS.trans eaxT.symm
    · exact ecxS.trans ecxT.symm
    · exact edxS.trans ((cpuidEdx_congr sameEax has).trans edxT.symm)
    · exact ebxS.trans ebxT.symm

/-- Settles O49: the opcode byte and the immediate are the encoder's, and the register is the one that is written. -/
theorem movWritesTheRegister : Obligations.MovWritesTheRegister := by
  refine fun dst imm => ⟨?_, fun s => rfl⟩
  rw [encode, movByte_eq_add, toLe_four_eq_le32]

/-- Settles O51: the target, with ZF clear and with ZF set. -/
theorem jnzJumpsIfNotZero : Obligations.JnzJumpsIfNotZero :=
  fun rel s => ⟨rfl, jnzTarget rel s, exec_jnz rel s, toNat_jnzTarget_taken, toNat_jnzTarget_notTaken⟩

end Sys2Proof.Proofs

/-! PROOFS, family 43_data_transfer.md: the two directions of MOVD (O31, O32) and of MOVQ (O33, O34), from what an
instruction does that writes an MMX register, and one that stores. -/

namespace Sys2Proof.Machine

open Sys2Proof.Claims

/-! ### The bytes of a value -/

/-- Byte `k` of a number (R73). -/
theorem getElem_toLe {n v k : Nat} (hk : k < (toLe n v).length) : (toLe n v)[k] = BitVec.ofNat 8 (v / 256 ^ k) := by
  induction n generalizing v k with
  | zero => cases hk
  | succ n ih =>
    cases k with
    | zero => simp [toLe]
    | succ k => simp only [toLe, List.getElem_cons_succ, ih, Nat.div_div_eq_div_mul, ← pow_succ']

/-- Byte `k` of a value is its field from bit `8 * k` on (R73). -/
theorem getElem_toLe_toNat {w n k : Nat} (v : BitVec w) (hk : k < (toLe n v.toNat).length) :
    (toLe n v.toNat)[k] = v.extractLsb' (8 * k) 8 := by
  rw [getElem_toLe, ← ofNat_div_pow_eq_extractLsb', pow_mul]
  rfl

/-- Memory holds the fields of a value, so its bytes (R72). -/
theorem map_read_eq_toLe {w n : Nat} {v : BitVec w} {mem : List Host.Cell} {addrs : List Nat} (len : addrs.length = n)
    (bytes : ∀ k, k < n → v.extractLsb' (8 * k) 8 = Memory.read mem (addrs.getD k 0)) :
    addrs.map (Memory.read mem) = toLe n v.toNat := by
  refine List.ext_getElem (by rw [List.length_map, len, length_toLe]) fun k hk hk' => ?_
  have ha : k < addrs.length := by simpa using hk
  rw [getElem_toLe_toNat, bytes k (len ▸ ha), List.getElem_map, List.getD_eq_getElem _ _ ha]

/-- The bytes of a value make the value again (R75). -/
theorem ofNat_fromLe_toLe {w n : Nat} (v : BitVec w) (size : 256 ^ n = 2 ^ w) :
    BitVec.ofNat w (fromLe (toLe n v.toNat)) = v := by
  rw [fromLe_toLe, size, Nat.mod_eq_of_lt v.isLt, BitVec.ofNat_toNat, BitVec.setWidth_eq]

/-! ### Sources -/

/-- A memory read gives the bytes of the value whose fields stand at its addresses (R72). -/
theorem memRead_of_bytes {w n : Nat} {v : BitVec w} {s : State} {g : SegReg} {ea : DWord} {addrs : List Nat}
    (htr : translateBytes s g ea n .read = .next addrs)
    (bytes : ∀ k, k < n → v.extractLsb' (8 * k) 8 = Memory.read s.mem (addrs.getD k 0)) :
    memRead s g ea n = .next (toLe n v.toNat) :=
  memRead_eq_next.2 ⟨addrs, htr, map_read_eq_toLe (translateBytes_length htr) bytes⟩

/-- A 32-bit memory source is the value whose bytes stand at its addresses (R145). -/
theorem load32_of_bytesAt32 {pfx : List Prefix} {m : MemRef} {s : State} {addrs : List Nat} {v : DWord}
    (htr : translateBytes s (operandSeg pfx m) (m.ea s) 4 .read = .next addrs) (bytes : bytesAt32 s addrs v) :
    load32 pfx m s = .next v := by
  rw [load32, memRead_of_bytes htr bytes, andThen_next, ofNat_fromLe_toLe v rfl]

/-- A 64-bit memory source is the value whose bytes stand at its addresses (R145). -/
theorem load64_of_bytesAt64 {pfx : List Prefix} {m : MemRef} {s : State} {addrs : List Nat} {v : QWord}
    (htr : translateBytes s (operandSeg pfx m) (m.ea s) 8 .read = .next addrs) (bytes : bytesAt64 s addrs v) :
    load64 pfx m s = .next v := by
  rw [load64, memRead_of_bytes htr bytes, andThen_next, ofNat_fromLe_toLe v rfl]

/-- The source `mm/m64` that the statements name is the one that is read (R118). -/
theorem readMm64_of_isSource64 {pfx : List Prefix} {src : MmRm} {s : State} {v : QWord}
    (h : isSource64 pfx src s v) : readMm64 pfx src s = .next v := by
  cases src with
  | reg r => exact congrArg _ (Eq.symm h)
  | mem m =>
    obtain ⟨addrs, htr, bytes⟩ := h
    exact load64_of_bytesAt64 htr bytes

/-- The source `r/m32` that the statements name is the one that is read (R118). -/
theorem readGp32_of_isSourceGp {pfx : List Prefix} {src : GpRm} {s : State} {v : DWord}
    (h : isSourceGp pfx src s v) : readGp32 pfx src s = .next v := by
  cases src with
  | reg r => exact congrArg _ (Eq.symm h)
  | mem m =>
    obtain ⟨addrs, htr, bytes⟩ := h
    exact load32_of_bytesAt32 htr bytes

/-- A source `mm/m64` raises what the translation of its memory operand does (R145). -/
theorem readMm64_eq_fault {pfx : List Prefix} {src : MmRm} {m : MemRef} {s : State} {f : Fault}
    (hmem : src.memRef = some m) :
    readMm64 pfx src s = .fault f ↔ translateBytes s (operandSeg pfx m) (m.ea s) 8 .read = .fault f := by
  cases src with
  | reg r => cases hmem
  | mem m' => cases hmem; exact andThen_next_eq_fault.trans memRead_eq_fault

/-- A source `r/m32` raises what the translation of its memory operand does (R145). -/
theorem readGp32_eq_fault {pfx : List Prefix} {src : GpRm} {m : MemRef} {s : State} {f : Fault}
    (hmem : src.memRef = some m) :
    readGp32 pfx src s = .fault f ↔ translateBytes s (operandSeg pfx m) (m.ea s) 4 .read = .fault f := by
  cases src with
  | reg r => cases hmem
  | mem m' => cases hmem; exact andThen_next_eq_fault.trans memRead_eq_fault

/-! ### An MMX register as the destination -/

section ToReg

variable {i : Instr} {dst : MmReg} {α : Type} {read : State → Result α} {compute : QWord → α → QWord}

/-- Where the checks pass and the source is read, the state is the one the statements name (R148, R150). -/
theorem exec_eq_mmWritten (hx : ∀ s, exec i s = mmxToReg i.prefixes i.length dst read compute s) {s : State}
    (ready : mmxReady s = true) (lock : Prefix.lock ∉ i.prefixes) {v : α} (source : read s = .next v) :
    exec i s = .next (mmWritten dst (compute (s.mm dst) v) i s) := by
  rw [hx]
  refine mmxToReg_eq_next.2 ⟨ready, lock, v, source, ?_⟩
  rw [commit_length_eq_afterMmx]
  rfl

/-- The common exceptions, if the source raises those of its memory operand (R150). -/
theorem commonExceptions_of_toReg {n : Nat}
    (hx : ∀ s, exec i s = mmxToReg i.prefixes i.length dst read compute s) (hmmx : i.isMmx = true)
    (source : ∀ s m f, i.memRef = some m →
      translateBytes s (operandSeg i.prefixes m) (m.ea s) n .read = .fault f → read s = .fault f) :
    commonExceptions i n .read := by
  refine commonExceptions_of_operand hmmx fun s m f lock ready hmem htr => ?_
  rw [hx, mmxToReg, mmxChecks_eq_next (u := ()).2 ⟨ready, lock⟩, andThen_next, source s m f hmem htr, andThen_fault]

end ToReg

/-- The rule of an instruction `mm, mm/m64`, from the row of R118 and from what it computes. -/
theorem rule64_of_mmxRm64 {op : Byte} {mk : List Prefix → MmReg → MmRm → Instr} {R : QWord → QWord → QWord → Prop}
    {compute : QWord → QWord → QWord}
    (encoding : ∀ pfx dst src, encode (mk pfx dst src) = encodeRm pfx op dst.num src.field)
    (shape : ∀ pfx dst src, (mk pfx dst src).shape = .rmMm pfx src)
    (hx : ∀ pfx dst src s, exec (mk pfx dst src) s = mmxRm64 pfx dst src compute s)
    (result : ∀ d v, R d v (compute d v)) : rule64 op mk R := by
  intro pfx dst src
  have prefixes : (mk pfx dst src).prefixes = pfx := by rw [Instr.prefixes, shape]; rfl
  have mem : (mk pfx dst src).memRef = src.memRef := by rw [Instr.memRef, shape]; rfl
  have toReg : ∀ s, exec (mk pfx dst src) s = mmxToReg (mk pfx dst src).prefixes (mk pfx dst src).length dst
      (readMm64 pfx src) compute s := fun s => by
    rw [hx, mmxRm64, prefixes, Instr.length, shape]; rfl
  refine ⟨encoding pfx dst src, commonExceptions_of_toReg toReg ?_ fun s m f hmem htr => ?_,
    fun s v ready lock source => ⟨compute (s.mm dst) v, ?_, result _ v⟩⟩
  · rw [Instr.isMmx, shape]; rfl
  · exact (readMm64_eq_fault (mem ▸ hmem)).2 (prefixes ▸ htr)
  · exact exec_eq_mmWritten toReg ready (prefixes.symm ▸ lock) (readMm64_of_isSource64 source)

/-! ### An integer register as the destination -/

/-- The low half of an MMX register, taken from the physical register (R35). -/
theorem mm_low (s : State) (r : MmReg) : (s.mm r).extractLsb' 0 32 = (s.fpr[r.index]).extractLsb' 0 32 :=
  BitVec.extractLsb'_extractLsb'_of_le (by decide)

/-- Where the checks pass, the state is the one the statements name (R148, R150). -/
theorem exec_eq_gpWritten {i : Instr} {dst : Reg32} {value : State → DWord} {s : State}
    (hx : exec i s = mmxToGp i.prefixes i.length dst value s) (ready : mmxReady s = true)
    (lock : Prefix.lock ∉ i.prefixes) : exec i s = .next (gpWritten dst (value s) i s) := by
  rw [hx]
  refine mmxToGp_eq_next.2 ⟨ready, lock, ?_⟩
  rw [commit_length_eq_afterMmx]
  rfl

/-! ### Memory as the destination -/

/-- The byte written at an address that comes once among those of a store is what stands there (R73). -/
theorem Memory.read_writeAll_of_unique {mem : List Host.Cell} {addrs : List Nat} {bs : List Byte}
    (hwf : Memory.wf mem = true) {k : Nat} (hk : k < addrs.length) (hk' : k < bs.length)
    (unique : ∀ j (hj : j < addrs.length), j ≠ k → addrs[j] ≠ addrs[k]) :
    Memory.read (Memory.writeAll mem addrs bs) addrs[k] = bs[k] := by
  induction addrs generalizing mem bs k with
  | nil => cases hk
  | cons a addrs ih =>
    cases bs with
    | nil => cases hk'
    | cons b bs =>
      rw [Memory.writeAll]
      cases k with
      | zero =>
        have later : a ∉ addrs := fun here => by
          obtain ⟨j, hj, same⟩ := List.getElem_of_mem here
          exact unique (j + 1) (Nat.succ_lt_succ hj) (Nat.succ_ne_zero j) same
        exact (Memory.read_writeAll_other bs later).trans (Memory.read_write_same a b hwf)
      | succ k =>
        exact ih (Memory.wf_write a b hwf) (Nat.lt_of_succ_lt_succ hk) (Nat.lt_of_succ_lt_succ hk')
          fun j hj other => unique (j + 1) (Nat.succ_lt_succ hj) fun same => other (Nat.succ.inj same)

/-- What the store of the `n` low bytes of a value leaves in memory (R73, R151). -/
theorem isStored_writeAll {s : State} {addrs : List Nat} {n : Nat} (len : addrs.length = n) (v : QWord) :
    isStored s addrs n v (Memory.writeAll s.mem addrs (toLe n v.toNat)) := by
  refine ⟨fun a elsewhere => Memory.read_writeAll_other _ elsewhere, fun hwf =>
    ⟨Memory.wf_writeAll _ _ hwf, fun k hk unique => ?_⟩⟩
  have ha : k < addrs.length := len.symm ▸ hk
  have hb : k < (toLe n v.toNat).length := by rwa [length_toLe]
  rw [List.getD_eq_getElem _ _ ha, byteOf, ← getElem_toLe_toNat v hb]
  refine Memory.read_writeAll_of_unique hwf ha hb fun j hj other => ?_
  have differ := unique j (len ▸ hj) other
  rwa [List.getD_eq_getElem _ _ hj, List.getD_eq_getElem _ _ ha] at differ

/-- A store is refused at an address of the program text, if one of its addresses is there (R87). -/
theorem checkStore_refused {s : State} {addrs : List Nat} (h : ∃ a ∈ addrs, inText s a = true) :
    ∃ a ∈ addrs, inText s a = true ∧ checkStore s addrs = .refused (.storeIntoText a) := by
  obtain ⟨a, found⟩ := Option.isSome_iff_exists.1 (List.find?_isSome.2 h)
  exact ⟨a, List.mem_of_find?_eq_some found, List.find?_some found, by rw [checkStore, found]⟩

section ToMem

variable {i : Instr} {m : MemRef} {n : Nat} {value : State → QWord}

/-- Where the checks pass, an instruction that stores the low bytes of a value does what `storesTo` says (R87, R152). -/
theorem storesTo_of_toMem
    (hx : ∀ s, exec i s = mmxToMem i.prefixes i.length m (fun s => toLe n (value s).toNat) s) :
    storesTo i m n value := by
  intro s addrs ready lock htr
  have htr' : translateBytes s (operandSeg i.prefixes m) (m.ea s) (toLe n (value s).toNat).length .write =
      .next addrs := by rwa [length_toLe]
  constructor
  · intro noText
    refine ⟨_, ?_, isStored_writeAll (translateBytes_length htr) (value s)⟩
    rw [hx]
    refine mmxToMem_eq_next.2 ⟨ready, lock, addrs, htr', noText, ?_⟩
    rw [commit_length_eq_afterMmx]
    rfl
  · intro text
    obtain ⟨a, ha, inside, refused⟩ := checkStore_refused text
    refine ⟨a, ha, inside, ?_⟩
    rw [hx, mmxToMem, mmxChecks_eq_next (u := ()).2 ⟨ready, lock⟩, andThen_next, memWrite, htr', andThen_next, refused,
      andThen_refused, andThen_refused]

/-- The common exceptions of an instruction that stores (R145, R150). -/
theorem commonExceptions_of_toMem
    (hx : ∀ s, exec i s = mmxToMem i.prefixes i.length m (fun s => toLe n (value s).toNat) s) (hmmx : i.isMmx = true)
    (hmem : i.memRef = some m) : commonExceptions i n .write := by
  refine commonExceptions_of_operand hmmx fun s m' f lock ready present htr => ?_
  obtain rfl : m = m' := Option.some.inj (hmem.symm.trans present)
  have store : memWrite s (operandSeg i.prefixes m) (m.ea s) (toLe n (value s).toNat) = .fault f :=
    memWrite_eq_fault.2 (by rwa [length_toLe])
  rw [hx, mmxToMem, mmxChecks_eq_next (u := ()).2 ⟨ready, lock⟩, andThen_next, store, andThen_fault]

end ToMem

end Sys2Proof.Machine

namespace Sys2Proof.Proofs

open Sys2Proof.Machine Sys2Proof.Claims

/-! ### The statements -/

/-- Settles O31: the source is the one that is read, and its 32 bits are widened with zeros. -/
theorem movdLoad : Obligations.MovdLoad := by
  intro pfx dst src
  have toReg : ∀ s, exec (.movdLoad pfx dst src) s = mmxToReg pfx (rmLength pfx src.extra) dst (readGp32 pfx src)
      (fun _ v => v.setWidth 64) s := fun _ => rfl
  refine ⟨rfl, commonExceptions_of_toReg toReg rfl fun s m f hmem htr => (readGp32_eq_fault hmem).2 htr,
    fun s v ready lock source => ?_⟩
  have widened : 0#32 ++ v = v.setWidth 64 := (BitVec.setWidth_eq_append (by decide)).symm
  rw [widened]
  exact exec_eq_mmWritten toReg ready lock (readGp32_of_isSourceGp source)

/-- Settles O32: by the destination, an integer register or memory. -/
theorem movdStore : Obligations.MovdStore := by
  intro pfx dst src
  cases dst with
  | reg r =>
    refine ⟨rfl, commonExceptions_of_memRef_none rfl rfl, ?_, nofun⟩
    rintro _ ⟨⟩ s ready lock
    have toGp : exec (.movdStore pfx (.reg r) src) s = mmxToGp pfx (rmLength pfx 0) r
        (fun s => (s.mm src).extractLsb' 0 32) s := rfl
    rw [← mm_low]
    exact exec_eq_gpWritten toGp ready lock
  | mem m =>
    have toMem : ∀ s, exec (.movdStore pfx (.mem m) src) s = mmxToMem pfx (rmLength pfx m.extra) m
        (fun s => toLe 4 (s.mm src).toNat) s := fun _ => rfl
    refine ⟨rfl, commonExceptions_of_toMem toMem rfl rfl, nofun, ?_⟩
    rintro _ ⟨⟩
    exact storesTo_of_toMem toMem

/-- Settles O33: it computes the source, whatever the destination held. -/
theorem movqLoad : Obligations.MovqLoad :=
  rule64_of_mmxRm64 (compute := fun _ v => v) (fun _ _ _ => rfl) (fun _ _ _ => rfl)
    (fun pfx dst src s => (rfl : execMovqLoad pfx dst src s = _)) fun _ _ => rfl

/-- Settles O34: by the destination, an MMX register or memory. -/
theorem movqStore : Obligations.MovqStore := by
  intro pfx dst src
  cases dst with
  | reg r =>
    have toReg : ∀ s, exec (.movqStore pfx (.reg r) src) s = mmxToReg pfx (rmLength pfx 0) r
        (fun s => .next (s.mm src)) (fun _ v => v) s := fun _ => rfl
    refine ⟨rfl, commonExceptions_of_memRef_none rfl rfl, ?_, nofun⟩
    rintro _ ⟨⟩ s ready lock
    exact exec_eq_mmWritten toReg ready lock rfl
  | mem m =>
    have toMem : ∀ s, exec (.movqStore pfx (.mem m) src) s = mmxToMem pfx (rmLength pfx m.extra) m
        (fun s => toLe 8 (s.mm src).toNat) s := fun _ => rfl
    refine ⟨rfl, commonExceptions_of_toMem toMem rfl rfl, nofun, ?_⟩
    rintro _ ⟨⟩
    exact storesTo_of_toMem toMem

end Sys2Proof.Proofs

/-! PROOFS, family 44_pack_unpack.md: packing (O35), unpacking the high elements (O36) and the low ones (O37), from what
clamping gives as a number, the element at each place of a narrowed or interleaved value, and the 32-bit source. -/

namespace Sys2Proof.Machine

open Sys2Proof.Claims

/-! ### Saturation -/

/-- Clamping, as the statements word it (R20). -/
theorem clamp_eq_max_min {lo hi : Int} (h : lo ≤ hi) (x : Int) : clamp lo hi x = max lo (min hi x) := by
  unfold clamp; split_ifs <;> omega

/-- Signed saturation gives the clamped number, which the lane holds (R20). -/
theorem isSatSigned_satSigned {n : Nat} (width : 0 < n) (x : Int) : isSatSigned x (satSigned n x) := by
  have pos : (0 : Int) < 2 ^ (n - 1) := by positivity
  have range : (-2 ^ (n - 1) : Int) ≤ 2 ^ (n - 1) - 1 := by omega
  obtain ⟨lower, upper⟩ := clamp_mem range x
  rw [isSatSigned, satSigned, BitVec.toInt_ofInt_eq_self width lower (by omega), clamp_eq_max_min range]

/-- Unsigned saturation gives the clamped number, which the lane holds (R20). -/
theorem isSatUnsigned_satUnsigned {n : Nat} (x : Int) : isSatUnsigned x (satUnsigned n x) := by
  have pos : (0 : Int) < 2 ^ n := by positivity
  have range : (0 : Int) ≤ 2 ^ n - 1 := by omega
  obtain ⟨lower, upper⟩ := clamp_mem range x
  have inLane : clamp 0 (2 ^ n - 1) x % ((2 ^ n : Nat) : Int) = clamp 0 (2 ^ n - 1) x :=
    Int.emod_eq_of_lt lower (by push_cast; omega)
  rw [isSatUnsigned, satUnsigned, BitVec.toNat_ofInt, inLane, Int.toNat_of_nonneg lower, clamp_eq_max_min range]

/-! ### Narrowed elements -/

section Narrow

variable (sat8 : Int → Byte) (sat16 : Int → Word) (d s : QWord) {i : Nat}

/-- The low half holds the destination's words (R210). -/
theorem byteOf_narrowWords_low (h : i < 4) : byteOf (narrowWords sat8 d s) i = sat8 (wordOf d i).toInt := by
  rw [narrowWords, byteOf_packBytes _ _ (by omega), if_pos h]

/-- The high half holds the source's words (R210). -/
theorem byteOf_narrowWords_high (h : i < 4) : byteOf (narrowWords sat8 d s) (4 + i) = sat8 (wordOf s i).toInt := by
  rw [narrowWords, byteOf_packBytes _ _ (by omega), if_neg (by omega), Nat.add_sub_cancel_left]

/-- The low half holds the destination's doublewords (R210). -/
theorem wordOf_narrowDwords_low (h : i < 2) : wordOf (narrowDwords sat16 d s) i = sat16 (dwordOf d i).toInt := by
  rw [narrowDwords, wordOf_packWords _ _ (by omega), if_pos h]

/-- The high half holds the source's doublewords (R210). -/
theorem wordOf_narrowDwords_high (h : i < 2) :
    wordOf (narrowDwords sat16 d s) (2 + i) = sat16 (dwordOf s i).toInt := by
  rw [narrowDwords, wordOf_packWords _ _ (by omega), if_neg (by omega), Nat.add_sub_cancel_left]

end Narrow

/-! ### Interleaved elements -/

section Interleave

variable (start : Nat) (d s : QWord) {i : Nat}

/-- The even elements are the destination's (R214). -/
theorem byteOf_interleaveBytes_even (h : i < 4) :
    byteOf (interleaveBytes start d s) (2 * i) = byteOf d (start + i) := by
  rw [interleaveBytes, byteOf_packBytes _ _ (by omega), if_pos (by omega), Nat.mul_div_cancel_left i two_pos]

/-- The odd elements are the source's (R214). -/
theorem byteOf_interleaveBytes_odd (h : i < 4) :
    byteOf (interleaveBytes start d s) (2 * i + 1) = byteOf s (start + i) := by
  rw [interleaveBytes, byteOf_packBytes _ _ (by omega), if_neg (by omega), Nat.mul_add_div two_pos]
  rfl

theorem wordOf_interleaveWords_even (h : i < 2) :
    wordOf (interleaveWords start d s) (2 * i) = wordOf d (start + i) := by
  rw [interleaveWords, wordOf_packWords _ _ (by omega), if_pos (by omega), Nat.mul_div_cancel_left i two_pos]

theorem wordOf_interleaveWords_odd (h : i < 2) :
    wordOf (interleaveWords start d s) (2 * i + 1) = wordOf s (start + i) := by
  rw [interleaveWords, wordOf_packWords _ _ (by omega), if_neg (by omega), Nat.mul_add_div two_pos]
  rfl

theorem dwordOf_interleaveDwords_zero : dwordOf (interleaveDwords start d s) 0 = dwordOf d start :=
  dwordOf_packDwords _ 0 two_pos

theorem dwordOf_interleaveDwords_one : dwordOf (interleaveDwords start d s) 1 = dwordOf s start :=
  dwordOf_packDwords _ 1 one_lt_two

end Interleave

/-! ### The elements of a 32-bit source -/

theorem byteOf_setWidth (v : DWord) {i : Nat} (h : i < 4) : byteOf (v.setWidth 64) i = v.extractLsb' (8 * i) 8 :=
  BitVec.extractLsb'_setWidth_of_le (by omega)

theorem wordOf_setWidth (v : DWord) {i : Nat} (h : i < 2) : wordOf (v.setWidth 64) i = v.extractLsb' (16 * i) 16 :=
  BitVec.extractLsb'_setWidth_of_le (by omega)

theorem dwordOf_setWidth (v : DWord) : dwordOf (v.setWidth 64) 0 = v :=
  (BitVec.extractLsb'_setWidth_of_le (by decide)).trans BitVec.extractLsb'_eq_self

/-! ### The form `mm, mm/m32` -/

/-- The source `mm/m32` that the statements name is the one that is read (R118). -/
theorem readMm32_of_isSource32 {pfx : List Prefix} {src : MmRm} {s : State} {v : DWord}
    (h : isSource32 pfx src s v) : readMm32 pfx src s = .next v := by
  cases src with
  | reg r => exact congrArg _ ((mm_low s r).trans (Eq.symm h))
  | mem m =>
    obtain ⟨addrs, htr, bytes⟩ := h
    exact load32_of_bytesAt32 htr bytes

/-- A source `mm/m32` raises what the translation of its memory operand does (R145). -/
theorem readMm32_eq_fault {pfx : List Prefix} {src : MmRm} {m : MemRef} {s : State} {f : Fault}
    (hmem : src.memRef = some m) :
    readMm32 pfx src s = .fault f ↔ translateBytes s (operandSeg pfx m) (m.ea s) 4 .read = .fault f := by
  cases src with
  | reg r => cases hmem
  | mem m' => cases hmem; exact andThen_next_eq_fault.trans memRead_eq_fault

/-- The rule of an instruction `mm, mm/m32`, from the row of R118 and from what it computes. -/
theorem rule32_of_mmxRm32 {op : Byte} {mk : List Prefix → MmReg → MmRm → Instr} {R : QWord → DWord → QWord → Prop}
    {compute : QWord → DWord → QWord}
    (encoding : ∀ pfx dst src, encode (mk pfx dst src) = encodeRm pfx op dst.num src.field)
    (shape : ∀ pfx dst src, (mk pfx dst src).shape = .rmMm pfx src)
    (hx : ∀ pfx dst src s, exec (mk pfx dst src) s = mmxRm32 pfx dst src compute s)
    (result : ∀ d v, R d v (compute d v)) : rule32 op mk R := by
  intro pfx dst src
  have prefixes : (mk pfx dst src).prefixes = pfx := by rw [Instr.prefixes, shape]; rfl
  have length : (mk pfx dst src).length = rmLength pfx src.extra := by rw [Instr.length, shape]; rfl
  have mem : (mk pfx dst src).memRef = src.memRef := by rw [Instr.memRef, shape]; rfl
  have mmx : (mk pfx dst src).isMmx = true := by rw [Instr.isMmx, shape]; rfl
  have toReg : ∀ s, exec (mk pfx dst src) s = mmxToReg (mk pfx dst src).prefixes (mk pfx dst src).length dst
      (readMm32 pfx src) compute s := by rw [prefixes, length]; exact hx pfx dst src
  refine ⟨encoding pfx dst src, commonExceptions_of_toReg toReg mmx fun s m f hmem htr => ?_,
    fun s v ready lock source => ⟨compute (s.mm dst) v, ?_, result _ v⟩⟩
  · exact (readMm32_eq_fault (mem ▸ hmem)).2 (prefixes ▸ htr)
  · exact exec_eq_mmWritten toReg ready (prefixes.symm ▸ lock) (readMm32_of_isSource32 source)

end Sys2Proof.Machine

namespace Sys2Proof.Proofs

open Sys2Proof.Machine Sys2Proof.Claims

/-! ### The statements -/

/-- Settles O35: the low half is the destination, saturated element by element, and the high half the source. -/
theorem packInstructions : Obligations.PackInstructions := by
  refine ⟨
    rule64_of_mmxRm64 (fun _ _ _ => rfl) (fun _ _ _ => rfl)
      (fun pfx dst src s => (rfl : execPacksswb pfx dst src s = _)) fun d v i hi => ?_,
    rule64_of_mmxRm64 (fun _ _ _ => rfl) (fun _ _ _ => rfl)
      (fun pfx dst src s => (rfl : execPackssdw pfx dst src s = _)) fun d v i hi => ?_,
    rule64_of_mmxRm64 (fun _ _ _ => rfl) (fun _ _ _ => rfl)
      (fun pfx dst src s => (rfl : execPackuswb pfx dst src s = _)) fun d v i hi => ?_⟩
  · rw [byteOf_narrowWords_low _ _ _ hi, byteOf_narrowWords_high _ _ _ hi]
    exact ⟨isSatSigned_satSigned (by decide) _, isSatSigned_satSigned (by decide) _⟩
  · rw [wordOf_narrowDwords_low _ _ _ hi, wordOf_narrowDwords_high _ _ _ hi]
    exact ⟨isSatSigned_satSigned (by decide) _, isSatSigned_satSigned (by decide) _⟩
  · rw [byteOf_narrowWords_low _ _ _ hi, byteOf_narrowWords_high _ _ _ hi]
    exact ⟨isSatUnsigned_satUnsigned _, isSatUnsigned_satUnsigned _⟩

/-- Settles O36: the interleaving starts at the middle element. -/
theorem unpackHighInstructions : Obligations.UnpackHighInstructions :=
  ⟨rule64_of_mmxRm64 (fun _ _ _ => rfl) (fun _ _ _ => rfl)
      (fun pfx dst src s => (rfl : execPunpckhbw pfx dst src s = _))
      fun d v _ hi => ⟨byteOf_interleaveBytes_even 4 d v hi, byteOf_interleaveBytes_odd 4 d v hi⟩,
    rule64_of_mmxRm64 (fun _ _ _ => rfl) (fun _ _ _ => rfl)
      (fun pfx dst src s => (rfl : execPunpckhwd pfx dst src s = _))
      fun d v _ hi => ⟨wordOf_interleaveWords_even 2 d v hi, wordOf_interleaveWords_odd 2 d v hi⟩,
    rule64_of_mmxRm64 (fun _ _ _ => rfl) (fun _ _ _ => rfl)
      (fun pfx dst src s => (rfl : execPunpckhdq pfx dst src s = _))
      fun d v => ⟨dwordOf_interleaveDwords_zero 1 d v, dwordOf_interleaveDwords_one 1 d v⟩⟩

/-- Settles O37: the interleaving starts at element 0, and the low elements of the widened source are its own. -/
theorem unpackLowInstructions : Obligations.UnpackLowInstructions := by
  refine ⟨
    rule32_of_mmxRm32 (fun _ _ _ => rfl) (fun _ _ _ => rfl)
      (fun pfx dst src s => (rfl : execPunpcklbw pfx dst src s = _)) fun d v i hi => ?_,
    rule32_of_mmxRm32 (fun _ _ _ => rfl) (fun _ _ _ => rfl)
      (fun pfx dst src s => (rfl : execPunpcklwd pfx dst src s = _)) fun d v i hi => ?_,
    rule32_of_mmxRm32 (fun _ _ _ => rfl) (fun _ _ _ => rfl)
      (fun pfx dst src s => (rfl : execPunpckldq pfx dst src s = _)) fun d v => ?_⟩
  · rw [byteOf_interleaveBytes_even _ _ _ hi, byteOf_interleaveBytes_odd _ _ _ hi, Nat.zero_add, byteOf_setWidth v hi]
    exact ⟨rfl, rfl⟩
  · rw [wordOf_interleaveWords_even _ _ _ hi, wordOf_interleaveWords_odd _ _ _ hi, Nat.zero_add, wordOf_setWidth v hi]
    exact ⟨rfl, rfl⟩
  · rw [dwordOf_interleaveDwords_zero, dwordOf_interleaveDwords_one, dwordOf_setWidth]
    exact ⟨rfl, rfl⟩

end Sys2Proof.Proofs

/-! PROOFS, family 45_arithmetic.md: sums and differences that wrap around (O38) or saturate (O39, O40), and products
(O41), from what one lane computes and from what an element-by-element instruction does. -/

namespace Sys2Proof.Machine

open Sys2Proof.Claims

/-! ### Lane by lane -/

/-- `mk` makes the row `0F op /r` of R118, of the form `mm, mm/m64`, that computes this of destination and source. -/
def isRow64 (op : Byte) (mk : List Prefix → MmReg → MmRm → Instr) (compute : QWord → QWord → QWord) : Prop :=
  ∀ pfx dst src, encode (mk pfx dst src) = encodeRm pfx op dst.num src.field ∧
    (mk pfx dst src).shape = .rmMm pfx src ∧
    ∀ s, exec (mk pfx dst src) s = mmxRm64 pfx dst src compute s

/-- The rule of a row, from what it computes. -/
theorem rule64_of_isRow64 {op : Byte} {mk : List Prefix → MmReg → MmRm → Instr} {R : QWord → QWord → QWord → Prop}
    {compute : QWord → QWord → QWord} (result : ∀ d v, R d v (compute d v)) (row : isRow64 op mk compute) :
    rule64 op mk R := by
  choose encoding shape hx using row
  exact rule64_of_mmxRm64 encoding shape hx result

section Lanes

variable {op : Byte} {mk : List Prefix → MmReg → MmRm → Instr}

/-- A row that computes byte by byte does in each byte what its function of two bytes does (R230). -/
theorem rule64_byBytes {R : Byte → Byte → Byte → Prop} {f : Byte → Byte → Byte} (lane : ∀ a b, R a b (f a b))
    (row : isRow64 op mk (byBytes f)) : rule64 op mk (eachByte R) := by
  refine rule64_of_isRow64 (fun d v i hi => ?_) row
  rw [byteOf_byBytes f d v i hi]
  exact lane _ _

/-- A row that computes word by word does in each word what its function of two words does (R230). -/
theorem rule64_byWords {R : Word → Word → Word → Prop} {f : Word → Word → Word} (lane : ∀ a b, R a b (f a b))
    (row : isRow64 op mk (byWords f)) : rule64 op mk (eachWord R) := by
  refine rule64_of_isRow64 (fun d v i hi => ?_) row
  rw [wordOf_byWords f d v i hi]
  exact lane _ _

/-- A row that computes doubleword by doubleword does in each what its function of two doublewords does (R230). -/
theorem rule64_byDwords {R : DWord → DWord → DWord → Prop} {f : DWord → DWord → DWord} (lane : ∀ a b, R a b (f a b))
    (row : isRow64 op mk (byDwords f)) : rule64 op mk (eachDword R) := by
  refine rule64_of_isRow64 (fun d v i hi => ?_) row
  rw [dwordOf_byDwords f d v i hi]
  exact lane _ _

end Lanes

/-! ### Wrap-around -/

/-- The lane of an integer holds it modulo the lane's width (R20). -/
theorem isTrunc_ofInt {n : Nat} (x : Int) : isTrunc x (BitVec.ofInt n x) := by
  have nonneg : 0 ≤ x % ((2 ^ n : Nat) : Int) := Int.emod_nonneg _ (by positivity)
  rw [isTrunc, BitVec.toNat_ofInt, Int.toNat_of_nonneg nonneg]
  push_cast
  rfl

/-- The lane of an unsigned element is the element. -/
theorem ofInt_toNat {n : Nat} (a : BitVec n) : BitVec.ofInt n a.toNat = a := by
  rw [BitVec.ofInt_natCast, BitVec.ofNat_toNat, BitVec.setWidth_eq]

/-- The sum of two lanes is the exact sum modulo their width (R230). -/
theorem isTrunc_addWrap {n : Nat} (a b : BitVec n) : isTrunc (a.toNat + b.toNat) (addWrap a b) := by
  have sum : BitVec.ofInt n (a.toNat + b.toNat) = addWrap a b := by
    rw [BitVec.ofInt_add, ofInt_toNat, ofInt_toNat, addWrap]
  exact sum ▸ isTrunc_ofInt _

/-- The difference of two lanes is the exact difference modulo their width (R230). -/
theorem isTrunc_subWrap {n : Nat} (a b : BitVec n) : isTrunc (a.toNat - b.toNat) (subWrap a b) := by
  have difference : BitVec.ofInt n (a.toNat - b.toNat) = subWrap a b := by
    rw [Int.sub_eq_add_neg, BitVec.ofInt_add, BitVec.ofInt_neg, ofInt_toNat, ofInt_toNat, subWrap,
      BitVec.sub_eq_add_neg]
  exact difference ▸ isTrunc_ofInt _

/-! ### Saturated sums and differences -/

section Saturation

variable {n : Nat} (a b : BitVec n)

/-- Signed saturation of the exact sum (R230). -/
theorem isSatSigned_addSatSigned (width : 0 < n) : isSatSigned (a.toInt + b.toInt) (addSatSigned a b) :=
  isSatSigned_satSigned width _

/-- Signed saturation of the exact difference (R230). -/
theorem isSatSigned_subSatSigned (width : 0 < n) : isSatSigned (a.toInt - b.toInt) (subSatSigned a b) :=
  isSatSigned_satSigned width _

/-- Unsigned saturation of the exact sum (R230). -/
theorem isSatUnsigned_addSatUnsigned : isSatUnsigned (a.toNat + b.toNat) (addSatUnsigned a b) :=
  isSatUnsigned_satUnsigned _

/-- Unsigned saturation of the exact difference (R230). -/
theorem isSatUnsigned_subSatUnsigned : isSatUnsigned (a.toNat - b.toNat) (subSatUnsigned a b) :=
  isSatUnsigned_satUnsigned _

end Saturation

/-! ### Products -/

/-- The product of two words fits 32 bits, so its lane holds it exactly (R245). -/
theorem toInt_product (a b : Word) : (product a b).toInt = a.toInt * b.toInt := by
  have lower : -2 ^ 30 ≤ a.toInt * b.toInt := BitVec.le_toInt_mul_toInt
  have upper : a.toInt * b.toInt ≤ 2 ^ 30 := BitVec.toInt_mul_toInt_le
  exact BitVec.toInt_ofInt_eq_self (by decide) (by omega) (by omega)

/-- The high half of a doubleword is the floor of its signed quotient (R245). -/
theorem toInt_highHalf (v : DWord) : (v.extractLsb' 16 16).toInt = v.toInt / 2 ^ 16 := by
  have bound : v.toNat < 2 ^ 32 := v.isLt
  have high : (v.extractLsb' 16 16).toNat = v.toNat / 2 ^ 16 := by
    rw [BitVec.extractLsb'_toNat, Nat.shiftRight_eq_div_pow, Nat.mod_eq_of_lt (by omega)]
  rw [BitVec.toInt_eq_toNat_cond, BitVec.toInt_eq_toNat_cond, high]
  split_ifs <;> omega

/-- The low half of a doubleword is an integer modulo 2^16, if the doubleword is it modulo 2^32 (R246). -/
theorem isTrunc_lowHalf {x : Int} {v : DWord} (h : isTrunc x v) : isTrunc x (v.extractLsb' 0 16) := by
  have low : (v.extractLsb' 0 16).toNat = v.toNat % 2 ^ 16 := by
    rw [BitVec.extractLsb'_toNat, Nat.shiftRight_zero]
  unfold isTrunc at *
  omega

/-- The high half of the exact signed product (R245). -/
theorem toInt_product_high (a b : Word) : ((product a b).extractLsb' 16 16).toInt = a.toInt * b.toInt / 2 ^ 16 := by
  rw [toInt_highHalf, toInt_product]

/-- The low half of the exact signed product (R246). -/
theorem isTrunc_product_low (a b : Word) : isTrunc (a.toInt * b.toInt) ((product a b).extractLsb' 0 16) :=
  isTrunc_lowHalf (isTrunc_ofInt _)

/-- The sum of two products, modulo 2^32 (R247). -/
theorem isTrunc_product_add (a b a' b' : Word) :
    isTrunc (a.toInt * b.toInt + a'.toInt * b'.toInt) (product a b + product a' b') := by
  rw [product, product, ← BitVec.ofInt_add]
  exact isTrunc_ofInt _

/-- The doublewords of PMADDWD (R247). -/
theorem dwordOf_mulAdd (d s : QWord) {i : Nat} (h : i < 2) : dwordOf (mulAdd d s) i =
    product (wordOf d (2 * i)) (wordOf s (2 * i)) + product (wordOf d (2 * i + 1)) (wordOf s (2 * i + 1)) :=
  dwordOf_packDwords _ i h

end Sys2Proof.Machine

namespace Sys2Proof.Proofs

open Sys2Proof.Machine Sys2Proof.Claims

/-! ### The statements -/

/-- Settles O38: each lane is the sum or the difference modulo its width. -/
theorem wrapAroundArithmetic : Obligations.WrapAroundArithmetic :=
  ⟨rule64_byBytes isTrunc_addWrap fun _ _ _ => ⟨rfl, rfl, fun _ => rfl⟩,
    rule64_byWords isTrunc_addWrap fun _ _ _ => ⟨rfl, rfl, fun _ => rfl⟩,
    rule64_byDwords isTrunc_addWrap fun _ _ _ => ⟨rfl, rfl, fun _ => rfl⟩,
    rule64_byBytes isTrunc_subWrap fun _ _ _ => ⟨rfl, rfl, fun _ => rfl⟩,
    rule64_byWords isTrunc_subWrap fun _ _ _ => ⟨rfl, rfl, fun _ => rfl⟩,
    rule64_byDwords isTrunc_subWrap fun _ _ _ => ⟨rfl, rfl, fun _ => rfl⟩⟩

/-- Settles O39: each lane is the signed saturation of the exact sum or difference. -/
theorem signedSaturatingArithmetic : Obligations.SignedSaturatingArithmetic :=
  ⟨rule64_byBytes (isSatSigned_addSatSigned · · (by decide)) fun _ _ _ => ⟨rfl, rfl, fun _ => rfl⟩,
    rule64_byWords (isSatSigned_addSatSigned · · (by decide)) fun _ _ _ => ⟨rfl, rfl, fun _ => rfl⟩,
    rule64_byBytes (isSatSigned_subSatSigned · · (by decide)) fun _ _ _ => ⟨rfl, rfl, fun _ => rfl⟩,
    rule64_byWords (isSatSigned_subSatSigned · · (by decide)) fun _ _ _ => ⟨rfl, rfl, fun _ => rfl⟩⟩

/-- Settles O40: each lane is the unsigned saturation of the exact sum or difference. -/
theorem unsignedSaturatingArithmetic : Obligations.UnsignedSaturatingArithmetic :=
  ⟨rule64_byBytes isSatUnsigned_addSatUnsigned fun _ _ _ => ⟨rfl, rfl, fun _ => rfl⟩,
    rule64_byWords isSatUnsigned_addSatUnsigned fun _ _ _ => ⟨rfl, rfl, fun _ => rfl⟩,
    rule64_byBytes isSatUnsigned_subSatUnsigned fun _ _ _ => ⟨rfl, rfl, fun _ => rfl⟩,
    rule64_byWords isSatUnsigned_subSatUnsigned fun _ _ _ => ⟨rfl, rfl, fun _ => rfl⟩⟩

/-- Settles O41: each word is a half of the exact product, each doubleword of PMADDWD the sum of two products. -/
theorem multiplyInstructions : Obligations.MultiplyInstructions := by
  refine ⟨rule64_byWords toInt_product_high fun _ _ _ => ⟨rfl, rfl, fun _ => rfl⟩,
    rule64_byWords isTrunc_product_low fun _ _ _ => ⟨rfl, rfl, fun _ => rfl⟩,
    rule64_of_isRow64 (fun d v i hi => ?_) fun _ _ _ => ⟨rfl, rfl, fun _ => rfl⟩⟩
  rw [dwordOf_mulAdd d v hi]
  exact isTrunc_product_add _ _ _ _

end Sys2Proof.Proofs


/-! PROOFS, family 46_compare_logical.md: the compares for equality (O42) and for greater-than (O43), from what the mask of
one lane is, and the logical instructions (O44), bit by bit. -/

namespace Sys2Proof.Machine

open Sys2Proof.Claims

/-! ### The mask of a compare -/

/-- A mask is all ones, which is -1, where the comparison holds, and 0 where it does not (R260). -/
theorem isMask_mask {n : Nat} {holds : Bool} {p : Prop} (width : 0 < n) (reflects : holds = true ↔ p) :
    isMask p (mask n holds) := by
  cases holds with
  | true =>
    have ones : (mask n true).toInt = -1 := by rw [mask, if_pos rfl, BitVec.toInt_allOnes, if_pos width]
    exact ⟨fun _ => ones, fun fails => absurd (reflects.1 rfl) fails⟩
  | false =>
    have zeros : (mask n false).toInt = 0 := BitVec.toInt_zero
    exact ⟨fun hp => absurd (reflects.2 hp) Bool.false_ne_true, fun _ => zeros⟩

section Compare

variable {n : Nat} (a b : BitVec n)

/-- The lane of a compare for equality (R260). -/
theorem isMask_equalMask (width : 0 < n) : isMask (a = b) (equalMask a b) :=
  isMask_mask width beq_iff_eq

/-- The lane of a signed compare, the destination on the greater side (R260). -/
theorem isMask_greaterMask (width : 0 < n) : isMask (a.toInt > b.toInt) (greaterMask a b) :=
  isMask_mask width decide_eq_true_iff

end Compare

/-! ### Bit by bit -/

/-- A bit of the complemented destination and the source (R268). -/
theorem getLsbD_not_and (d v : QWord) {k : Nat} (h : k < 64) :
    (~~~d &&& v).getLsbD k = (!d.getLsbD k && v.getLsbD k) := by
  rw [BitVec.getLsbD_and, BitVec.getLsbD_not, decide_eq_true h, Bool.true_and]

end Sys2Proof.Machine

namespace Sys2Proof.Proofs

open Sys2Proof.Machine Sys2Proof.Claims

/-! ### The statements -/

/-- Settles O42: each lane is the mask of its equality. -/
theorem compareEqual : Obligations.CompareEqual :=
  ⟨rule64_byBytes (isMask_equalMask · · (by decide)) fun _ _ _ => ⟨rfl, rfl, fun _ => rfl⟩,
    rule64_byWords (isMask_equalMask · · (by decide)) fun _ _ _ => ⟨rfl, rfl, fun _ => rfl⟩,
    rule64_byDwords (isMask_equalMask · · (by decide)) fun _ _ _ => ⟨rfl, rfl, fun _ => rfl⟩⟩

/-- Settles O43: each lane is the mask of the signed compare. -/
theorem compareGreater : Obligations.CompareGreater :=
  ⟨rule64_byBytes (isMask_greaterMask · · (by decide)) fun _ _ _ => ⟨rfl, rfl, fun _ => rfl⟩,
    rule64_byWords (isMask_greaterMask · · (by decide)) fun _ _ _ => ⟨rfl, rfl, fun _ => rfl⟩,
    rule64_byDwords (isMask_greaterMask · · (by decide)) fun _ _ _ => ⟨rfl, rfl, fun _ => rfl⟩⟩

/-- Settles O44: the operation on 64 bits is the operation on each bit, and PANDN complements the destination's. -/
theorem logicalInstructions : Obligations.LogicalInstructions :=
  ⟨rule64_of_isRow64 (fun _ _ _ _ => BitVec.getLsbD_and) fun _ _ _ => ⟨rfl, rfl, fun _ => rfl⟩,
    rule64_of_isRow64 (fun d v _ hk => getLsbD_not_and d v hk) fun _ _ _ => ⟨rfl, rfl, fun _ => rfl⟩,
    rule64_of_isRow64 (fun _ _ _ _ => BitVec.getLsbD_or) fun _ _ _ => ⟨rfl, rfl, fun _ => rfl⟩,
    rule64_of_isRow64 (fun _ _ _ _ => BitVec.getLsbD_xor) fun _ _ _ => ⟨rfl, rfl, fun _ => rfl⟩⟩

end Sys2Proof.Proofs

/-! PROOFS, family 47_shift.md with 60_exceptions.md and 70_reset_and_hazards.md: the shifts (O45 to O47), from what a shift
does to one lane; which exception comes first (O10, O55), which there are (O23) and how each is reported (O56); task
switches (O59); and what floating-point code finds after MMX code (O29). -/

namespace Sys2Proof.Machine

open Sys2Proof.Claims

/-! ### One lane of a shift -/

section ShiftedLane

variable {n : Nat} (c : Nat) (a : BitVec n)

/-- A count beyond the lane's width leaves a multiple of 2 to the width, which is 0 modulo it (R281). -/
theorem isShiftLeft_shiftLeft : isShiftLeft a c (shiftLeft c a) := by
  unfold isShiftLeft shiftLeft
  split_ifs with beyond
  · have multiple : 2 ^ n ∣ a.toNat * 2 ^ c := Dvd.dvd.mul_left (pow_dvd_pow 2 (by omega)) _
    rw [Nat.mod_eq_zero_of_dvd multiple]
    exact BitVec.toNat_ofNat 0 n
  · rw [BitVec.toNat_shiftLeft, Nat.shiftLeft_eq]

/-- A count beyond the lane's width divides by more than the lane holds (R281). -/
theorem isShiftRight_shiftRight : isShiftRight a c (shiftRight c a) := by
  unfold isShiftRight shiftRight
  split_ifs with beyond
  · have small : a.toNat < 2 ^ c := a.isLt.trans_le (Nat.pow_le_pow_right two_pos (by omega))
    rw [Nat.div_eq_of_lt small]
    exact BitVec.toNat_ofNat 0 n
  · rw [BitVec.toNat_ushiftRight, Nat.shiftRight_eq_div_pow]

/-- Once the divisor is past the magnitude of an integer, the floor of the quotient is its sign. -/
theorem ediv_pow_of_lt {x : Int} {k c : Nat} (lower : -2 ^ k ≤ x) (upper : x < 2 ^ k) (hc : k ≤ c) :
    x / 2 ^ c = if x < 0 then -1 else 0 := by
  have grows : (2 : Int) ^ k ≤ 2 ^ c := pow_le_pow_right₀ (by decide) hc
  split_ifs with negative
  · exact Int.ediv_eq_neg_one_of_neg_of_le negative (by omega)
  · exact Int.ediv_eq_zero_of_lt (by omega) (by omega)

/-- A count beyond the lane's width fills the lane with its sign, as the last count within it does (R281, R288). -/
theorem isShiftArith_shiftArith : isShiftArith a c (shiftArith c a) := by
  rw [isShiftArith, shiftArith, BitVec.toInt_sshiftRight, Int.shiftRight_eq_div_pow]
  push_cast
  obtain within | beyond := le_total c (n - 1)
  · rw [min_eq_left within]
  · have lower : -2 ^ (n - 1) ≤ a.toInt := BitVec.le_toInt a
    have upper : a.toInt < 2 ^ (n - 1) := BitVec.toInt_lt
    rw [min_eq_right beyond, ediv_pow_of_lt lower upper le_rfl, ediv_pow_of_lt lower upper beyond]

end ShiftedLane

/-! ### Both forms of a shift -/

/-- `mk` makes the row `0F op /ext ib` of R118, of the form `mm, imm8`, that computes this of destination and count. -/
def isRowImm (op : Byte) (ext : BitVec 3) (mk : List Prefix → MmReg → Byte → Instr) (compute : QWord → Nat → QWord) :
    Prop :=
  ∀ pfx dst imm, encode (mk pfx dst imm) = encodeShi pfx op ext dst.num imm ∧
    (mk pfx dst imm).shape = .shi pfx ∧
    ∀ s, exec (mk pfx dst imm) s = mmxImm pfx dst imm compute s

/-- The rule of a row, from what it computes: its source is the immediate, so only the checks raise (R116, R150). -/
theorem ruleImm_of_isRowImm {op : Byte} {ext : BitVec 3} {mk : List Prefix → MmReg → Byte → Instr}
    {R : QWord → Nat → QWord → Prop} {compute : QWord → Nat → QWord} (result : ∀ d c, R d c (compute d c))
    (row : isRowImm op ext mk compute) : ruleImm op ext mk R := by
  intro pfx dst imm
  obtain ⟨encoding, shape, hx⟩ := row pfx dst imm
  have prefixes : (mk pfx dst imm).prefixes = pfx := by rw [Instr.prefixes, shape]; rfl
  have length : (mk pfx dst imm).length = shiLength pfx := by rw [Instr.length, shape]; rfl
  have mem : (mk pfx dst imm).memRef = none := by rw [Instr.memRef, shape]; rfl
  have mmx : (mk pfx dst imm).isMmx = true := by rw [Instr.isMmx, shape]; rfl
  have toReg : ∀ s, exec (mk pfx dst imm) s = mmxToReg (mk pfx dst imm).prefixes (mk pfx dst imm).length dst
      (fun _ => .next imm.toNat) compute s := by rw [prefixes, length]; exact hx
  refine ⟨encoding, commonExceptions_of_memRef_none mmx mem, fun s ready lock =>
    ⟨compute (s.mm dst) imm.toNat, ?_, result _ _⟩⟩
  exact exec_eq_mmWritten toReg ready (prefixes.symm ▸ lock) rfl

section Shift

variable {op opImm : Byte} {ext : BitVec 3} {mk : List Prefix → MmReg → MmRm → Instr}
  {mkImm : List Prefix → MmReg → Byte → Instr}

/-- Both forms of a shift compute the same of the destination and the count (R281). -/
theorem ruleShift_of_rows {R : QWord → Nat → QWord → Prop} {compute : QWord → Nat → QWord}
    (result : ∀ d c, R d c (compute d c)) (row : isRow64 op mk fun d v => compute d v.toNat)
    (rowImm : isRowImm opImm ext mkImm compute) : ruleShift op opImm ext mk mkImm R :=
  ⟨rule64_of_isRow64 (fun d v => result d v.toNat) row, ruleImm_of_isRowImm result rowImm⟩

/-- A shift of words does in each word what its function of one word does (R280). -/
theorem ruleShift_shiftWords {R : Word → Nat → Word → Prop} {f : Nat → Word → Word} (lane : ∀ c a, R a c (f c a))
    (row : isRow64 op mk fun d v => shiftWords f d v.toNat) (rowImm : isRowImm opImm ext mkImm (shiftWords f)) :
    ruleShift op opImm ext mk mkImm fun d c r => ∀ i, i < 4 → R (wordOf d i) c (wordOf r i) := by
  refine ruleShift_of_rows (fun d c i hi => ?_) row rowImm
  rw [wordOf_shiftWords f d c i hi]
  exact lane _ _

/-- A shift of doublewords does in each what its function of one doubleword does (R280). -/
theorem ruleShift_shiftDwords {R : DWord → Nat → DWord → Prop} {f : Nat → DWord → DWord}
    (lane : ∀ c a, R a c (f c a)) (row : isRow64 op mk fun d v => shiftDwords f d v.toNat)
    (rowImm : isRowImm opImm ext mkImm (shiftDwords f)) :
    ruleShift op opImm ext mk mkImm fun d c r => ∀ i, i < 2 → R (dwordOf d i) c (dwordOf r i) := by
  refine ruleShift_of_rows (fun d c i hi => ?_) row rowImm
  rw [dwordOf_shiftDwords f d c i hi]
  exact lane _ _

end Shift

/-! ### The order of exceptions within an operand -/

/-- The elements in front of one that raises an exception are answered first, and the ones behind it are not asked. -/
theorem forEach_append_fault {α β : Type} {f : α → Result β} {xs ys : List α} {x : α} {e : Fault}
    (hxs : ∀ y ∈ xs, ∃ b, f y = .next b) (hx : f x = .fault e) : forEach f (xs ++ x :: ys) = .fault e := by
  induction xs with
  | nil => rw [List.nil_append, forEach, hx, andThen_fault]
  | cons y xs ih =>
    obtain ⟨⟨b, hy⟩, hxs⟩ := List.forall_mem_cons.1 hxs
    rw [List.cons_append, forEach, hy, andThen_next, ih hxs, andThen_fault]

/-- Of the bytes of an operand, the lowest that raises an exception decides (R309). -/
theorem forEach_range_fault {α β : Type} {f : α → Result β} {g : Nat → α} {n j : Nat} {e : Fault} (hj : j < n)
    (below : ∀ i, i < j → ∃ b, f (g i) = .next b) (here : f (g j) = .fault e) :
    forEach f ((List.range n).map g) = .fault e := by
  obtain ⟨above, rfl⟩ := Nat.exists_eq_add_of_lt hj
  have cut : List.range (j + above + 1) = List.range j ++ j :: (List.range above).map (j + 1 + ·) := by
    rw [Nat.add_right_comm, List.range_add, List.range_succ, List.append_assoc, List.singleton_append]
  rw [cut, List.map_append, List.map_cons]
  refine forEach_append_fault (fun y hy => ?_) here
  obtain ⟨i, hi, rfl⟩ := List.mem_map.1 hy
  exact below i (List.mem_range.1 hi)

/-- Where each element's answer is a function of its number, so is the list of the answers. -/
theorem forEach_map_eq_next {α β ι : Type} {f : α → Result β} {a : ι → α} {g : ι → β} {xs : List ι}
    (h : ∀ x ∈ xs, f (a x) = .next (g x)) : forEach f (xs.map a) = .next (xs.map g) := by
  induction xs with
  | nil => rfl
  | cons x xs ih =>
    obtain ⟨hx, hxs⟩ := List.forall_mem_cons.1 h
    rw [List.map_cons, forEach, hx, andThen_next, ih hxs, andThen_next, List.map_cons]

/-- With `AlignmentCheck` off every operand passes (R79). -/
theorem checkAligned_off {s : State} (off : s.params.alignmentCheck = false) (linears : List Nat) :
    checkAligned s linears = .next () := by
  rw [checkAligned, if_neg fun ⟨on, _⟩ => Bool.noConfusion (on.symm.trans off)]

/-- An exception of segmentation is the one of `Translate`, whatever comes behind it (R309). -/
theorem translateBytes_of_segment_fault {s : State} {g : SegReg} {ea : DWord} {n : Nat} {k : AccessKind} {f : Fault}
    (h : forEach (linearOf s g k) ((List.range n).map (ea.toNat + ·)) = .fault f) :
    translateBytes s g ea n k = .fault f := by
  rw [translateBytes, h, andThen_fault]

/-- Where segmentation and the alignment check pass, an exception of paging is the one of `Translate` (R309). -/
theorem translateBytes_of_page_fault {s : State} {g : SegReg} {ea : DWord} {n : Nat} {k : AccessKind} {f : Fault}
    {linears : List Nat} (segment : forEach (linearOf s g k) ((List.range n).map (ea.toNat + ·)) = .next linears)
    (aligned : checkAligned s linears = .next ()) (page : forEach (physicalOf s k) linears = .fault f) :
    translateBytes s g ea n k = .fault f := by
  rw [translateBytes, segment, andThen_next, aligned, andThen_next, page, andThen_fault]

/-! ### Task switches -/

/-- A preemptive system restores what it saved (R322). -/
theorem saveContext_preemptiveSwitch (others : State → State) (s : State) :
    saveContext (preemptiveSwitch others s) = saveContext s := rfl

/-- What the context holds of the floating-point state is what an MMX register, its tag, TOS and the pending exception are
read from (R56, R323). -/
theorem fpState_of_saveContext_eq {s t : State} (h : saveContext t = saveContext s) :
    (∀ r, t.mm r = s.mm r) ∧ (∀ r, t.tag r = s.tag r) ∧ t.tos = s.tos ∧ t.fpExcPending = s.fpExcPending := by
  have fpr : t.fpr = s.fpr := congrArg Context.fpr h
  have tags : t.tagWord = s.tagWord := congrArg Context.tagWord h
  have status : t.statusWord = s.statusWord := congrArg Context.statusWord h
  refine ⟨fun r => ?_, fun r => ?_, ?_, congrArg Context.fpExcPending h⟩
  · rw [State.mm, State.mm, State.fp, State.fp, fpr]
  · rw [State.tag, State.tag, tags]
  · rw [State.tos, State.tos, status]

/-! ### What floating-point code finds -/

/-- A register that an MMX instruction wrote has an exponent field of ones (R36, R353). -/
theorem exponentAllOnes_written (v : QWord) : exponentAllOnes (0xFFFF#16 ++ v) = true := by
  have field : (0xFFFF#16 ++ v).extractLsb' 64 15 = (0xFFFF#16).extractLsb' 0 15 :=
    BitVec.extractLsb'_append_eq_of_le (by decide)
  rw [exponentAllOnes, field]
  rfl

/-- So has what the handler of a masked exception loads, whatever the draw (R352). -/
theorem exponentAllOnes_softExceptionNan (n : Nat) : exponentAllOnes (softExceptionNan n) = true := by
  have ones : (0x7FFF#80 <<< 64).extractLsb' 64 15 = BitVec.allOnes 15 := by decide
  rw [exponentAllOnes, softExceptionNan, BitVec.extractLsb'_or, ones, BitVec.or_allOnes, beq_self_eq_true]

/-- With TOS 0, `ST(i)` is physical register `i` (R35, R354). -/
theorem st_of_tos_eq_zero {s : State} (h : s.tos = 0) (k : BitVec 3) : s.st k = s.fpr[k.toFin] := by
  have index : s.tos + k = k := by rw [h]; exact BitVec.zero_add k
  simp only [State.st, index]

end Sys2Proof.Machine

namespace Sys2Proof.Proofs

open Sys2Proof.Machine Sys2Proof.Claims

/-! ### The statements -/

/-- Settles O45: each lane is shifted left, and both forms take the count as one number. -/
theorem shiftLeftLogical : Obligations.ShiftLeftLogical :=
  ⟨ruleShift_shiftWords isShiftLeft_shiftLeft (fun _ _ _ => ⟨rfl, rfl, fun _ => rfl⟩)
      fun _ _ _ => ⟨rfl, rfl, fun _ => rfl⟩,
    ruleShift_shiftDwords isShiftLeft_shiftLeft (fun _ _ _ => ⟨rfl, rfl, fun _ => rfl⟩)
      fun _ _ _ => ⟨rfl, rfl, fun _ => rfl⟩,
    ruleShift_of_rows (fun d c => isShiftLeft_shiftLeft c d) (fun _ _ _ => ⟨rfl, rfl, fun _ => rfl⟩)
      fun _ _ _ => ⟨rfl, rfl, fun _ => rfl⟩⟩

/-- Settles O46: each lane is shifted right with zeros. -/
theorem shiftRightLogical : Obligations.ShiftRightLogical :=
  ⟨ruleShift_shiftWords isShiftRight_shiftRight (fun _ _ _ => ⟨rfl, rfl, fun _ => rfl⟩)
      fun _ _ _ => ⟨rfl, rfl, fun _ => rfl⟩,
    ruleShift_shiftDwords isShiftRight_shiftRight (fun _ _ _ => ⟨rfl, rfl, fun _ => rfl⟩)
      fun _ _ _ => ⟨rfl, rfl, fun _ => rfl⟩,
    ruleShift_of_rows (fun d c => isShiftRight_shiftRight c d) (fun _ _ _ => ⟨rfl, rfl, fun _ => rfl⟩)
      fun _ _ _ => ⟨rfl, rfl, fun _ => rfl⟩⟩

/-- Settles O47: each lane is shifted right with its sign. -/
theorem shiftRightArithmetic : Obligations.ShiftRightArithmetic :=
  ⟨ruleShift_shiftWords isShiftArith_shiftArith (fun _ _ _ => ⟨rfl, rfl, fun _ => rfl⟩)
      fun _ _ _ => ⟨rfl, rfl, fun _ => rfl⟩,
    ruleShift_shiftDwords isShiftArith_shiftArith (fun _ _ _ => ⟨rfl, rfl, fun _ => rfl⟩)
      fun _ _ _ => ⟨rfl, rfl, fun _ => rfl⟩⟩

/-- Settles O10: the fetch stops at the byte, among the instruction's own, with its exception. -/
theorem fetchFaultComesFirst : Obligations.FetchFaultComesFirst :=
  fun _ _ _ f hw hend hk h stop => step_stopped (e := .inl f) hw hend hk h stop

/-- Settles O23: an exception of the checks is one of the first three, and any other is the memory operand's. -/
theorem mmxExceptionsOnly : Obligations.MmxExceptionsOnly := by
  intro i s f hmmx hx
  obtain checks | operand := exec_mmx_fault hmmx hx
  · obtain invalid | device | numeric := mmxChecks_fault checks
    · exact .inl invalid
    · exact .inr (.inl device)
    · exact .inr (.inr (.inl numeric))
  · exact .inr (.inr (.inr operand))

/-- Settles O55: segmentation of every byte is asked before paging of any, and each from the lowest byte on. -/
theorem segmentationBeforePaging : Obligations.SegmentationBeforePaging := by
  intro s g ea n j k f hj
  constructor
  · intro below here
    exact translateBytes_of_segment_fault (forEach_range_fault hj below here)
  · intro lin linear off below here
    have segment : forEach (linearOf s g k) ((List.range n).map (ea.toNat + ·)) = .next ((List.range n).map lin) :=
      forEach_map_eq_next fun i hi => linear i (List.mem_range.1 hi)
    exact translateBytes_of_page_fault segment (checkAligned_off off _) (forEach_range_fault hj below here)

/-- Settles O56: exception by exception; a limit violation's vector depends on the segment register. -/
theorem vectorsAndErrorCodes : Obligations.VectorsAndErrorCodes := by
  refine ⟨rfl, rfl, rfl, rfl, rfl, rfl, fun _ _ => ⟨rfl, rfl⟩, fun _ => ⟨rfl, rfl⟩, fun g => ⟨?_, rfl⟩, rfl, rfl⟩
  cases g <;> rfl

/-- Settles O59: a preemptive system restores the context it saved, and a cooperative one draws the floating-point state. -/
theorem taskSwitches : Obligations.TaskSwitches := by
  intro others s
  constructor
  · intro preemptive
    have kept : saveContext (yieldTask others s) = saveContext s := by
      rw [yieldTask, preemptive]
      exact saveContext_preemptiveSwitch others s
    exact ⟨kept, fpState_of_saveContext_eq kept⟩
  · intro cooperative
    rw [yieldTask, cooperative]
    exact ⟨_, _, _, _, _, _, rfl⟩

/-- Settles O29: the committed tags are Valid, or Empty after EMMS, and the commit clears TOS. -/
theorem floatingPointCodeFinds : Obligations.FloatingPointCodeFinds := by
  refine ⟨fun i s t hmmx hx => ?_, exponentAllOnes_softExceptionNan⟩
  obtain ⟨valid, empty⟩ := mmxInstructionsSetTheTagWord i s t hmmx hx
  obtain ⟨tos, -⟩ := mmxInstructionsClearTos i s t hmmx hx
  refine ⟨fun other => ?_, fun emms => ?_, fun r hdst => ?_, st_of_tos_eq_zero tos⟩
  · rw [stackSeemsFull, fitForFp, (valid other).1]
    exact ⟨rfl, rfl⟩
  · rw [fitForFp, (empty emms).1]
    rfl
  · obtain ⟨v, written⟩ := (fp_of_exec_next hmmx hx r).1 hdst
    rw [written]
    exact exponentAllOnes_written v

end Sys2Proof.Proofs
